-- ==== Sys2Proof/Word.lean ====
section
/-! DEFINITION. The words of LZWC: the widths of 10_state.md rule R20, 30_encoding.md rules R70 and R76,
and 20_memory.md rule R59. All values are unsigned (00_scope.md rule R10). -/

namespace Sys2Proof

/-- One byte: an input symbol, a data byte of a sub-block, a byte offered to the sink. -/
abbrev Byte := BitVec 8

/-- A command word `cmd[9:0]` (rule R70). -/
abbrev CmdWord := BitVec 10

/-- A response word `rsp[3:0]` (rule R76). -/
abbrev RspWord := BitVec 4

/-- A code of the 4096-entry code space (rule R8). -/
abbrev Code := BitVec 12

/-- The stored pair `KEY = {byte[7:0], prefix[11:0]}` of one `HKEY` entry (rule R30). -/
abbrev Key := BitVec 20

end Sys2Proof
end

