-- ==== Sys2Proof/Syntax.lean ====
section
/-! DEFINITION. The commands of LZWC as syntax: one constructor for each of the 20 rows of spec/opcode_table.json,
the three commands of 30_encoding.md rules R72 to R74 and the 17 reserved blocks of rules R75 and R87. The argument
of a reserved constructor holds the bits its row leaves open, so that no bit of a word is dropped. -/

namespace Sys2Proof

/-- One command word, read. -/
inductive Instr where
  /-- `PUT sym` (rule R72): one input symbol. -/
  | put (sym : BitVec 8)
  /-- `START depth` (rule R73): opens a call. -/
  | start (depth : BitVec 4)
  /-- `FINISH` (rule R74): ends the input and completes the stream. -/
  | finish
  /-- `RSVD_OP3`: words 0x300 to 0x3FF, `OP = 0b11`. -/
  | rsvdOp3 (arg : BitVec 8)
  /-- `RSVD_START_D0`: word 0x100, START with depth 0. -/
  | rsvdStartD0
  /-- `RSVD_START_D9`: word 0x109, START with depth 9. -/
  | rsvdStartD9
  /-- `RSVD_START_D10_11`: words 0x10A and 0x10B. -/
  | rsvdStartD10to11 (lo : BitVec 1)
  /-- `RSVD_START_D12_15`: words 0x10C to 0x10F. -/
  | rsvdStartD12to15 (lo : BitVec 2)
  /-- `RSVD_START_HI_1`: words 0x110 to 0x11F. -/
  | rsvdStartHi1 (lo : BitVec 4)
  /-- `RSVD_START_HI_2`: words 0x120 to 0x13F. -/
  | rsvdStartHi2 (lo : BitVec 5)
  /-- `RSVD_START_HI_3`: words 0x140 to 0x17F. -/
  | rsvdStartHi3 (lo : BitVec 6)
  /-- `RSVD_START_HI_4`: words 0x180 to 0x1FF. -/
  | rsvdStartHi4 (lo : BitVec 7)
  /-- `RSVD_FINISH_ARG_1`: word 0x201. -/
  | rsvdFinishArg1
  /-- `RSVD_FINISH_ARG_2`: words 0x202 and 0x203. -/
  | rsvdFinishArg2 (lo : BitVec 1)
  /-- `RSVD_FINISH_ARG_3`: words 0x204 to 0x207. -/
  | rsvdFinishArg3 (lo : BitVec 2)
  /-- `RSVD_FINISH_ARG_4`: words 0x208 to 0x20F. -/
  | rsvdFinishArg4 (lo : BitVec 3)
  /-- `RSVD_FINISH_ARG_5`: words 0x210 to 0x21F. -/
  | rsvdFinishArg5 (lo : BitVec 4)
  /-- `RSVD_FINISH_ARG_6`: words 0x220 to 0x23F. -/
  | rsvdFinishArg6 (lo : BitVec 5)
  /-- `RSVD_FINISH_ARG_7`: words 0x240 to 0x27F. -/
  | rsvdFinishArg7 (lo : BitVec 6)
  /-- `RSVD_FINISH_ARG_8`: words 0x280 to 0x2FF. -/
  | rsvdFinishArg8 (lo : BitVec 7)
  deriving DecidableEq, Repr

/-- Whether the constructor is one of the 17 reserved rows (rule R75); the three commands are not. -/
def Instr.isReserved : Instr → Bool
  | .put _ => false
  | .start _ => false
  | .finish => false
  | .rsvdOp3 _ => true
  | .rsvdStartD0 => true
  | .rsvdStartD9 => true
  | .rsvdStartD10to11 _ => true
  | .rsvdStartD12to15 _ => true
  | .rsvdStartHi1 _ => true
  | .rsvdStartHi2 _ => true
  | .rsvdStartHi3 _ => true
  | .rsvdStartHi4 _ => true
  | .rsvdFinishArg1 => true
  | .rsvdFinishArg2 _ => true
  | .rsvdFinishArg3 _ => true
  | .rsvdFinishArg4 _ => true
  | .rsvdFinishArg5 _ => true
  | .rsvdFinishArg6 _ => true
  | .rsvdFinishArg7 _ => true
  | .rsvdFinishArg8 _ => true

end Sys2Proof
end

