-- ==== Sys2Proof/WellFormed.lean ====
section
/-! DEFINITION. Which instructions the encoding admits. The widths of the fields are in the types; what is left to
check is START's depth (30_encoding.md rule R73: legal `DEPTH` values are 1 to 8). A PUT is well formed for every
symbol (rule R72: "whether the symbol is legal for the call's depth is a precondition on the host, not a property of
the encoding"). -/

namespace Sys2Proof

/-- The legal depths of START, 1 to 8 (rules R8, R73). -/
def legalDepth (d : BitVec 4) : Bool := 1 ≤ d.toNat && d.toNat ≤ 8

/-- An instruction the encoding admits. -/
def Instr.wellFormed : Instr → Bool
  | .put _ => true
  | .start d => legalDepth d
  | .finish => true
  | .rsvdOp3 _ => true
  | .rsvdStartD0 => true
  | .rsvdStartD9 => true
  | .rsvdStartD10to11 _ => true
  | .rsvdStartD12to15 _ => true
  | .rsvdStartHi1 _ => true
  | .rsvdStartHi2 _ => true
  | .rsvdStartHi3 _ => true
  | .rsvdStartHi4 _ => true
  | .rsvdFinishArg1 => true
  | .rsvdFinishArg2 _ => true
  | .rsvdFinishArg3 _ => true
  | .rsvdFinishArg4 _ => true
  | .rsvdFinishArg5 _ => true
  | .rsvdFinishArg6 _ => true
  | .rsvdFinishArg7 _ => true
  | .rsvdFinishArg8 _ => true

end Sys2Proof
end

