-- ==== Sys2Proof/Decode.lean ====
section
/-! DEFINITION. The decoder of command words, total on all 1024 words of 10 bits ("reserved" is a verdict of the
decoder, 93_implementation_defined.md U4), the opcode table as data, and after them the encoder. -/

namespace Sys2Proof

/-- `OP = cmd[9:8]` (rule R70). -/
def opField (w : CmdWord) : BitVec 2 := w.extractLsb' 8 2

/-- `ARG = cmd[7:0]` (rule R70). -/
def argField (w : CmdWord) : BitVec 8 := w.extractLsb' 0 8

/-- The words with `OP = 0b01`: START where `cmd[7:4] = 0` and the depth is 1 to 8 (rule R73), else one of the
reserved blocks of rule R75 as the rows of the opcode table split them. -/
def decodeStart (arg : BitVec 8) : Instr :=
  if arg.extractLsb' 4 4 = 0#4 then
    if legalDepth (arg.extractLsb' 0 4) then .start (arg.extractLsb' 0 4)
    else if arg.extractLsb' 0 4 = 0#4 then .rsvdStartD0
    else if arg.extractLsb' 0 4 = 9#4 then .rsvdStartD9
    else if arg.extractLsb' 1 3 = 5#3 then .rsvdStartD10to11 (arg.extractLsb' 0 1)
    else .rsvdStartD12to15 (arg.extractLsb' 0 2)
  else if arg.extractLsb' 4 4 = 1#4 then .rsvdStartHi1 (arg.extractLsb' 0 4)
  else if arg.extractLsb' 5 3 = 1#3 then .rsvdStartHi2 (arg.extractLsb' 0 5)
  else if arg.extractLsb' 6 2 = 1#2 then .rsvdStartHi3 (arg.extractLsb' 0 6)
  else .rsvdStartHi4 (arg.extractLsb' 0 7)

/-- The words with `OP = 0b10`: FINISH where `ARG = 0` (rule R74), else one of the reserved blocks of rule R75. -/
def decodeFinish (arg : BitVec 8) : Instr :=
  if arg = 0#8 then .finish
  else if arg = 1#8 then .rsvdFinishArg1
  else if arg.extractLsb' 1 7 = 1#7 then .rsvdFinishArg2 (arg.extractLsb' 0 1)
  else if arg.extractLsb' 2 6 = 1#6 then .rsvdFinishArg3 (arg.extractLsb' 0 2)
  else if arg.extractLsb' 3 5 = 1#5 then .rsvdFinishArg4 (arg.extractLsb' 0 3)
  else if arg.extractLsb' 4 4 = 1#4 then .rsvdFinishArg5 (arg.extractLsb' 0 4)
  else if arg.extractLsb' 5 3 = 1#3 then .rsvdFinishArg6 (arg.extractLsb' 0 5)
  else if arg.extractLsb' 6 2 = 1#2 then .rsvdFinishArg7 (arg.extractLsb' 0 6)
  else .rsvdFinishArg8 (arg.extractLsb' 0 7)

/-- The instruction a command word spells (rule R71). -/
def decode (w : CmdWord) : Instr :=
  if opField w = 0#2 then .put (argField w)
  else if opField w = 1#2 then decodeStart (argField w)
  else if opField w = 2#2 then decodeFinish (argField w)
  else .rsvdOp3 (argField w)

/-- Why a number is no command word. -/
inductive DecodeError where
  /-- It has a bit above bit 9: a command word has 10 bits (rule R70). -/
  | widerThanTenBits
  deriving DecidableEq, Repr

/-- The decoder on any number: a word of 10 bits decodes, anything wider is rejected by name. -/
def decodeBits (n : Nat) : Except DecodeError Instr :=
  if n < 1024 then .ok (decode (BitVec.ofNat 10 n)) else .error .widerThanTenBits

/-- The instruction the decoder reads from `nbits` bits of value `w`, numbered as the opcode table numbers them;
every bit above `nbits` is 0. -/
def decodeTableWord (nbits w : Nat) : Option Instr :=
  match decodeBits (w % 2 ^ nbits) with
  | .ok i => some i
  | .error _ => none

/-- One row of spec/opcode_table.json: its number from 0, its match and mask. -/
structure OpRow where
  row : Nat
  pattern : CmdWord
  mask : CmdWord
  deriving DecidableEq, Repr

/-- The rows of spec/opcode_table.json in the table's order (rule R87). -/
def opcodeTable : List OpRow :=
  [⟨0, 0x000#10, 0x300#10⟩, ⟨1, 0x100#10, 0x3F0#10⟩, ⟨2, 0x200#10, 0x3FF#10⟩, ⟨3, 0x300#10, 0x300#10⟩,
   ⟨4, 0x100#10, 0x3FF#10⟩, ⟨5, 0x109#10, 0x3FF#10⟩, ⟨6, 0x10A#10, 0x3FE#10⟩, ⟨7, 0x10C#10, 0x3FC#10⟩,
   ⟨8, 0x110#10, 0x3F0#10⟩, ⟨9, 0x120#10, 0x3E0#10⟩, ⟨10, 0x140#10, 0x3C0#10⟩, ⟨11, 0x180#10, 0x380#10⟩,
   ⟨12, 0x201#10, 0x3FF#10⟩, ⟨13, 0x202#10, 0x3FE#10⟩, ⟨14, 0x204#10, 0x3FC#10⟩, ⟨15, 0x208#10, 0x3F8#10⟩,
   ⟨16, 0x210#10, 0x3F0#10⟩, ⟨17, 0x220#10, 0x3E0#10⟩, ⟨18, 0x240#10, 0x3C0#10⟩, ⟨19, 0x280#10, 0x380#10⟩]

/-- Whether a word has the fixed bits of a row. -/
def OpRow.matchesWord (r : OpRow) (w : CmdWord) : Bool := w &&& r.mask == r.pattern

/-- The numbers of the rows whose fixed bits a word has, in the table's order. -/
def rowsOf (w : CmdWord) : List Nat := (opcodeTable.filter (·.matchesWord w)).map (·.row)

/-- The number of the row a constructor stands for. -/
def Instr.row : Instr → Nat
  | .put _ => 0
  | .start _ => 1
  | .finish => 2
  | .rsvdOp3 _ => 3
  | .rsvdStartD0 => 4
  | .rsvdStartD9 => 5
  | .rsvdStartD10to11 _ => 6
  | .rsvdStartD12to15 _ => 7
  | .rsvdStartHi1 _ => 8
  | .rsvdStartHi2 _ => 9
  | .rsvdStartHi3 _ => 10
  | .rsvdStartHi4 _ => 11
  | .rsvdFinishArg1 => 12
  | .rsvdFinishArg2 _ => 13
  | .rsvdFinishArg3 _ => 14
  | .rsvdFinishArg4 _ => 15
  | .rsvdFinishArg5 _ => 16
  | .rsvdFinishArg6 _ => 17
  | .rsvdFinishArg7 _ => 18
  | .rsvdFinishArg8 _ => 19

/-- The command word of an instruction: the row's fixed bits above its open bits, from the pattern column of the
opcode table. -/
def encode : Instr → CmdWord
  | .put s => 0b00#2 ++ s
  | .start d => 0b010000#6 ++ d
  | .finish => 0b1000000000#10
  | .rsvdOp3 a => 0b11#2 ++ a
  | .rsvdStartD0 => 0b0100000000#10
  | .rsvdStartD9 => 0b0100001001#10
  | .rsvdStartD10to11 x => 0b010000101#9 ++ x
  | .rsvdStartD12to15 x => 0b01000011#8 ++ x
  | .rsvdStartHi1 x => 0b010001#6 ++ x
  | .rsvdStartHi2 x => 0b01001#5 ++ x
  | .rsvdStartHi3 x => 0b0101#4 ++ x
  | .rsvdStartHi4 x => 0b011#3 ++ x
  | .rsvdFinishArg1 => 0b1000000001#10
  | .rsvdFinishArg2 x => 0b100000001#9 ++ x
  | .rsvdFinishArg3 x => 0b10000001#8 ++ x
  | .rsvdFinishArg4 x => 0b1000001#7 ++ x
  | .rsvdFinishArg5 x => 0b100001#6 ++ x
  | .rsvdFinishArg6 x => 0b10001#5 ++ x
  | .rsvdFinishArg7 x => 0b1001#4 ++ x
  | .rsvdFinishArg8 x => 0b101#3 ++ x

end Sys2Proof
end

