-- ==== Sys2Proof/Config.lean ====
section
/-! DEFINITION. What is fixed for this hardware (00_scope.md rule R8), and the free values: constants with no body
that stand where the spec leaves a value unspecified (93_implementation_defined.md U2, U3, U5), so that no proof can
know them. Each free value is applied to the model's own counter `State.draws` (log entry 4). -/

namespace Sys2Proof.Config

/-- The identity string a model may print (00_scope.md rule R2). -/
def identity : String := "LZWC-CMD1/H5003/W12/B254"

/-- `HSIZE`: slots in each dictionary table. -/
abbrev hsize : Nat := 5003

/-- `MAX_WIDTH`: the largest code width. -/
abbrev maxWidth : Nat := 12

/-- `MAX_CODES = 1 << MAX_WIDTH`: the size of the code space. -/
abbrev maxCodes : Nat := 4096

/-- `BLK_MAX`: the largest number of data bytes in one sub-block (90_conflicts.md C1: 254, not 255). -/
abbrev blkMax : Nat := 254

/-- `MIN_SIZE`: the floor of the initial code size. -/
abbrev minSize : Nat := 2

/-- `HSHIFT`: the shift of the symbol in the hash function. -/
abbrev hshift : Nat := 4

/-- `KEY_SHIFT`: the shift of the symbol in the stored key. -/
abbrev keyShift : Nat := 12

/-- Free value (log entry 4): `DEPTH` after a sink failure or a `RESET` (U2, U3). -/
opaque freeDepth : Nat → BitVec 4

/-- Free value (log entry 4): `CODE_WIDTH` after a sink failure or a `RESET`. -/
opaque freeCodeWidth : Nat → BitVec 4

/-- Free value (log entry 4): `PREV_CODE` after a sink failure or a `RESET`. -/
opaque freePrevCode : Nat → BitVec 12

/-- Free value (log entry 4): `NEXT_CODE` after a sink failure or a `RESET`. -/
opaque freeNextCode : Nat → BitVec 13

/-- Free value (log entry 4): `ACC` after a sink failure or a `RESET`. -/
opaque freeAcc : Nat → BitVec 19

/-- Free value (log entry 4): `ACC_BITS` after a sink failure or a `RESET`. -/
opaque freeAccBits : Nat → BitVec 5

/-- Free value (log entry 4): `BLK_COUNT` after a sink failure or a `RESET`. -/
opaque freeBlkCount : Nat → BitVec 8

/-- Free value (log entry 4): which slots of `HKEY` have `V = 1` after a sink failure or a `RESET`, and their `KEY`
bits, as a list in any order (U2, U3). -/
opaque freeHkey : Nat → List (Nat × Key)

/-- Free value (log entry 3): `HCODE[slot]` where nothing has given that entry a value (U5). -/
opaque freeHcode : Nat → Nat → Code

/-- Free value (log entry 3): `BLK_BUF[j]` where nothing has given that entry a value (U5). -/
opaque freeBlkByte : Nat → Nat → Byte

end Sys2Proof.Config
end

