-- ==== Sys2Proof/Machine/State.lean ====
section
/-! DEFINITION. The state of LZWC as plain data: the eleven items of 10_state.md rule R20, the channels and the reset
input of rules R36 to R39 with the two agents of the environment (00_scope.md rule R7) as lists, and one counter of
the model's own. INVENTORY.md lists every field with its rule and its reset value. -/

namespace Sys2Proof.Machine

/-- `PHASE` (rule R21): where the block is in a call. -/
inductive Phase where
  /-- 0, `IDLE`: no call open. -/
  | idle
  /-- 1, `EMPTY`: a call is open and no symbol has been taken yet. -/
  | empty
  /-- 2, `ACTIVE`: a call is open and `PREV_CODE` is valid. -/
  | active
  /-- 3, `FAILED`: the call's sink failed. -/
  | failed
  deriving DecidableEq, Repr

/-- The error codes of rule R77, held by `LAST_ERR` and sent in responses (codes 4 to 7 are never produced). -/
inductive ErrCode where
  /-- 0: success. -/
  | eNone
  /-- 1: PUT or FINISH while `PHASE = IDLE`. -/
  | eSeq
  /-- 2: the sink failed during this command, or the call had already failed. -/
  | eSink
  /-- 3: the word is a reserved encoding. -/
  | eReserved
  deriving DecidableEq, Repr

/-- What the sink does with one offered byte: an input, chosen by the environment (43_subblock_framing.md rule R140,
93_implementation_defined.md U8, U9). -/
inductive SinkAnswer where
  /-- `ACK`: the byte is now the last byte the sink has accepted. -/
  | ack
  /-- `FAIL`: the byte is not in the sink. -/
  | fail
  /-- The sink never answers this byte (70_reset_and_hazards.md rule R180). -/
  | silent
  deriving DecidableEq, Repr

/-- The `RESET` input as one step sees it (70_reset_and_hazards.md rule R170). -/
inductive ResetDraw where
  /-- Not asserted. -/
  | off
  /-- Asserted while no command runs. -/
  | between
  /-- Asserted in the middle of the command the step takes, after at most `k` of its bytes have been accepted. -/
  | during (k : Nat)
  deriving DecidableEq, Repr

/-- A table or buffer: the entries that hold a value, as (index, value) pairs with the indexes strictly rising. An
index that is not listed holds no value (log entry 3). `HKEY` lists exactly the slots with `V = 1`. -/
abbrev Memory (w : Nat) := List (Nat × BitVec w)

/-- Why a step can stop for good. No command stops so on every path. -/
inductive Fault where
  /-- Raised by a sink write whose byte the sink never answers: the command never completes and no response appears
  (70_reset_and_hazards.md rule R180, 93_implementation_defined.md U9: stuck). Safe. -/
  | sinkNeverAnswers
  /-- Raised by PUT when a dictionary search has looked at all 5003 slots and met neither its key nor an empty slot, so
  that the loop of 41_dictionary.md rule R114 would go round for ever. Rule R118: no run reaches it. Safe. -/
  | lookupNeverEnds
  /-- Raised by START, PUT and FINISH on an access to `BLK_BUF` at an index above 253, an entry that does not exist
  (20_memory.md rule R50). 10_state.md rule R41 item 6: no run reaches it. Safe. -/
  | noSuchBlkBufEntry
  deriving DecidableEq, Repr

/-- Why a step gives an instruction no meaning. -/
inductive Refusal where
  /-- Raised by an arm of `exec` whose instruction has no meaning yet. Safe. No arm raises it now. -/
  | notModelled (mnemonic : String)
  /-- Raised by PUT in phase `EMPTY` or `ACTIVE` when the symbol is not below `CLEAR_CODE`, which the spec leaves
  unspecified with the treatment "refuse" (93_implementation_defined.md U1; 40_commands.md rule R92). Safe. -/
  | symbolNotBelowClearCode
  deriving DecidableEq, Repr

/-- The state of LZWC, its channels and its environment. -/
structure State where
  /-- `PHASE`, 2 bits (rule R21). -/
  phase : Phase
  /-- `LAST_ERR`, 3 bits (rule R29). -/
  lastErr : ErrCode
  /-- `DEPTH`, 4 bits (rule R22). -/
  depth : BitVec 4
  /-- `CODE_WIDTH`, 4 bits (rule R23). -/
  codeWidth : BitVec 4
  /-- `PREV_CODE`, 12 bits (rule R24). -/
  prevCode : BitVec 12
  /-- `NEXT_CODE`, 13 bits (rule R25). -/
  nextCode : BitVec 13
  /-- `ACC`, 19 bits (rule R26). -/
  acc : BitVec 19
  /-- `ACC_BITS`, 5 bits (rule R27). -/
  accBits : BitVec 5
  /-- `BLK_COUNT`, 8 bits (rule R28). -/
  blkCount : BitVec 8
  /-- `BLK_BUF[0..253]`, 8 bits each (rule R32). -/
  blkBuf : Memory 8
  /-- `HKEY[0..5002]`, 21 bits each (rule R30): the listed slots have `V = 1` and the listed `KEY`, every other slot
  has `V = 0` and a `KEY` without a value. -/
  hkey : Memory 20
  /-- `HCODE[0..5002]`, 12 bits each (rule R31). -/
  hcode : Memory 12
  /-- `CMD` (rule R36): the words the host has offered and LZWC has not yet taken, oldest first. -/
  cmd : List CmdWord
  /-- `RSP` (rule R37): the responses given so far, oldest first. -/
  rsp : List RspWord
  /-- `OUT` (rule R38): the bytes the sink has accepted so far, oldest first. -/
  sink : List Byte
  /-- The sink's answers to the coming bytes, next first: an input. Beyond the list's end every byte is answered
  `ACK` (log entry 8). -/
  answers : List SinkAnswer
  /-- The `RESET` input (rules R39, R170) of the coming steps, next first: an input. Beyond the list's end it is not
  asserted. -/
  resetPin : List ResetDraw
  /-- The model's own counter: how many times the working state has been made unspecified; the free values of Config
  are applied to it (log entry 4). -/
  draws : Nat
  deriving DecidableEq, Repr

/-- The machine right after reset (10_state.md rule R42, 70_reset_and_hazards.md rule R171): `PHASE = IDLE`,
`LAST_ERR = E_NONE`, channels empty. The zeros of the working registers are the model's own (log entry 1), the empty
tables too (log entry 2), the always-`ACK` sink and the quiet `RESET` input are the inputs of log entries 6 and 8. -/
def State.reset : State where
  phase := .idle
  lastErr := .eNone
  depth := 0
  codeWidth := 0
  prevCode := 0
  nextCode := 0
  acc := 0
  accBits := 0
  blkCount := 0
  blkBuf := []
  hkey := []
  hcode := []
  cmd := []
  rsp := []
  sink := []
  answers := []
  resetPin := []
  draws := 0

end Sys2Proof.Machine
end

