-- ==== Sys2Proof/Machine/Flags.lean ====
section
/-! DEFINITION. The nearest things LZWC has to flags (10_state.md rule R34): the `ok` bit and the error code of a
response (30_encoding.md rules R76, R77), and the `STATUS` port (10_state.md rules R33, R39), a view of `PHASE` and
`LAST_ERR`. -/

namespace Sys2Proof.Machine

/-- The 2-bit encoding of `PHASE` (rule R21). -/
def Phase.bits : Phase → BitVec 2
  | .idle => 0#2
  | .empty => 1#2
  | .active => 2#2
  | .failed => 3#2

/-- The 3-bit error code (rule R77). -/
def ErrCode.bits : ErrCode → BitVec 3
  | .eNone => 0#3
  | .eSeq => 1#3
  | .eSink => 2#3
  | .eReserved => 3#3

/-- The `ok` bit that goes with an error code: 1 exactly when the code is `E_NONE` (rule R76). -/
def ErrCode.okBit : ErrCode → BitVec 1
  | .eNone => 1#1
  | .eSeq => 0#1
  | .eSink => 0#1
  | .eReserved => 0#1

/-- The response word `{err[2:0], ok}` (rule R76). -/
def responseWord (e : ErrCode) : RspWord := e.bits ++ e.okBit

/-- The `STATUS` port: `STATUS[1:0] = PHASE`, `STATUS[4:2] = LAST_ERR` (rule R33). -/
def statusPort (s : State) : BitVec 5 := s.lastErr.bits ++ s.phase.bits

end Sys2Proof.Machine
end

