-- ==== Sys2Proof/Machine/Operands.lean ====
section
/-! DEFINITION. What the operands of the commands are turned into: the quantities of 00_scope.md rule R9, functions
of `DEPTH` alone, and the key, first slot and probe step of 41_dictionary.md rules R111 to R113. -/

namespace Sys2Proof.Machine

/-- `INIT_SIZE = max(2, DEPTH)` (rule R9). -/
def initSize (d : BitVec 4) : Nat := max Config.minSize d.toNat

/-- `INIT_WIDTH = INIT_SIZE + 1` (rule R9). -/
def initWidth (d : BitVec 4) : Nat := initSize d + 1

/-- `CLEAR_CODE = 1 << INIT_SIZE` (rule R9). -/
def clearCode (d : BitVec 4) : Nat := 2 ^ initSize d

/-- `EOF_CODE = CLEAR_CODE + 1` (rule R9). -/
def eofCode (d : BitVec 4) : Nat := clearCode d + 1

/-- `FIRST_FREE = EOF_CODE + 1` (rule R9). -/
def firstFree (d : BitVec 4) : Nat := eofCode d + 1

/-- `CLEAR_CODE` as a code word. -/
def clearWord (d : BitVec 4) : Code := BitVec.ofNat 12 (clearCode d)

/-- `EOF_CODE` as a code word. -/
def eofWord (d : BitVec 4) : Code := BitVec.ofNat 12 (eofCode d)

/-- The precondition of PUT on the host: the symbol is below `CLEAR_CODE` (40_commands.md rule R92,
70_reset_and_hazards.md rule R175). -/
def symbolLegal (d : BitVec 4) (c : BitVec 8) : Bool := c.toNat < clearCode d

/-- `Key(prefix, byte) = {byte[7:0], prefix[11:0]}` (rule R111). -/
def keyOf (p : Code) (b : BitVec 8) : Key := (b.setWidth 20 <<< Config.keyShift) ||| p.setWidth 20

/-- The prefix code of a stored key (rule R30: bits 11 to 0). -/
def keyPrefix (k : Key) : Code := k.extractLsb' 0 12

/-- The byte of a stored key (rule R30: bits 19 to 12). -/
def keyByte (k : Key) : BitVec 8 := k.extractLsb' 12 8

/-- `HashIndex(prefix, byte) = (zext_12(byte) << 4) XOR prefix` (rule R112; parameter `HASH_FN`, log entry 12). -/
def hashIndex (p : Code) (b : BitVec 8) : Nat := ((b.setWidth 12 <<< Config.hshift) ^^^ p).toNat

/-- `ProbeStep(h)` (rule R113). -/
def probeStep (h : Nat) : Nat := if h = 0 then 1 else Config.hsize - h

/-- The slot looked at after slot `i` (rule R114): one step back, brought into range by one addition of 5003. -/
def nextSlot (i st : Nat) : Nat := if st ≤ i then i - st else i + Config.hsize - st

end Sys2Proof.Machine
end

