-- ==== Sys2Proof/Machine/Ops.lean ====
section
/-! DEFINITION. The named operations the commands are made of: reading and writing a table entry, the internal
procedures of 41_dictionary.md, 42_code_output.md and 43_subblock_framing.md, the response, and the failure events of
60_exceptions.md with the way back from them. -/

namespace Sys2Proof.Machine

/-! ### Tables and buffers -/

/-- Reads one entry; `none` where the entry holds no value. -/
def Memory.read {w : Nat} : Memory w → Nat → Option (BitVec w)
  | [], _ => none
  | (j, v) :: m, i => if j = i then some v else if i < j then none else Memory.read m i

/-- Writes one entry, keeping the indexes strictly rising. -/
def Memory.write {w : Nat} : Memory w → Nat → BitVec w → Memory w
  | [], i, v => [(i, v)]
  | (j, u) :: m, i, v =>
    if i < j then (i, v) :: (j, u) :: m
    else if i = j then (i, v) :: m
    else (j, u) :: Memory.write m i v

/-- Whether the indexes are strictly rising and all below `bound`, and at least `lo`. -/
def Memory.wfFrom {w : Nat} (bound : Nat) : Nat → Memory w → Bool
  | _, [] => true
  | lo, (j, _) :: m => decide (lo ≤ j) && decide (j < bound) && Memory.wfFrom bound (j + 1) m

/-- The canonical form: indexes strictly rising, every index below `bound`. An unlisted entry holds no value, so no
listed entry can equal what an unlisted one reads as. -/
def Memory.wf {w : Nat} (bound : Nat) (m : Memory w) : Bool := Memory.wfFrom bound 0 m

/-- The table that holds the listed pairs whose index is below `bound`, in canonical form. -/
def Memory.ofPairs {w : Nat} (bound : Nat) : List (Nat × BitVec w) → Memory w
  | [] => []
  | (i, v) :: l => if i < bound then Memory.write (Memory.ofPairs bound l) i v else Memory.ofPairs bound l

/-- `BLK_BUF[j]`; a free value where the entry holds none (rule R32, U5). -/
def blkByte (s : State) (j : Nat) : Byte := (Memory.read s.blkBuf j).getD (Config.freeBlkByte s.draws j)

/-- `HCODE[slot]`; a free value where the entry holds none (rule R31, U5). -/
def hcodeAt (s : State) (slot : Nat) : Code := (Memory.read s.hcode slot).getD (Config.freeHcode s.draws slot)

/-- The word `HKEY[slot] = {V, KEY}` (rule R30) where `V = 1`; `none` says `V = 0`. -/
def hkeyWord (s : State) (slot : Nat) : Option (BitVec 21) := (Memory.read s.hkey slot).map (fun k => 1#1 ++ k)

/-- The bytes of `BLK_BUF[0..BLK_COUNT-1]`, in output order (rule R32). -/
def blkBytes (s : State) : List Byte := (List.range s.blkCount.toNat).map (blkByte s)

/-! ### A command in the making -/

/-- How a procedure ends (00_scope.md rule R12): it goes on with a state, or it has performed `raise SinkFail`, or it
never ends. -/
inductive Flow where
  | go (s : State)
  | sinkFail (s : State)
  | stuck (r : Fault)
  deriving DecidableEq, Repr

/-- Runs the rest of a command after a procedure, unless the procedure has ended the command. -/
def Flow.andThen : Flow → (State → Flow) → Flow
  | .go s, f => f s
  | .sinkFail s, _ => .sinkFail s
  | .stuck r, _ => .stuck r

/-! ### The response, the failures and the way back -/

/-- `respond(ok, err)` (rules R12, R37, R76): the one response of a command. -/
def respond (e : ErrCode) (s : State) : State := { s with rsp := s.rsp ++ [responseWord e] }

/-- A command turned away with its cause (40_commands.md rule R90 steps 1 and 2; rules R152, R153, R155): `LAST_ERR`
and the response, nothing else. -/
def refuse (e : ErrCode) (s : State) : State := respond e { s with lastErr := e }

/-- Makes the working state unspecified (U2, U3): every item but `PHASE` and `LAST_ERR` takes a free value, and the
entries of `HCODE` and `BLK_BUF` hold none (log entry 4). -/
def forgetWorking (s : State) : State :=
  { s with
    depth := Config.freeDepth s.draws
    codeWidth := Config.freeCodeWidth s.draws
    prevCode := Config.freePrevCode s.draws
    nextCode := Config.freeNextCode s.draws
    acc := Config.freeAcc s.draws
    accBits := Config.freeAccBits s.draws
    blkCount := Config.freeBlkCount s.draws
    blkBuf := []
    hkey := Memory.ofPairs Config.hsize (Config.freeHkey s.draws)
    hcode := []
    draws := s.draws + 1 }

/-- Taking the sink failure `SinkFail` (60_exceptions.md rule R154): `PHASE <- FAILED`, `LAST_ERR <- E_SINK`,
`respond(0, E_SINK)`; the working state is unspecified afterwards. -/
def takeSinkFail (s : State) : State :=
  respond .eSink (forgetWorking { s with phase := .failed, lastErr := .eSink })

/-- The way back from a failed call that FINISH takes (rules R155, R159): `PHASE <- IDLE`, still answered
`E_SINK`. -/
def closeFailed (s : State) : State := refuse .eSink { s with phase := .idle }

/-- The end of a command that ran (rule R90 steps 3 and 4). -/
def answer : Flow → Host.Outcome State Fault Refusal
  | .go s => .next (respond .eNone s)
  | .sinkFail s => .next (takeSinkFail s)
  | .stuck r => .fault r

/-! ### The sink and the sub-block buffer (43_subblock_framing.md) -/

/-- `SinkWrite(b)` (rule R140): offers one byte and waits for the answer. -/
def sinkWrite (b : Byte) (s : State) : Flow :=
  match s.answers with
  | [] => .go { s with sink := s.sink ++ [b] }
  | .ack :: r => .go { s with sink := s.sink ++ [b], answers := r }
  | .fail :: r => .sinkFail { s with answers := r }
  | .silent :: _ => .stuck .sinkNeverAnswers

/-- `SinkWrite` of each byte of a list, in order; the first failure ends the command. -/
def sinkWriteAll : List Byte → State → Flow
  | [], s => .go s
  | b :: bs, s => (sinkWrite b s).andThen (sinkWriteAll bs)

/-- `BLK_COUNT <- 0` (rule R142). -/
def emptyBlock (s : State) : State := { s with blkCount := 0#8 }

/-- `FlushBlock()` (rule R142): writes the waiting bytes as one sub-block, if there are any. -/
def flushBlock (s : State) : Flow :=
  if s.blkCount = 0#8 then .go s
  else if Config.blkMax < s.blkCount.toNat then .stuck .noSuchBlkBufEntry
  else (sinkWriteAll (s.blkCount :: blkBytes s) s).andThen fun s1 => .go (emptyBlock s1)

/-- `BLK_BUF[BLK_COUNT] <- b ; BLK_COUNT <- BLK_COUNT + 1` (rule R141). -/
def storeByte (b : Byte) (s : State) : State :=
  { s with
    blkBuf := Memory.write s.blkBuf s.blkCount.toNat b
    blkCount := s.blkCount + 1#8 }

/-- `ByteOut(b)` (rule R141): adds one data byte and writes the sub-block out when it is full. -/
def byteOut (b : Byte) (s : State) : Flow :=
  if Config.blkMax ≤ s.blkCount.toNat then .stuck .noSuchBlkBufEntry
  else if Config.blkMax ≤ (storeByte b s).blkCount.toNat then flushBlock (storeByte b s)
  else .go (storeByte b s)

/-- `Terminator()` (rule R143): the single byte 0x00. -/
def terminator (s : State) : Flow := sinkWrite 0x00#8 s

/-! ### The dictionary (41_dictionary.md) -/

/-- What a search of the dictionary finds. -/
inductive Found where
  /-- `(true, slot)`: the slot holds the pair. -/
  | hit (slot : Nat)
  /-- `(false, slot)`: the empty slot where the pair would go. -/
  | miss (slot : Nat)
  /-- Every slot has been looked at: the search goes round for ever. -/
  | endless
  deriving DecidableEq, Repr

/-- The loop of `Lookup` (rule R114) from slot `i` with a fixed step: looks at no more than `n` slots. -/
def probe (m : Memory 20) (k : Key) (st : Nat) : Nat → Nat → Found
  | 0, _ => .endless
  | n + 1, i =>
    match Memory.read m i with
    | none => .miss i
    | some k' => if k' = k then .hit i else probe m k st n (nextSlot i st)

/-- `Lookup(prefix, byte)` (rule R114) in a table of keys. After 5003 slots the search would repeat (rule R118). -/
def lookup (m : Memory 20) (p : Code) (b : BitVec 8) : Found :=
  probe m (keyOf p b) (probeStep (hashIndex p b)) Config.hsize (hashIndex p b)

/-- `Insert(slot, prefix, byte)` (rule R115): the pair gets the next free code. -/
def insertEntry (slot : Nat) (p : Code) (b : BitVec 8) (s : State) : State :=
  { s with
    hcode := Memory.write s.hcode slot (s.nextCode.extractLsb' 0 12)
    hkey := Memory.write s.hkey slot (keyOf p b)
    nextCode := s.nextCode + 1#13 }

/-- `ClearTable()` (rule R116): all 5003 `V` bits become 0; `HCODE` is not written. -/
def clearTable (s : State) : State := { s with hkey := [] }

/-! ### Code output (42_code_output.md) -/

/-- Packing (rules R125, R126): the code goes above the bits already waiting. -/
def pack (c : Code) (s : State) : State :=
  { s with
    acc := s.acc ||| (c.setWidth 19 <<< s.accBits.toNat)
    accBits := s.accBits + s.codeWidth.setWidth 5 }

/-- The low byte of `ACC` leaves: `ACC <- ACC >> 8 ; ACC_BITS <- ACC_BITS - 8` (rule R127). -/
def dropByte (s : State) : State := { s with acc := s.acc >>> 8, accBits := s.accBits - 8#5 }

/-- Draining (rules R125, R127): whole bytes leave while at least 8 bits wait, at most `n` of them. -/
def drain : Nat → State → Flow
  | 0, s => .go s
  | n + 1, s =>
    if 8 ≤ s.accBits.toNat then
      (byteOut (s.acc.extractLsb' 0 8) s).andThen fun s1 => drain n (dropByte s1)
    else .go s

/-- The width step (rules R125, R128 to R130). -/
def widthStep (c : Code) (s : State) : State :=
  if c = clearWord s.depth then { s with codeWidth := BitVec.ofNat 4 (initWidth s.depth) }
  else if 2 ^ s.codeWidth.toNat - 1 < s.nextCode.toNat ∧ s.codeWidth.toNat < Config.maxWidth then
    { s with codeWidth := s.codeWidth + 1#4 }
  else s

/-- `ACC <- 0 ; ACC_BITS <- 0` (rule R131). -/
def clearAcc (s : State) : State := { s with acc := 0#19, accBits := 0#5 }

/-- The zero-padded last byte (rules R125, R131): written only if bits still wait. -/
def padOut (s : State) : Flow :=
  if s.accBits = 0#5 then .go s
  else (byteOut (s.acc.extractLsb' 0 8) s).andThen fun s1 => .go (clearAcc s1)

/-- `EmitCode(code)` (rule R125). `ACC_BITS` has 5 bits, so 3 turns of the drain loop always suffice (log entry 17). -/
def emitCode (c : Code) (s : State) : Flow :=
  (drain 3 (pack c s)).andThen fun s1 =>
    if c = eofWord s1.depth then (padOut (widthStep c s1)).andThen flushBlock else .go (widthStep c s1)

end Sys2Proof.Machine
end

