-- ==== Sys2Proof/Machine/Commands.lean ====
section
/-! DEFINITION. The three commands START, PUT and FINISH (40_commands.md rules R90 to R93 and the phase table of
rule R95). -/

namespace Sys2Proof.Machine

/-! ### START -/

/-- The registers and tables START initialises before its first sink write (rule R91). -/
def openCall (d : BitVec 4) (s : State) : State :=
  clearTable { s with
    depth := d
    lastErr := .eNone
    phase := .empty
    codeWidth := BitVec.ofNat 4 (initWidth d)
    nextCode := BitVec.ofNat 13 (firstFree d)
    acc := 0#19
    accBits := 0#5
    blkCount := 0#8 }

/-- `START depth` (rule R91): runs in every phase. A depth of 0 or 9 to 15 spells a reserved word and is refused
before anything is written. -/
def execStart (d : BitVec 4) (s : State) : Host.Outcome State Fault Refusal :=
  if legalDepth d then
    answer ((sinkWrite (BitVec.ofNat 8 (initSize d)) (openCall d s)).andThen (emitCode (clearWord d)))
  else .next (refuse .eReserved s)

/-! ### PUT -/

/-- `NEXT_CODE <- FIRST_FREE` (rule R92). -/
def restartCodes (s : State) : State := { s with nextCode := BitVec.ofNat 13 (firstFree s.depth) }

/-- `PREV_CODE <- zext_12(c)` (rule R92). -/
def startString (c : BitVec 8) (s : State) : State := { s with prevCode := c.setWidth 12 }

/-- The first symbol of a call (rule R92, `PHASE = EMPTY`). -/
def firstSymbol (c : BitVec 8) (s : State) : State := { startString c s with phase := .active }

/-- `PREV_CODE <- HCODE[slot]` (rule R92). -/
def extendString (slot : Nat) (s : State) : State := { s with prevCode := hcodeAt s slot }

/-- The room test after a miss (rules R92, R117), the prefix code `p` having been emitted: insert the pair, or clear
the dictionary and emit `CLEAR_CODE`. -/
def roomTest (slot : Nat) (p : Code) (c : BitVec 8) (s : State) : Flow :=
  if s.nextCode.toNat < Config.maxCodes then .go (insertEntry slot p c s)
  else emitCode (clearWord s.depth) (restartCodes (clearTable s))

/-- A later symbol of a call (rule R92, `PHASE = ACTIVE`). -/
def nextSymbol (c : BitVec 8) (s : State) : Flow :=
  match lookup s.hkey s.prevCode c with
  | .hit slot => .go (extendString slot s)
  | .miss slot =>
    (emitCode s.prevCode s).andThen fun s1 => roomTest slot s.prevCode c (startString c s1)
  | .endless => .stuck .lookupNeverEnds

/-- `PUT sym` (rule R92). A symbol not below `CLEAR_CODE` in an open call has no meaning (U1). -/
def execPut (c : BitVec 8) (s : State) : Host.Outcome State Fault Refusal :=
  match s.phase with
  | .idle => .next (refuse .eSeq s)
  | .empty => if symbolLegal s.depth c then answer (.go (firstSymbol c s)) else .refused .symbolNotBelowClearCode
  | .active => if symbolLegal s.depth c then answer (nextSymbol c s) else .refused .symbolNotBelowClearCode
  | .failed => .next (refuse .eSink s)

/-! ### FINISH -/

/-- `PHASE <- IDLE` (rule R93). -/
def closeCall (s : State) : State := { s with phase := .idle }

/-- The end of the stream (rule R93): the end code, the terminator, `PHASE <- IDLE`. -/
def closeStream (s : State) : Flow :=
  ((emitCode (eofWord s.depth) s).andThen terminator).andThen fun s1 => .go (closeCall s1)

/-- `FINISH` (rule R93). -/
def execFinish (s : State) : Host.Outcome State Fault Refusal :=
  match s.phase with
  | .idle => .next (refuse .eSeq s)
  | .empty => answer (closeStream s)
  | .active => answer ((emitCode s.prevCode s).andThen closeStream)
  | .failed => .next (closeFailed s)

end Sys2Proof.Machine
end

