-- ==== Sys2Proof/Machine/Reserved.lean ====
section
/-! DEFINITION. The 17 reserved blocks of the opcode table (30_encoding.md rule R75): each word is refused at the decode
step of 40_commands.md rule R90, in every phase, with `E_RESERVED` and no other effect than `LAST_ERR` (rules R94,
R152). The bits a row leaves open have no influence. -/

namespace Sys2Proof.Machine

/-- RSVD_OP3: `OP = 0b11` (rule R94). -/
def execRsvdOp3 (_lo : BitVec 8) (s : State) : Host.Outcome State Fault Refusal := .next (refuse .eReserved s)

/-- RSVD_START_D0: START with depth 0 (rule R94). -/
def execRsvdStartD0 (s : State) : Host.Outcome State Fault Refusal := .next (refuse .eReserved s)

/-- RSVD_START_D9: START with depth 9 (rule R94). -/
def execRsvdStartD9 (s : State) : Host.Outcome State Fault Refusal := .next (refuse .eReserved s)

/-- RSVD_START_D10_11: START with depth 10 or 11 (rule R94). -/
def execRsvdStartD10to11 (_lo : BitVec 1) (s : State) : Host.Outcome State Fault Refusal := .next (refuse .eReserved s)

/-- RSVD_START_D12_15: START with depth 12 to 15 (rule R94). -/
def execRsvdStartD12to15 (_lo : BitVec 2) (s : State) : Host.Outcome State Fault Refusal := .next (refuse .eReserved s)

/-- RSVD_START_HI_1: START with `cmd[7:4] = 1` (rule R94). -/
def execRsvdStartHi1 (_lo : BitVec 4) (s : State) : Host.Outcome State Fault Refusal := .next (refuse .eReserved s)

/-- RSVD_START_HI_2: START with `cmd[7:5] = 1` (rule R94). -/
def execRsvdStartHi2 (_lo : BitVec 5) (s : State) : Host.Outcome State Fault Refusal := .next (refuse .eReserved s)

/-- RSVD_START_HI_3: START with `cmd[7:6] = 1` (rule R94). -/
def execRsvdStartHi3 (_lo : BitVec 6) (s : State) : Host.Outcome State Fault Refusal := .next (refuse .eReserved s)

/-- RSVD_START_HI_4: START with `cmd[7] = 1` (rule R94). -/
def execRsvdStartHi4 (_lo : BitVec 7) (s : State) : Host.Outcome State Fault Refusal := .next (refuse .eReserved s)

/-- RSVD_FINISH_ARG_1: FINISH with `ARG = 1` (rule R94). -/
def execRsvdFinishArg1 (s : State) : Host.Outcome State Fault Refusal := .next (refuse .eReserved s)

/-- RSVD_FINISH_ARG_2: FINISH with `ARG` 2 or 3 (rule R94). -/
def execRsvdFinishArg2 (_lo : BitVec 1) (s : State) : Host.Outcome State Fault Refusal := .next (refuse .eReserved s)

/-- RSVD_FINISH_ARG_3: FINISH with `ARG` 4 to 7 (rule R94). -/
def execRsvdFinishArg3 (_lo : BitVec 2) (s : State) : Host.Outcome State Fault Refusal := .next (refuse .eReserved s)

/-- RSVD_FINISH_ARG_4: FINISH with `ARG` 8 to 15 (rule R94). -/
def execRsvdFinishArg4 (_lo : BitVec 3) (s : State) : Host.Outcome State Fault Refusal := .next (refuse .eReserved s)

/-- RSVD_FINISH_ARG_5: FINISH with `ARG` 16 to 31 (rule R94). -/
def execRsvdFinishArg5 (_lo : BitVec 4) (s : State) : Host.Outcome State Fault Refusal := .next (refuse .eReserved s)

/-- RSVD_FINISH_ARG_6: FINISH with `ARG` 32 to 63 (rule R94). -/
def execRsvdFinishArg6 (_lo : BitVec 5) (s : State) : Host.Outcome State Fault Refusal := .next (refuse .eReserved s)

/-- RSVD_FINISH_ARG_7: FINISH with `ARG` 64 to 127 (rule R94). -/
def execRsvdFinishArg7 (_lo : BitVec 6) (s : State) : Host.Outcome State Fault Refusal := .next (refuse .eReserved s)

/-- RSVD_FINISH_ARG_8: FINISH with `ARG` 128 to 255 (rule R94). -/
def execRsvdFinishArg8 (_lo : BitVec 7) (s : State) : Host.Outcome State Fault Refusal := .next (refuse .eReserved s)

end Sys2Proof.Machine
end

