-- ==== Sys2Proof/Machine/Dispatch.lean ====
section
/-! DEFINITION. One arm per constructor of Instr: the meaning of every command word. -/

namespace Sys2Proof.Machine

def exec (i : Instr) (s : State) : Host.Outcome State Fault Refusal :=
  match i with
  | .put c => Sys2Proof.Machine.execPut c s
  | .start d => Sys2Proof.Machine.execStart d s
  | .finish => Sys2Proof.Machine.execFinish s
  | .rsvdOp3 lo => Sys2Proof.Machine.execRsvdOp3 lo s
  | .rsvdStartD0 => Sys2Proof.Machine.execRsvdStartD0 s
  | .rsvdStartD9 => Sys2Proof.Machine.execRsvdStartD9 s
  | .rsvdStartD10to11 lo => Sys2Proof.Machine.execRsvdStartD10to11 lo s
  | .rsvdStartD12to15 lo => Sys2Proof.Machine.execRsvdStartD12to15 lo s
  | .rsvdStartHi1 lo => Sys2Proof.Machine.execRsvdStartHi1 lo s
  | .rsvdStartHi2 lo => Sys2Proof.Machine.execRsvdStartHi2 lo s
  | .rsvdStartHi3 lo => Sys2Proof.Machine.execRsvdStartHi3 lo s
  | .rsvdStartHi4 lo => Sys2Proof.Machine.execRsvdStartHi4 lo s
  | .rsvdFinishArg1 => Sys2Proof.Machine.execRsvdFinishArg1 s
  | .rsvdFinishArg2 lo => Sys2Proof.Machine.execRsvdFinishArg2 lo s
  | .rsvdFinishArg3 lo => Sys2Proof.Machine.execRsvdFinishArg3 lo s
  | .rsvdFinishArg4 lo => Sys2Proof.Machine.execRsvdFinishArg4 lo s
  | .rsvdFinishArg5 lo => Sys2Proof.Machine.execRsvdFinishArg5 lo s
  | .rsvdFinishArg6 lo => Sys2Proof.Machine.execRsvdFinishArg6 lo s
  | .rsvdFinishArg7 lo => Sys2Proof.Machine.execRsvdFinishArg7 lo s
  | .rsvdFinishArg8 lo => Sys2Proof.Machine.execRsvdFinishArg8 lo s

end Sys2Proof.Machine
end

