-- ==== Sys2Proof/Machine/Reset.lean ====
section
/-! DEFINITION. The `RESET` input (70_reset_and_hazards.md rules R170, R171), between commands and in the middle of
one. -/

namespace Sys2Proof.Machine

/-- The effect of `RESET` on LZWC (rules R170, R171): `PHASE = IDLE`, `LAST_ERR = E_NONE`, everything else
unspecified. What the host has offered and been answered and what the sink has accepted is not LZWC's (rule R35). -/
def resetCore (s : State) : State := forgetWorking { s with phase := .idle, lastErr := .eNone }

/-- The sink's answers as a command sees them that `RESET` cuts short after at most `k` accepted bytes: the byte at
which the reset arrives is not accepted. A byte the sink would fail or never answer is where it arrives at the
latest. -/
def cutAnswers : Nat → List SinkAnswer → List SinkAnswer
  | 0, _ => [.fail]
  | k + 1, [] => .ack :: cutAnswers k []
  | k + 1, .ack :: l => .ack :: cutAnswers k l
  | _ + 1, .fail :: _ => [.fail]
  | _ + 1, .silent :: _ => [.fail]

/-- `RESET` in the middle of the command `i`, after at most `k` accepted bytes (rule R170, U12): the bytes accepted
until then stay in the sink, no response is given, and LZWC is reset. The answers to the accepted bytes are used up.
A command the model gives no meaning stays without one. -/
def resetDuring (k : Nat) (i : Instr) (s : State) : Host.Outcome State Fault Refusal :=
  match exec i { s with answers := cutAnswers k s.answers } with
  | .next t =>
    .next (resetCore { s with sink := t.sink, answers := s.answers.drop (t.sink.length - s.sink.length) })
  | .fault _ => .next (resetCore s)
  | .refused r => .refused r

end Sys2Proof.Machine
end

