-- ==== Sys2Proof/Machine/Fetch.lean ====
section
/-! DEFINITION. What takes the place of fetching an instruction: the oldest word on `CMD` (20_memory.md rule R64,
10_state.md rule R36), under the `RESET` input. -/

namespace Sys2Proof.Machine

/-- LZWC with `RESET` not asserted: takes the oldest offered word and runs it to its end; with no word offered it
waits and nothing changes (rules R36, R171, R180). -/
def takeCommand (s : State) : Host.Outcome State Fault Refusal :=
  match s.cmd with
  | [] => .next s
  | w :: ws => exec (decode w) { s with cmd := ws }

/-- LZWC with `RESET` asserted in the middle of a command: the word is lost (rule R170). With no word offered there is
no command to cut short. -/
def cutCommand (k : Nat) (s : State) : Host.Outcome State Fault Refusal :=
  match s.cmd with
  | [] => .next (resetCore s)
  | w :: ws => resetDuring k (decode w) { s with cmd := ws }

/-- One step under the `RESET` input. -/
def stepInput (s : State) : Host.Outcome State Fault Refusal :=
  match s.resetPin with
  | [] => takeCommand s
  | .off :: r => takeCommand { s with resetPin := r }
  | .between :: r => .next (resetCore { s with resetPin := r })
  | .during k :: r => cutCommand k { s with resetPin := r }

/-- The state with one more word at the head of `CMD`, and `RESET` not asserted for one step. -/
def offerWord (w : CmdWord) (s : State) : State := { s with cmd := w :: s.cmd, resetPin := .off :: s.resetPin }

end Sys2Proof.Machine
end

