-- ==== Sys2Proof/Machine/Step.lean ====
section
/-! DEFINITION. One step of LZWC: one command as one atomic operation (40_commands.md rule R90, 00_scope.md rule R6),
or the wait for one, or a reset. -/

namespace Sys2Proof.Machine

/-- One step. -/
def step (s : State) : Host.Outcome State Fault Refusal := stepInput s

/-- The state in which the very next step takes the command word of value `w` (of `nbits` bits), as a host that
offers the word on `CMD` makes it; the words already offered come after it. -/
def State.withFetchWord (s : State) (nbits w : Nat) : State := offerWord (BitVec.ofNat 10 (w % 2 ^ nbits)) s

end Sys2Proof.Machine
end

