-- ==== Sys2Proof/Machine/Script.lean ====
section
/-! DEFINITION. The script notation for command words (30_encoding.md rules R85 and R86): its lines as data and the
words they stand for. -/

namespace Sys2Proof.Machine

/-- One line of a script. -/
inductive ScriptLine where
  /-- `START d` (rule R85). -/
  | start (d : BitVec 4)
  /-- `PUT s` (rule R85). -/
  | put (s : BitVec 8)
  /-- `FINISH` (rule R85). -/
  | finish
  /-- `.word w` (rule R85): a raw word. -/
  | word (w : CmdWord)
  /-- `DATA s0, ..., sk` (rule R86). -/
  | data (syms : List (BitVec 8))
  /-- `REPEAT n, s` (rule R86). -/
  | rep (n : Nat) (s : BitVec 8)
  /-- `RANGE a, b` (rule R86), `a <= b`. -/
  | range (a b : BitVec 8)
  /-- `COMPRESS d: s0, ..., sk` (rule R86). -/
  | compress (d : BitVec 4) (syms : List (BitVec 8))
  deriving DecidableEq, Repr

/-- The words of `PUT s0`, ..., `PUT sk`. -/
def putWords (syms : List (BitVec 8)) : List CmdWord := syms.map (fun s => encode (.put s))

/-- The words of `COMPRESS d: s0, ..., sk`: a whole call (rule R86). -/
def callWords (d : BitVec 4) (syms : List (BitVec 8)) : List CmdWord :=
  encode (.start d) :: putWords syms ++ [encode .finish]

/-- The command words of one line (rules R85, R86). -/
def ScriptLine.words : ScriptLine → List CmdWord
  | .start d => [encode (.start d)]
  | .put s => [encode (.put s)]
  | .finish => [encode .finish]
  | .word w => [w]
  | .data syms => putWords syms
  | .rep n s => putWords (List.replicate n s)
  | .range a b => putWords ((List.range (b.toNat + 1 - a.toNat)).map (fun j => BitVec.ofNat 8 (a.toNat + j)))
  | .compress d syms => callWords d syms

/-- The command words of a script, in order. -/
def scriptWords (lines : List ScriptLine) : List CmdWord := lines.flatMap ScriptLine.words

end Sys2Proof.Machine
end

