-- ==== Sys2Proof/Machine/Yardstick.lean ====
section
/-! DEFINITION. The output stream read back: the bit numbering of 20_memory.md rule R55, the framing grammar of
30_encoding.md rule R79, and the yardstick decoder of 95_test_vectors.md section 1, the "standard GIF LZW decoder" the
round-trip property S1 is measured with. No part of LZWC: nothing of the machine calls it (log entry 22). -/

namespace Sys2Proof.Machine

/-! ### Bits (rule R55) -/

/-- The low `n` bits of a word, bit 0 first. -/
def lowBits {w : Nat} (v : BitVec w) (n : Nat) : List Bool := (List.range n).map v.getLsbD

/-- The bits of a list of data bytes: bit `n` of the stream is bit `n mod 8` of byte `n / 8`. -/
def bytesBits (l : List Byte) : List Bool := l.flatMap (fun b => lowBits b 8)

/-- The number whose bits, bit 0 first, are given. -/
def bitsValue : List Bool → Nat
  | [] => 0
  | b :: l => b.toNat + 2 * bitsValue l

/-! ### Framing (rule R79) -/

/-- The sub-blocks `data` is cut into, each preceded by its length byte, by a block that cuts at `n` bytes
(rule R145). -/
def frame : Nat → List Byte → List Byte
  | 0, _ => []
  | _ + 1, [] => []
  | n + 1, b :: l =>
    let blk := (b :: l).take Config.blkMax
    BitVec.ofNat 8 blk.length :: blk ++ frame n ((b :: l).drop Config.blkMax)

/-- The sub-blocks of a code stream of the given data bytes. -/
def subBlocks (data : List Byte) : List Byte := frame data.length data

/-- Reads sub-blocks up to the zero length byte: the data bytes and what follows the terminator. -/
def unframe : Nat → List Byte → Option (List Byte × List Byte)
  | 0, _ => none
  | _ + 1, [] => none
  | n + 1, len :: l =>
    if len = 0#8 then some ([], l)
    else if l.length < len.toNat then none
    else
      match unframe n (l.drop len.toNat) with
      | some (data, rest) => some (l.take len.toNat ++ data, rest)
      | none => none

/-! ### The decoder (95_test_vectors.md section 1) -/

/-- The decoder between two codes. -/
structure Reader where
  /-- The strings of the codes 0, 1, ...; the two control codes hold the empty string. -/
  table : List (List Byte)
  /-- `w`: the width of the next code. -/
  width : Nat
  /-- The string of the code before, if there is one since the last clear code. -/
  prev : Option (List Byte)
  /-- The symbols put out so far. -/
  out : List Byte
  deriving DecidableEq, Repr

/-- The decoder's table after a clear code. -/
def freshTable (n : Nat) : List (List Byte) := (List.range (2 ^ n)).map (fun b => [BitVec.ofNat 8 b]) ++ [[], []]

/-- The decoder after a clear code. -/
def freshReader (n : Nat) (out : List Byte) : Reader :=
  { table := freshTable n, width := n + 1, prev := none, out := out }

/-- The string of a code read after the code of string `p`. -/
def readerEntry (r : Reader) (p : List Byte) (code : Nat) : Option (List Byte) :=
  if code < r.table.length then r.table[code]?
  else if code = r.table.length then some (p ++ p.take 1)
  else none

/-- The table step after the string `e` has followed the string `p`. -/
def readerGrow (r : Reader) (p e : List Byte) : Reader :=
  if r.table.length < Config.maxCodes then
    let table := r.table ++ [p ++ e.take 1]
    { r with
      table := table
      width := if table.length = 2 ^ r.width ∧ r.width < Config.maxWidth then r.width + 1 else r.width }
  else r

/-- One data code. -/
def readerStep (r : Reader) (code : Nat) : Option Reader :=
  match r.prev with
  | none => (r.table[code]?).map fun e => { r with out := r.out ++ e, prev := some e }
  | some p =>
    (readerEntry r p code).map fun e => { readerGrow r p e with out := r.out ++ e, prev := some e }

/-- The decoder's loop, for at most `k` codes: the symbols put out and the bits left after the end code. -/
def readCodes (n : Nat) : Nat → Reader → List Bool → Option (List Byte × List Bool)
  | 0, _, _ => none
  | k + 1, r, bits =>
    if bits.length < r.width then none
    else
      let code := bitsValue (bits.take r.width)
      let rest := bits.drop r.width
      if code = 2 ^ n then readCodes n k (freshReader n r.out) rest
      else if code = 2 ^ n + 1 then some (r.out, rest)
      else
        match readerStep r code with
        | none => none
        | some r1 => readCodes n k r1 rest

/-- The whole "Pixel data" element read back: the initial code size, the sub-blocks, nothing after the terminator, and
after the end code less than one byte of padding. -/
def decodeStream : List Byte → Option (List Byte)
  | [] => none
  | n :: l =>
    match unframe (l.length + 1) l with
    | some (data, []) =>
      match readCodes n.toNat ((bytesBits data).length + 1) (freshReader n.toNat []) (bytesBits data) with
      | some (out, rest) => if rest.length < 8 then some out else none
      | none => none
    | _ => none

end Sys2Proof.Machine
end

