-- ==== Sys2Proof/Safety.lean ====
section
/-! DEFINITION. What claims about LZWC are stated in: an open call, the invariants of 10_state.md rule R41, the
dictionary as a map (41_dictionary.md rule R110), what the sink is assumed to do, the bits waiting inside the block,
and when two states cannot be told apart by the rest of a call (70_reset_and_hazards.md rule R173). -/

namespace Sys2Proof.Machine

/-- A call is open: `PHASE` is `EMPTY` or `ACTIVE`. -/
def callOpen (s : State) : Prop := s.phase = .empty ∨ s.phase = .active

/-- The tables are in canonical form, within their bounds (20_memory.md rules R50, R51). -/
def memoryWf (s : State) : Bool :=
  Memory.wf Config.hsize s.hkey && Memory.wf Config.hsize s.hcode && Memory.wf Config.blkMax s.blkBuf

/-- The sink accepts each of the next `n` bytes offered. -/
def sinkAccepts (n : Nat) (s : State) : Prop := ∀ a ∈ s.answers.take n, a = SinkAnswer.ack

/-- The sink answers every byte, with `ACK` or `FAIL`: the fairness assumption of rule R180. -/
def sinkResponds (s : State) : Prop := ∀ a ∈ s.answers, a ≠ SinkAnswer.silent

/-- The invariants of rule R41, item by item, for a state between commands in which a call is open. -/
structure BetweenCommands (s : State) : Prop where
  /-- Item 1: `1 <= DEPTH <= 8`. -/
  depth_legal : legalDepth s.depth = true
  /-- Item 1: `INIT_WIDTH <= CODE_WIDTH`. -/
  width_low : initWidth s.depth ≤ s.codeWidth.toNat
  /-- Item 1: `CODE_WIDTH <= 12`. -/
  width_high : s.codeWidth.toNat ≤ 12
  /-- Item 2: `FIRST_FREE <= NEXT_CODE`. -/
  next_low : firstFree s.depth ≤ s.nextCode.toNat
  /-- Item 2: `NEXT_CODE <= 4096`. -/
  next_high : s.nextCode.toNat ≤ 4096
  /-- Item 3: `NEXT_CODE <= (1 << CODE_WIDTH)`. -/
  next_fits : s.nextCode.toNat ≤ 2 ^ s.codeWidth.toNat
  /-- Item 4: the number of slots with `V = 1` is `NEXT_CODE - FIRST_FREE`. -/
  entry_count : s.hkey.length + firstFree s.depth = s.nextCode.toNat
  /-- Item 4: the `HCODE` of a valid slot is one of the codes `FIRST_FREE` to `NEXT_CODE - 1`; its prefix is below it
  and is not a control code. -/
  entry_code : ∀ slot k, Memory.read s.hkey slot = some k → ∃ c, Memory.read s.hcode slot = some c ∧
    firstFree s.depth ≤ c.toNat ∧ c.toNat < s.nextCode.toNat ∧ (keyPrefix k).toNat < c.toNat ∧
    keyPrefix k ≠ clearWord s.depth ∧ keyPrefix k ≠ eofWord s.depth
  /-- Item 4: each of those codes stands in exactly one valid slot. -/
  code_once : ∀ n, firstFree s.depth ≤ n → n < s.nextCode.toNat →
    ∃! slot, (Memory.read s.hkey slot).isSome = true ∧ (hcodeAt s slot).toNat = n
  /-- Item 4: no two valid slots hold the same `KEY`. -/
  key_once : ∀ i j k, Memory.read s.hkey i = some k → Memory.read s.hkey j = some k → i = j
  /-- Item 5: `ACC_BITS <= 7`. -/
  acc_bits : s.accBits.toNat ≤ 7
  /-- Item 5: `ACC < (1 << ACC_BITS)`. -/
  acc_low : s.acc.toNat < 2 ^ s.accBits.toNat
  /-- Item 6: `BLK_COUNT <= 253`. -/
  blk_count : s.blkCount.toNat ≤ 253
  /-- Item 7: in `ACTIVE`, `PREV_CODE` is assigned and is not a control code. -/
  prev_code : s.phase = .active →
    s.prevCode.toNat < s.nextCode.toNat ∧ s.prevCode ≠ clearWord s.depth ∧ s.prevCode ≠ eofWord s.depth

/-- Entries 0 to `BLK_COUNT - 1` of `BLK_BUF` hold data bytes (rule R32). -/
def blkWritten (s : State) : Prop := ∀ j, j < s.blkCount.toNat → (Memory.read s.blkBuf j).isSome = true

/-- Every stored pair is found by a search for it (rules R115, R119). -/
def findable (s : State) : Prop :=
  ∀ slot k, Memory.read s.hkey slot = some k → lookup s.hkey (keyPrefix k) (keyByte k) = .hit slot

/-- The invariant of the machine: canonical tables always, and in an open call rule R41 with what it needs to be kept
(rules R32, R119). -/
def Inv (s : State) : Prop :=
  memoryWf s = true ∧ (callOpen s → BetweenCommands s ∧ blkWritten s ∧ findable s)

/-- `D(prefix, byte) = k` (rule R110): some slot has `HKEY[i] = {1, Key(prefix, byte)}` and `HCODE[i] = k`. -/
def dictEntry (s : State) (p : Code) (b : BitVec 8) (k : Code) : Prop :=
  ∃ slot, Memory.read s.hkey slot = some (keyOf p b) ∧ hcodeAt s slot = k

/-- The bits of the code stream produced and not yet in the sink (rule R40): the bytes in `BLK_BUF`, then the bits in
`ACC`, in the order of the stream (rule R55). -/
def waitingBits (s : State) : List Bool := bytesBits (blkBytes s) ++ lowBits s.acc s.accBits.toNat

/-- From `s` to `t` the bits `bits` have been added to the code stream (rules R55, R126, R127, R141): the sink has got
whole sub-blocks of 254 data bytes, each after its length byte, and the rest waits. -/
def Packed (s t : State) (bits : List Bool) : Prop :=
  ∃ blocks : List (List Byte), (∀ k ∈ blocks, k.length = 254) ∧
    t.sink = s.sink ++ blocks.flatMap (fun k => 254#8 :: k) ∧
    bytesBits blocks.flatten ++ waitingBits t = waitingBits s ++ bits

/-- The working registers are in the ranges of rule R41 items 1, 5 and 6. -/
def packerReady (s : State) : Bool :=
  legalDepth s.depth && decide (initWidth s.depth ≤ s.codeWidth.toNat) && decide (s.codeWidth.toNat ≤ 12) &&
    decide (s.accBits.toNat ≤ 7) && decide (s.acc.toNat < 2 ^ s.accBits.toNat) && decide (s.blkCount.toNat ≤ 253)

/-- `PREV_CODE` is a data code of the current width (rule R41 item 7, rule R132). -/
def prevReady (s : State) : Bool :=
  decide (s.prevCode.toNat < 2 ^ s.codeWidth.toNat) && decide (s.prevCode ≠ clearWord s.depth) &&
    decide (s.prevCode ≠ eofWord s.depth)

/-- The width after a code other than `CLEAR_CODE` (rules R129, R130). -/
def grownWidth (s : State) : Nat :=
  if 2 ^ s.codeWidth.toNat - 1 < s.nextCode.toNat ∧ s.codeWidth.toNat < 12 then s.codeWidth.toNat + 1
  else s.codeWidth.toNat

/-- Entry `j` of `BLK_BUF` is one of the `n` entries the next `n` data bytes are stored in (rules R32, R141): they are
filled from `BLK_COUNT` on, and from 0 again after each sub-block of 254. -/
def storedIn (s : State) (n j : Nat) : Prop := ∃ k, k < n ∧ j = (s.blkCount.toNat + k) % 254

/-- Two states agree on all that the rest of a call can read: `PHASE`, `LAST_ERR`, the sink's coming answers, and in
an open call every register and table entry that a rule reads (U5 says which are not read). -/
def SameCall (s u : State) : Prop :=
  s.phase = u.phase ∧ s.lastErr = u.lastErr ∧ s.answers = u.answers ∧
  (callOpen s →
    s.depth = u.depth ∧ s.codeWidth = u.codeWidth ∧ (s.phase = .active → s.prevCode = u.prevCode) ∧
    s.nextCode = u.nextCode ∧ s.acc = u.acc ∧ s.accBits = u.accBits ∧ s.blkCount = u.blkCount ∧
    (∀ j, j < s.blkCount.toNat → blkByte s j = blkByte u j) ∧
    s.hkey = u.hkey ∧ (∀ slot, (Memory.read s.hkey slot).isSome = true → hcodeAt s slot = hcodeAt u slot))

/-- Two outcomes that a host and a sink cannot tell apart: both next, with the same bytes written and the same
responses given, in states that agree on the rest of the call; or both the same stop. -/
def sameEffect (s u : State) : Host.Outcome State Fault Refusal → Host.Outcome State Fault Refusal → Prop
  | .next t, .next v =>
    SameCall t v ∧ ∃ bytes rsps, t.sink = s.sink ++ bytes ∧ v.sink = u.sink ++ bytes ∧
      t.rsp = s.rsp ++ rsps ∧ v.rsp = u.rsp ++ rsps
  | .fault r, .fault r' => r = r'
  | .refused r, .refused r' => r = r'
  | _, _ => False

end Sys2Proof.Machine
end

