-- ==== Sys2Proof/Certificates/Slice0/Obligations.lean ====
section
/-! DEFINITION. What is claimed of the model, stated and not proved here. Each statement's docstring says which rule of
spec/ it formalises. -/

open Sys2Proof Sys2Proof.Machine

/-! ### Encoding -/

/-- Rules R72 to R75: no bit of an encoding is dropped. Every instruction the encoding admits, with every operand, is
read back from its word. -/
def Obligations.DecodeOfEncode : Prop := ∀ i : Instr, i.wellFormed = true → decode (encode i) = i

/-- Rules R70, R75, R87: the decoder is total, reads only instructions the encoding admits, and is injective. -/
def Obligations.EncodeOfDecode : Prop := ∀ w : CmdWord, (decode w).wellFormed = true ∧ encode (decode w) = w

/-- Rule R87: a word has the fixed bits of exactly one row of the opcode table, except the eight words 0x100 and 0x109
to 0x10F, which also have START's; there the reserved row wins. -/
def Obligations.EveryWordMatchesItsRow : Prop :=
  ∀ w : CmdWord,
    (w ∈ [0x100#10, 0x109#10, 0x10A#10, 0x10B#10, 0x10C#10, 0x10D#10, 0x10E#10, 0x10F#10] ∧
      (decode w).isReserved = true ∧ rowsOf w = [1, (decode w).row]) ∨
    (w ∉ [0x100#10, 0x109#10, 0x10A#10, 0x10B#10, 0x10C#10, 0x10D#10, 0x10E#10, 0x10F#10] ∧
      rowsOf w = [(decode w).row])

/-- Rules R72 to R75: words written out from the encodings decode to what they spell. -/
def Obligations.SpecWordsDecode : Prop :=
  decode 0b0001000001#10 = .put 0x41#8 ∧ decode 0b0011111111#10 = .put 0xFF#8 ∧
  decode 0b0100001000#10 = .start 8#4 ∧ decode 0b0100000001#10 = .start 1#4 ∧
  decode 0b1000000000#10 = .finish ∧ decode 0b1100000000#10 = .rsvdOp3 0x00#8 ∧
  decode 0b0100000000#10 = .rsvdStartD0 ∧ decode 0b0100001001#10 = .rsvdStartD9 ∧
  decode 0b0110000000#10 = .rsvdStartHi4 0#7 ∧ decode 0b1000000001#10 = .rsvdFinishArg1

/-! ### Steps, waiting and reset -/

/-- Rules R36, R64, R90: a step takes the oldest offered word and runs what it decodes to, in the state without that
word; the `RESET` input, not asserted, is used up for one step. -/
def Obligations.StepRunsDecodedCommand : Prop :=
  ∀ (s : State) (w : CmdWord) (ws : List CmdWord), s.cmd = w :: ws →
    (s.resetPin = [] → step s = exec (decode w) { s with cmd := ws }) ∧
    (∀ r, s.resetPin = .off :: r → step s = exec (decode w) { s with cmd := ws, resetPin := r })

/-- Rules R171, R180: with no word offered LZWC waits and nothing changes. -/
def Obligations.StepWaitsForAWord : Prop :=
  ∀ s : State, s.cmd = [] →
    (s.resetPin = [] → step s = .next s) ∧ (∀ r, s.resetPin = .off :: r → step s = .next { s with resetPin := r })

/-- The host's way to run one word (log entry 18): the very next step runs exactly that instruction, in the state as it
was. -/
def Obligations.FetchWordRunsNext : Prop :=
  ∀ (s : State) (w : CmdWord), step (s.withFetchWord 16 w.toNat) = exec (decode w) s

/-- Rules R42, R171: after reset `PHASE = IDLE`, `LAST_ERR = E_NONE`, `STATUS = 0b00000`, channels empty. -/
def Obligations.ResetState : Prop :=
  State.reset.phase = .idle ∧ State.reset.lastErr = .eNone ∧ statusPort State.reset = 0b00000#5 ∧
    State.reset.cmd = [] ∧ State.reset.rsp = [] ∧ State.reset.sink = []

/-- Rules R170, R171: `RESET` between commands gives no response, takes no word and leaves the sink's bytes. That
it keeps the words offered and the responses given is the model's reading of "channels empty" (log entry 7). -/
def Obligations.ResetBetweenCommands : Prop :=
  ∀ (s : State) (r : List ResetDraw), s.resetPin = .between :: r →
    ∃ t, step s = .next t ∧ t.phase = .idle ∧ t.lastErr = .eNone ∧ t.sink = s.sink ∧ t.rsp = s.rsp ∧
      t.cmd = s.cmd ∧ t.answers = s.answers ∧ t.resetPin = r

/-- Rule R170, U12: `RESET` in the middle of a command. The word is lost, no response is given, the block is reset, and
the bytes left in the sink are a prefix of those the command would have written. Where the cut can fall is the model's
choice of form (log entry 6); that the other words offered and the responses given are kept is its reading of "channels
empty" in rule R171 (log entry 7). -/
def Obligations.ResetDuringCommand : Prop :=
  ∀ (s : State) (w : CmdWord) (ws : List CmdWord) (k : Nat) (r : List ResetDraw),
    s.cmd = w :: ws → s.resetPin = .during k :: r → (∀ q, step s ≠ .refused q) →
    ∃ t bs, step s = .next t ∧ t.phase = .idle ∧ t.lastErr = .eNone ∧ t.rsp = s.rsp ∧ t.cmd = ws ∧ t.resetPin = r ∧
      t.sink = s.sink ++ bs ∧ bs.length ≤ k ∧ t.answers = s.answers.drop bs.length ∧
      ∀ u, exec (decode w) { s with cmd := ws, resetPin := r, answers := [] } = .next u → t.sink <+: u.sink

/-! ### Refusals -/

/-- Rules R94, R152: a reserved word is refused in every phase with `E_RESERVED`; `LAST_ERR` and the response change
and nothing else does. -/
def Obligations.ReservedWordRefused : Prop :=
  ∀ (i : Instr) (s : State), i.isReserved = true →
    exec i s = .next { s with lastErr := .eReserved, rsp := s.rsp ++ [0x6#4] }

/-- Rule R153: PUT and FINISH while no call is open are refused with `E_SEQ` and no other effect; START is never a
sequencing error. -/
def Obligations.OutOfSequenceRefused : Prop :=
  (∀ s : State, s.phase = .idle →
    (∀ c, exec (.put c) s = .next { s with lastErr := .eSeq, rsp := s.rsp ++ [0x2#4] }) ∧
    exec .finish s = .next { s with lastErr := .eSeq, rsp := s.rsp ++ [0x2#4] }) ∧
  (∀ (d : BitVec 4) (s t : State), exec (.start d) s = .next t → t.rsp ≠ s.rsp ++ [0x2#4])

/-- Rule R155: in a failed call PUT is refused with `E_SINK` and no other effect, and FINISH is refused with `E_SINK`
and closes the call; neither writes anything. -/
def Obligations.FailedCallRefused : Prop :=
  ∀ s : State, s.phase = .failed →
    (∀ c, exec (.put c) s = .next { s with lastErr := .eSink, rsp := s.rsp ++ [0x4#4] }) ∧
    exec .finish s = .next { s with phase := .idle, lastErr := .eSink, rsp := s.rsp ++ [0x4#4] }

/-- Rules R91, R75: START with a depth of 0 or 9 to 15 is refused before anything is written. -/
def Obligations.StartIllegalDepthRefused : Prop :=
  ∀ (d : BitVec 4) (s : State), (d = 0#4 ∨ 9 ≤ d.toNat) →
    exec (.start d) s = .next { s with lastErr := .eReserved, rsp := s.rsp ++ [0x6#4] }

/-- Rule R175, U1: a PUT whose symbol is not below `CLEAR_CODE`, in an open call, has no meaning. -/
def Obligations.SymbolOutOfRangeRefused : Prop :=
  ∀ (c : BitVec 8) (s : State), callOpen s → 2 ^ max 2 s.depth.toNat ≤ c.toNat →
    exec (.put c) s = .refused .symbolNotBelowClearCode

/-! ### START -/

/-- Rules R43, R91: the state a successful START leaves, from any state. That it also keeps `HCODE` and the other bytes
of `BLK_BUF`, which rule R43 leaves unspecified, is the model's reading (log entry 23). -/
def Obligations.StartOpensCall : Prop :=
  ∀ (d : BitVec 4) (s : State), 1 ≤ d.toNat → d.toNat ≤ 8 → sinkAccepts 1 s →
    ∃ t, exec (.start d) s = .next t ∧ t.phase = .empty ∧ t.lastErr = .eNone ∧ t.depth = d ∧
      t.codeWidth.toNat = max 2 d.toNat + 1 ∧ t.nextCode.toNat = 2 ^ max 2 d.toNat + 2 ∧
      t.accBits.toNat = (max 2 d.toNat + 1) % 8 ∧
      t.acc.toNat = 2 ^ max 2 d.toNat / 2 ^ (max 2 d.toNat + 1 - t.accBits.toNat) ∧
      t.blkCount.toNat = (if 7 ≤ d.toNat then 1 else 0) ∧
      (d = 8#4 → blkByte t 0 = 0x00#8) ∧ (d = 7#4 → blkByte t 0 = 0x80#8) ∧
      (∀ slot, Memory.read t.hkey slot = none) ∧
      t.prevCode = s.prevCode ∧ t.hcode = s.hcode ∧
      (∀ j, (d.toNat < 7 ∨ j ≠ 0) → Memory.read t.blkBuf j = Memory.read s.blkBuf j) ∧
      t.sink = s.sink ++ [BitVec.ofNat 8 (max 2 d.toNat)] ∧ t.rsp = s.rsp ++ [0x1#4] ∧
      t.answers = s.answers.drop 1 ∧ t.cmd = s.cmd ∧ t.resetPin = s.resetPin

/-- Rules R91, R154: when the sink fails the initial-code-size byte, the byte is not in the sink (the spec's model of
the sink, log entry 27) and the call has failed. -/
def Obligations.StartSinkFailure : Prop :=
  ∀ (d : BitVec 4) (s : State) (r : List SinkAnswer), 1 ≤ d.toNat → d.toNat ≤ 8 → s.answers = .fail :: r →
    ∃ t, exec (.start d) s = .next t ∧ t.phase = .failed ∧ t.lastErr = .eSink ∧ t.rsp = s.rsp ++ [0x4#4] ∧
      t.sink = s.sink ∧ t.answers = r ∧ t.cmd = s.cmd

/-- Rule R180, U9: a sink that never answers the first byte leaves START hanging. -/
def Obligations.SilentSinkHangsStart : Prop :=
  ∀ (d : BitVec 4) (s : State) (r : List SinkAnswer), 1 ≤ d.toNat → d.toNat ≤ 8 → s.answers = .silent :: r →
    exec (.start d) s = .fault .sinkNeverAnswers

/-! ### PUT -/

/-- Rule R92: the first symbol of a call starts the first string, with no output and nothing else changed. -/
def Obligations.PutFirstSymbol : Prop :=
  ∀ (c : BitVec 8) (s : State), s.phase = .empty → c.toNat < 2 ^ max 2 s.depth.toNat →
    exec (.put c) s = .next { s with prevCode := c.setWidth 12, phase := .active, rsp := s.rsp ++ [0x1#4] }

/-- Rule R92: a pair that is coded extends the match, with no output and nothing else changed. -/
def Obligations.PutHitExtendsMatch : Prop :=
  ∀ (c : BitVec 8) (s : State) (slot : Nat), s.phase = .active → c.toNat < 2 ^ max 2 s.depth.toNat →
    lookup s.hkey s.prevCode c = .hit slot →
    exec (.put c) s = .next { s with prevCode := hcodeAt s slot, rsp := s.rsp ++ [0x1#4] }

/-- Rules R92, R115, R129: a pair that is not coded, with room in the code space. The prefix code goes into the stream
with `CODE_WIDTH` bits, the width is tested with the old `NEXT_CODE`, the pair gets the next code in the slot the
search stopped at, the new string starts; the frame is the rest. -/
def Obligations.PutMissInserts : Prop :=
  ∀ (c : BitVec 8) (s : State) (slot : Nat), s.phase = .active → c.toNat < 2 ^ max 2 s.depth.toNat →
    packerReady s = true → prevReady s = true → sinkAccepts 255 s →
    lookup s.hkey s.prevCode c = .miss slot → s.nextCode.toNat < 4096 →
    ∃ t, exec (.put c) s = .next t ∧ Packed s t (lowBits s.prevCode s.codeWidth.toNat) ∧
      t.codeWidth.toNat = grownWidth s ∧ t.prevCode = c.setWidth 12 ∧ t.nextCode.toNat = s.nextCode.toNat + 1 ∧
      Memory.read t.hkey slot = some (keyOf s.prevCode c) ∧
      (∀ j, j ≠ slot → Memory.read t.hkey j = Memory.read s.hkey j) ∧
      Memory.read t.hcode slot = some (BitVec.ofNat 12 s.nextCode.toNat) ∧
      (∀ j, j ≠ slot → Memory.read t.hcode j = Memory.read s.hcode j) ∧
      (∀ j, ¬ storedIn s ((s.accBits.toNat + s.codeWidth.toNat) / 8) j →
        Memory.read t.blkBuf j = Memory.read s.blkBuf j) ∧
      t.phase = .active ∧ t.depth = s.depth ∧ t.lastErr = s.lastErr ∧ t.rsp = s.rsp ++ [0x1#4] ∧ t.cmd = s.cmd ∧
      t.resetPin = s.resetPin

/-- Rules R92, R117, R128: a pair that is not coded, with the code space exhausted. The prefix code and `CLEAR_CODE` go
into the stream with 12 bits each, the dictionary is emptied, the code numbers and the width start again, the pair is
dropped. -/
def Obligations.PutMissClearsWhenExhausted : Prop :=
  ∀ (c : BitVec 8) (s : State) (slot : Nat), s.phase = .active → c.toNat < 2 ^ max 2 s.depth.toNat →
    packerReady s = true → prevReady s = true → sinkAccepts 255 s → s.codeWidth = 12#4 →
    lookup s.hkey s.prevCode c = .miss slot → s.nextCode.toNat = 4096 →
    ∃ t, exec (.put c) s = .next t ∧ Packed s t (lowBits s.prevCode 12 ++ lowBits (clearWord s.depth) 12) ∧
      t.codeWidth.toNat = initWidth s.depth ∧ t.prevCode = c.setWidth 12 ∧ t.nextCode.toNat = firstFree s.depth ∧
      (∀ j, Memory.read t.hkey j = none) ∧ t.hcode = s.hcode ∧
      (∀ j, ¬ storedIn s ((s.accBits.toNat + 24) / 8) j → Memory.read t.blkBuf j = Memory.read s.blkBuf j) ∧
      t.phase = .active ∧ t.depth = s.depth ∧ t.lastErr = s.lastErr ∧ t.rsp = s.rsp ++ [0x1#4] ∧ t.cmd = s.cmd ∧
      t.resetPin = s.resetPin

/-- Rule R96: one PUT writes nothing or exactly one full sub-block of 255 bytes. -/
def Obligations.PutWritesZeroOr255 : Prop :=
  ∀ (c : BitVec 8) (s t : State), Inv s → exec (.put c) s = .next t → t.phase ≠ .failed →
    t.sink = s.sink ∨ ∃ blk : List Byte, blk.length = 254 ∧ t.sink = s.sink ++ 254#8 :: blk

/-! ### FINISH -/

/-- Rules R93, R131, R143, R145: FINISH puts the pending prefix code and the end code into the stream, pads the last
byte with zeros, writes everything that waited as sub-blocks and then the terminator, and closes the call; the tables
and the other registers keep what they held (rule R93, decision D31, where U6 allows any value: log entry 21). -/
def Obligations.FinishCompletesStream : Prop :=
  ∀ s : State, callOpen s → packerReady s = true → (s.phase = .active → prevReady s = true) → sinkAccepts 260 s →
    ∃ t data pad, exec .finish s = .next t ∧ t.sink = s.sink ++ subBlocks data ++ [0x00#8] ∧ pad < 8 ∧
      bytesBits data = waitingBits s ++
        (if s.phase = .active then
          lowBits s.prevCode s.codeWidth.toNat ++ lowBits (eofWord s.depth) (grownWidth s)
        else lowBits (eofWord s.depth) s.codeWidth.toNat) ++ List.replicate pad false ∧
      t.phase = .idle ∧ t.acc = 0#19 ∧ t.accBits = 0#5 ∧ t.blkCount = 0#8 ∧ t.rsp = s.rsp ++ [0x1#4] ∧
      t.depth = s.depth ∧ t.prevCode = s.prevCode ∧ t.nextCode = s.nextCode ∧ t.hkey = s.hkey ∧ t.hcode = s.hcode ∧
      (∀ j, ¬ storedIn s (data.length - s.blkCount.toNat) j → Memory.read t.blkBuf j = Memory.read s.blkBuf j) ∧
      t.lastErr = s.lastErr ∧ t.cmd = s.cmd ∧ t.resetPin = s.resetPin

/-- Rule R96: a FINISH that runs to its end writes at least 3 and at most 260 bytes. -/
def Obligations.FinishWritesThreeTo260 : Prop :=
  ∀ s t : State, callOpen s → Inv s → exec .finish s = .next t → t.phase = .idle →
    ∃ bytes : List Byte, t.sink = s.sink ++ bytes ∧ 3 ≤ bytes.length ∧ bytes.length ≤ 260

/-! ### The sink failure -/

/-- Rule R154: a command the sink fails ends in `FAILED` with `E_SINK`; the sink holds exactly the bytes offered before
the failed one, in order (the spec's model of the sink, log entry 27). -/
def Obligations.SinkFailureEndsCommand : Prop :=
  ∀ (i : Instr) (s t : State), (s.phase ≠ .failed ∨ ∃ d, i = .start d ∧ legalDepth d = true) →
    exec i s = .next t → t.phase = .failed →
    t.lastErr = .eSink ∧ t.rsp = s.rsp ++ [0x4#4] ∧ t.cmd = s.cmd ∧ t.resetPin = s.resetPin ∧
      ∃ bs : List Byte, t.sink = s.sink ++ bs ∧
        s.answers = List.replicate bs.length .ack ++ .fail :: t.answers

/-- Rules R54, R140, R154, U8: the sink's answers decide only how far a command gets. What it has written is a prefix of
what it writes to a sink that accepts everything: the whole of it if the two responses agree, less than the whole of it
and in `FAILED` if they do not. -/
def Obligations.SinkAnswersOnlyCutShort : Prop :=
  ∀ (i : Instr) (s t u : State), exec i s = .next t → exec i { s with answers := [] } = .next u →
    t.sink <+: u.sink ∧ (t.rsp = u.rsp → t.sink = u.sink) ∧ (t.rsp ≠ u.rsp → t.sink ≠ u.sink ∧ t.phase = .failed)

/-- Rules R150, R180, C7: from a state that meets the invariant, before a sink that answers every byte, every command
ends and is answered; only a symbol out of range has no meaning. -/
def Obligations.EveryCommandIsAnswered : Prop :=
  ∀ (i : Instr) (s : State), Inv s → sinkResponds s →
    (∀ c, i = .put c → callOpen s → symbolLegal s.depth c = true) → ∃ t, exec i s = .next t

/-! ### Whole-machine rules -/

/-- Rules R37, R76, R77: every command that ends gives exactly one response, one of the four words. -/
def Obligations.OneResponsePerCommand : Prop :=
  ∀ (i : Instr) (s t : State), exec i s = .next t →
    ∃ w : RspWord, w ∈ [0x1#4, 0x2#4, 0x4#4, 0x6#4] ∧ t.rsp = s.rsp ++ [w]

/-- Rule R29: `LAST_ERR` is the error code of the most recent failed command; a success leaves it alone, but for START,
which clears it. -/
def Obligations.LastErrIsSticky : Prop :=
  ∀ (i : Instr) (s t : State), exec i s = .next t →
    (t.rsp = s.rsp ++ [0x1#4] → t.lastErr = (match i with | .start _ => .eNone | _ => s.lastErr)) ∧
    (∀ e : ErrCode, e ≠ .eNone → t.rsp = s.rsp ++ [responseWord e] → t.lastErr = e)

/-- Rule R95: the phase after a command, as the phase table gives it. -/
def Obligations.PhaseTable : Prop :=
  ∀ (s t : State),
    (∀ d, legalDepth d = true → exec (.start d) s = .next t → t.phase = .empty ∨ t.phase = .failed) ∧
    (∀ c, exec (.put c) s = .next t →
      (s.phase = .idle ∧ t.phase = .idle) ∨ (s.phase = .empty ∧ t.phase = .active) ∨
      (s.phase = .active ∧ (t.phase = .active ∨ t.phase = .failed)) ∨ (s.phase = .failed ∧ t.phase = .failed)) ∧
    (exec .finish s = .next t →
      (s.phase = .idle ∧ t.phase = .idle) ∨ (callOpen s ∧ (t.phase = .idle ∨ t.phase = .failed)) ∨
      (s.phase = .failed ∧ t.phase = .idle)) ∧
    (∀ i, i.isReserved = true → exec i s = .next t → t.phase = s.phase)

/-- Rules R54, R60, R170: what the sink has accepted is never taken back, whatever the step. Rule R37: nor is a response
by a command; that `RESET` keeps the responses already given as well is the model's reading of "channels empty" in rule
R171 (log entry 7). -/
def Obligations.OutputIsAppendOnly : Prop :=
  ∀ s t : State, step s = .next t → s.sink <+: t.sink ∧ s.rsp <+: t.rsp

/-- Rule R22: no command but START writes `DEPTH` (a sink failure leaves it unspecified). -/
def Obligations.DepthConstantInCall : Prop :=
  ∀ (i : Instr) (s t : State), (∀ d, i ≠ .start d) → exec i s = .next t → t.phase ≠ .failed → t.depth = s.depth

/-- Rules R21, R33, R39: the `STATUS` port shows `PHASE` in its low two bits and `LAST_ERR` above them. -/
def Obligations.StatusShowsPhaseAndError : Prop :=
  ∀ s : State, (statusPort s).extractLsb' 0 2 = s.phase.bits ∧ (statusPort s).extractLsb' 2 3 = s.lastErr.bits

/-! ### The dictionary -/

/-- Rule R111: the stored key is the byte above the prefix, and no two pairs share one. -/
def Obligations.KeyIsInjective : Prop :=
  (∀ (p : Code) (b : BitVec 8), (keyOf p b).toNat = b.toNat * 4096 + p.toNat) ∧
  (∀ (p q : Code) (b c : BitVec 8), keyOf p b = keyOf q c → p = q ∧ b = c)

/-- Rule R112: the first slot looked at is `(byte << 4) XOR prefix`, at most 4095 (the default of an open parameter,
log entry 12). -/
def Obligations.HashIndexIsFirstSlot : Prop :=
  ∀ (p : Code) (b : BitVec 8), hashIndex p b = (b.toNat * 16) ^^^ p.toNat ∧ hashIndex p b ≤ 4095

/-- Rule R113: the probe step. -/
def Obligations.ProbeStepIsNeverZero : Prop :=
  ∀ h : Nat, h ≤ 5002 →
    (h = 0 → probeStep h = 1) ∧ (h ≠ 0 → probeStep h = 5003 - h) ∧ 1 ≤ probeStep h ∧ probeStep h ≤ 5002 ∧
      ¬ 5003 ∣ probeStep h

/-- Rule R118: with fewer than 5003 valid slots every search ends, in a slot 0 to 5002 (rule R51). -/
def Obligations.LookupEnds : Prop :=
  ∀ (m : Memory 20) (p : Code) (b : BitVec 8), Memory.wf 5003 m = true → m.length < 5003 →
    ∃ slot, slot < 5003 ∧ (lookup m p b = .hit slot ∨ lookup m p b = .miss slot)

/-- Rules R110, R119: in an open call a search finds exactly the pairs of the dictionary, with their codes. -/
def Obligations.LookupFindsExactlyTheDictionary : Prop :=
  ∀ s : State, Inv s → callOpen s → ∀ (p : Code) (b : BitVec 8) (k : Code),
    dictEntry s p b k ↔ ∃ slot, lookup s.hkey p b = .hit slot ∧ hcodeAt s slot = k

/-- Rule R115: an insertion where the search stopped gives the pair the next code, and later searches find it and all
that they found before. -/
def Obligations.InsertThenLookup : Prop :=
  ∀ (s : State) (p : Code) (b : BitVec 8) (slot : Nat), lookup s.hkey p b = .miss slot → s.nextCode.toNat < 4096 →
    lookup (insertEntry slot p b s).hkey p b = .hit slot ∧
      (hcodeAt (insertEntry slot p b s) slot).toNat = s.nextCode.toNat ∧
      (insertEntry slot p b s).nextCode.toNat = s.nextCode.toNat + 1 ∧
      (∀ (q : Code) (c : BitVec 8) (j : Nat), lookup s.hkey q c = .hit j →
        lookup (insertEntry slot p b s).hkey q c = .hit j ∧ hcodeAt (insertEntry slot p b s) j = hcodeAt s j)

/-- Rule R116: after the tables are cleared every `V` is 0 and every search misses at its first slot; `HCODE`,
`NEXT_CODE`, `CODE_WIDTH` and all the rest are not touched. -/
def Obligations.ClearTableEmptiesDictionary : Prop :=
  ∀ (s : State) (p : Code) (b : BitVec 8),
    lookup (clearTable s).hkey p b = .miss (hashIndex p b) ∧ (∀ slot, Memory.read (clearTable s).hkey slot = none) ∧
      clearTable s = { s with hkey := (clearTable s).hkey }

/-! ### Code output and framing -/

/-- Rules R55, R126, R127: a code goes into the stream after the bits that wait, bit 0 first, with all of its
`CODE_WIDTH` bits; at most 7 bits stay in `ACC`, with zeros above them. -/
def Obligations.EmitCodePacksLsbFirst : Prop :=
  ∀ (c : Code) (s t : State), packerReady s = true → c.toNat < 2 ^ s.codeWidth.toNat → c ≠ eofWord s.depth →
    emitCode c s = .go t →
    Packed s t (lowBits c s.codeWidth.toNat) ∧ t.accBits.toNat ≤ 7 ∧ t.acc.toNat < 2 ^ t.accBits.toNat ∧
      t.blkCount.toNat ≤ 253

/-- Rules R128, R129, R130: the width after a code has been packed. -/
def Obligations.CodeWidthSchedule : Prop :=
  ∀ (c : Code) (s t : State), emitCode c s = .go t →
    (c = clearWord s.depth → t.codeWidth = BitVec.ofNat 4 (initWidth s.depth)) ∧
    (c ≠ clearWord s.depth → t.codeWidth.toNat = grownWidth s)

/-- Rule R132: every code that can be emitted next fits in `CODE_WIDTH` bits, and so does the end code after the pending
prefix code. -/
def Obligations.EveryCodeFits : Prop :=
  ∀ s : State, Inv s → callOpen s →
    (s.phase = .active → s.prevCode.toNat < 2 ^ s.codeWidth.toNat) ∧
    (clearWord s.depth).toNat < 2 ^ s.codeWidth.toNat ∧ (eofWord s.depth).toNat < 2 ^ s.codeWidth.toNat ∧
    (∀ t, s.phase = .active → emitCode s.prevCode s = .go t → (eofWord t.depth).toNat < 2 ^ t.codeWidth.toNat)

/-- Rule R131: the end code empties the packer, with zero padding, and writes out the sub-block in progress. -/
def Obligations.EndCodeFlushesEverything : Prop :=
  ∀ s t : State, packerReady s = true → emitCode (eofWord s.depth) s = .go t →
    t.acc = 0#19 ∧ t.accBits = 0#5 ∧ t.blkCount = 0#8 ∧
      ∃ data pad, t.sink = s.sink ++ subBlocks data ∧ pad < 8 ∧
        bytesBits data = waitingBits s ++ lowBits (eofWord s.depth) s.codeWidth.toNat ++ List.replicate pad false

/-- Rule R141: a data byte is stored at `BLK_COUNT`; the sub-block is written the moment its 254th byte arrives. -/
def Obligations.ByteOutCutsAt254 : Prop :=
  ∀ (b : Byte) (s : State), s.blkCount.toNat ≤ 253 →
    (s.blkCount.toNat < 253 → ∃ t, byteOut b s = .go t ∧ Memory.read t.blkBuf s.blkCount.toNat = some b ∧
      t.blkCount.toNat = s.blkCount.toNat + 1 ∧ t.sink = s.sink) ∧
    (s.blkCount.toNat = 253 → sinkAccepts 255 s → ∃ t, byteOut b s = .go t ∧ Memory.read t.blkBuf 253 = some b ∧
      t.blkCount = 0#8 ∧ t.sink = s.sink ++ 254#8 :: (blkBytes s ++ [b]))

/-- Rule R142: the flush writes nothing when no byte waits; else the length byte and the bytes, and `BLK_COUNT` is 0
only after all have been accepted; a failure leaves what was accepted before it. -/
def Obligations.FlushBlockWritesWhatWaits : Prop :=
  ∀ s : State, s.blkCount.toNat ≤ 254 →
    (s.blkCount = 0#8 → flushBlock s = .go s) ∧
    (s.blkCount ≠ 0#8 → sinkAccepts (s.blkCount.toNat + 1) s →
      flushBlock s = .go { s with
        sink := s.sink ++ s.blkCount :: blkBytes s
        answers := s.answers.drop (s.blkCount.toNat + 1)
        blkCount := 0#8 }) ∧
    (∀ t, flushBlock s = .sinkFail t → t.blkCount = s.blkCount ∧
      ∃ n, n ≤ s.blkCount.toNat ∧ t.sink = s.sink ++ (s.blkCount :: blkBytes s).take n ∧
        s.answers = List.replicate n .ack ++ .fail :: t.answers)

/-- Rules R79, R83, R84, R144: the sub-blocks of any data bytes, followed by the terminator, are read back to those
bytes; no length byte but the terminator is zero. -/
def Obligations.FramingReadsBack : Prop :=
  ∀ (data rest : List Byte) (n : Nat), data.length < n →
    unframe n (subBlocks data ++ 0x00#8 :: rest) = some (data, rest)

/-! ### Invariants and headline results -/

/-- The reset state meets the invariant (its empty tables are the model's choice, log entry 2). -/
def Obligations.ResetMeetsInvariant : Prop := Inv State.reset

/-- Rules R50, R51: every step keeps the tables canonical and within their bounds. -/
def Obligations.StepKeepsTablesCanonical : Prop :=
  ∀ s t : State, memoryWf s = true → step s = .next t → memoryWf t = true

/-- Rule R41 (with rules R32 and R119): every step, from every state that meets the invariant, keeps it. -/
def Obligations.StepKeepsInvariant : Prop := ∀ s t : State, Inv s → step s = .next t → Inv t

/-- Rules R43, R173: START makes two states that differ in anything but the sink's coming answers the same to the rest
of the call. -/
def Obligations.StartErasesHistory : Prop :=
  ∀ (d : BitVec 4) (s u : State), legalDepth d = true → s.answers = u.answers →
    sameEffect s u (exec (.start d) s) (exec (.start d) u)

/-- Rule R173: a command's output, response and effect on the rest of the call are a function of what the call's rules
read; nothing of an earlier call, of the reset state or of stale table entries can be seen. -/
def Obligations.CallSeesNoHistory : Prop :=
  ∀ (i : Instr) (s u : State), SameCall s u → sameEffect s u (exec i s) (exec i u)

/-- S1 (95_test_vectors.md), rules R79, R80, R173, R181: for every legal depth and every list of symbols below
`CLEAR_CODE`, from any state, the bytes a whole call writes to a sink that accepts them are read back by the yardstick
decoder (log entry 22) to exactly those symbols, and every response is `0x1`. -/
def Obligations.RoundTripIsLossless : Prop :=
  ∀ (d : BitVec 4) (syms : List (BitVec 8)) (s : State) (rest : List CmdWord),
    legalDepth d = true → (∀ c ∈ syms, symbolLegal d c = true) → s.cmd = callWords d syms ++ rest →
    s.resetPin = [] → (∀ a ∈ s.answers, a = SinkAnswer.ack) →
    ∃ (t : State) (out : List Byte), Host.Core.run Sys2Proof.core (syms.length + 2) s = .next t ∧
      t.sink = s.sink ++ out ∧ decodeStream out = some syms ∧
      t.rsp = s.rsp ++ List.replicate (syms.length + 2) 0x1#4 ∧ t.phase = .idle ∧ t.cmd = rest
end

