-- ==== Sys2Proof/Laws/State.lean ====
section
/-! SUPPORT. One lemma per field per named update of State, true by rfl: what each update writes and what it leaves
alone. -/

namespace Sys2Proof.Machine

variable (s : State)

/-! ### respond -/

@[simp] theorem respond_phase (e : ErrCode) : (respond e s).phase = s.phase := rfl
@[simp] theorem respond_lastErr (e : ErrCode) : (respond e s).lastErr = s.lastErr := rfl
@[simp] theorem respond_depth (e : ErrCode) : (respond e s).depth = s.depth := rfl
@[simp] theorem respond_codeWidth (e : ErrCode) : (respond e s).codeWidth = s.codeWidth := rfl
@[simp] theorem respond_prevCode (e : ErrCode) : (respond e s).prevCode = s.prevCode := rfl
@[simp] theorem respond_nextCode (e : ErrCode) : (respond e s).nextCode = s.nextCode := rfl
@[simp] theorem respond_acc (e : ErrCode) : (respond e s).acc = s.acc := rfl
@[simp] theorem respond_accBits (e : ErrCode) : (respond e s).accBits = s.accBits := rfl
@[simp] theorem respond_blkCount (e : ErrCode) : (respond e s).blkCount = s.blkCount := rfl
@[simp] theorem respond_blkBuf (e : ErrCode) : (respond e s).blkBuf = s.blkBuf := rfl
@[simp] theorem respond_hkey (e : ErrCode) : (respond e s).hkey = s.hkey := rfl
@[simp] theorem respond_hcode (e : ErrCode) : (respond e s).hcode = s.hcode := rfl
@[simp] theorem respond_cmd (e : ErrCode) : (respond e s).cmd = s.cmd := rfl
@[simp] theorem respond_rsp (e : ErrCode) : (respond e s).rsp = s.rsp ++ [responseWord e] := rfl
@[simp] theorem respond_sink (e : ErrCode) : (respond e s).sink = s.sink := rfl
@[simp] theorem respond_answers (e : ErrCode) : (respond e s).answers = s.answers := rfl
@[simp] theorem respond_resetPin (e : ErrCode) : (respond e s).resetPin = s.resetPin := rfl
@[simp] theorem respond_draws (e : ErrCode) : (respond e s).draws = s.draws := rfl

/-! ### refuse -/

@[simp] theorem refuse_phase (e : ErrCode) : (refuse e s).phase = s.phase := rfl
@[simp] theorem refuse_lastErr (e : ErrCode) : (refuse e s).lastErr = e := rfl
@[simp] theorem refuse_depth (e : ErrCode) : (refuse e s).depth = s.depth := rfl
@[simp] theorem refuse_codeWidth (e : ErrCode) : (refuse e s).codeWidth = s.codeWidth := rfl
@[simp] theorem refuse_prevCode (e : ErrCode) : (refuse e s).prevCode = s.prevCode := rfl
@[simp] theorem refuse_nextCode (e : ErrCode) : (refuse e s).nextCode = s.nextCode := rfl
@[simp] theorem refuse_acc (e : ErrCode) : (refuse e s).acc = s.acc := rfl
@[simp] theorem refuse_accBits (e : ErrCode) : (refuse e s).accBits = s.accBits := rfl
@[simp] theorem refuse_blkCount (e : ErrCode) : (refuse e s).blkCount = s.blkCount := rfl
@[simp] theorem refuse_blkBuf (e : ErrCode) : (refuse e s).blkBuf = s.blkBuf := rfl
@[simp] theorem refuse_hkey (e : ErrCode) : (refuse e s).hkey = s.hkey := rfl
@[simp] theorem refuse_hcode (e : ErrCode) : (refuse e s).hcode = s.hcode := rfl
@[simp] theorem refuse_cmd (e : ErrCode) : (refuse e s).cmd = s.cmd := rfl
@[simp] theorem refuse_rsp (e : ErrCode) : (refuse e s).rsp = s.rsp ++ [responseWord e] := rfl
@[simp] theorem refuse_sink (e : ErrCode) : (refuse e s).sink = s.sink := rfl
@[simp] theorem refuse_answers (e : ErrCode) : (refuse e s).answers = s.answers := rfl
@[simp] theorem refuse_resetPin (e : ErrCode) : (refuse e s).resetPin = s.resetPin := rfl
@[simp] theorem refuse_draws (e : ErrCode) : (refuse e s).draws = s.draws := rfl

/-! ### clearTable -/

@[simp] theorem clearTable_phase : (clearTable s).phase = s.phase := rfl
@[simp] theorem clearTable_lastErr : (clearTable s).lastErr = s.lastErr := rfl
@[simp] theorem clearTable_depth : (clearTable s).depth = s.depth := rfl
@[simp] theorem clearTable_codeWidth : (clearTable s).codeWidth = s.codeWidth := rfl
@[simp] theorem clearTable_prevCode : (clearTable s).prevCode = s.prevCode := rfl
@[simp] theorem clearTable_nextCode : (clearTable s).nextCode = s.nextCode := rfl
@[simp] theorem clearTable_acc : (clearTable s).acc = s.acc := rfl
@[simp] theorem clearTable_accBits : (clearTable s).accBits = s.accBits := rfl
@[simp] theorem clearTable_blkCount : (clearTable s).blkCount = s.blkCount := rfl
@[simp] theorem clearTable_blkBuf : (clearTable s).blkBuf = s.blkBuf := rfl
@[simp] theorem clearTable_hkey : (clearTable s).hkey = [] := rfl
@[simp] theorem clearTable_hcode : (clearTable s).hcode = s.hcode := rfl
@[simp] theorem clearTable_cmd : (clearTable s).cmd = s.cmd := rfl
@[simp] theorem clearTable_rsp : (clearTable s).rsp = s.rsp := rfl
@[simp] theorem clearTable_sink : (clearTable s).sink = s.sink := rfl
@[simp] theorem clearTable_answers : (clearTable s).answers = s.answers := rfl
@[simp] theorem clearTable_resetPin : (clearTable s).resetPin = s.resetPin := rfl
@[simp] theorem clearTable_draws : (clearTable s).draws = s.draws := rfl

/-! ### insertEntry -/

@[simp] theorem insertEntry_phase (slot : Nat) (p : Code) (b : BitVec 8) : (insertEntry slot p b s).phase = s.phase := rfl
@[simp] theorem insertEntry_lastErr (slot : Nat) (p : Code) (b : BitVec 8) : (insertEntry slot p b s).lastErr = s.lastErr := rfl
@[simp] theorem insertEntry_depth (slot : Nat) (p : Code) (b : BitVec 8) : (insertEntry slot p b s).depth = s.depth := rfl
@[simp] theorem insertEntry_codeWidth (slot : Nat) (p : Code) (b : BitVec 8) : (insertEntry slot p b s).codeWidth = s.codeWidth := rfl
@[simp] theorem insertEntry_prevCode (slot : Nat) (p : Code) (b : BitVec 8) : (insertEntry slot p b s).prevCode = s.prevCode := rfl
@[simp] theorem insertEntry_nextCode (slot : Nat) (p : Code) (b : BitVec 8) : (insertEntry slot p b s).nextCode = s.nextCode + 1#13 := rfl
@[simp] theorem insertEntry_acc (slot : Nat) (p : Code) (b : BitVec 8) : (insertEntry slot p b s).acc = s.acc := rfl
@[simp] theorem insertEntry_accBits (slot : Nat) (p : Code) (b : BitVec 8) : (insertEntry slot p b s).accBits = s.accBits := rfl
@[simp] theorem insertEntry_blkCount (slot : Nat) (p : Code) (b : BitVec 8) : (insertEntry slot p b s).blkCount = s.blkCount := rfl
@[simp] theorem insertEntry_blkBuf (slot : Nat) (p : Code) (b : BitVec 8) : (insertEntry slot p b s).blkBuf = s.blkBuf := rfl
@[simp] theorem insertEntry_hkey (slot : Nat) (p : Code) (b : BitVec 8) : (insertEntry slot p b s).hkey = Memory.write s.hkey slot (keyOf p b) := rfl
@[simp] theorem insertEntry_hcode (slot : Nat) (p : Code) (b : BitVec 8) : (insertEntry slot p b s).hcode = Memory.write s.hcode slot (s.nextCode.extractLsb' 0 12) := rfl
@[simp] theorem insertEntry_cmd (slot : Nat) (p : Code) (b : BitVec 8) : (insertEntry slot p b s).cmd = s.cmd := rfl
@[simp] theorem insertEntry_rsp (slot : Nat) (p : Code) (b : BitVec 8) : (insertEntry slot p b s).rsp = s.rsp := rfl
@[simp] theorem insertEntry_sink (slot : Nat) (p : Code) (b : BitVec 8) : (insertEntry slot p b s).sink = s.sink := rfl
@[simp] theorem insertEntry_answers (slot : Nat) (p : Code) (b : BitVec 8) : (insertEntry slot p b s).answers = s.answers := rfl
@[simp] theorem insertEntry_resetPin (slot : Nat) (p : Code) (b : BitVec 8) : (insertEntry slot p b s).resetPin = s.resetPin := rfl
@[simp] theorem insertEntry_draws (slot : Nat) (p : Code) (b : BitVec 8) : (insertEntry slot p b s).draws = s.draws := rfl

/-! ### pack -/

@[simp] theorem pack_phase (c : Code) : (pack c s).phase = s.phase := rfl
@[simp] theorem pack_lastErr (c : Code) : (pack c s).lastErr = s.lastErr := rfl
@[simp] theorem pack_depth (c : Code) : (pack c s).depth = s.depth := rfl
@[simp] theorem pack_codeWidth (c : Code) : (pack c s).codeWidth = s.codeWidth := rfl
@[simp] theorem pack_prevCode (c : Code) : (pack c s).prevCode = s.prevCode := rfl
@[simp] theorem pack_nextCode (c : Code) : (pack c s).nextCode = s.nextCode := rfl
@[simp] theorem pack_acc (c : Code) : (pack c s).acc = s.acc ||| (c.setWidth 19 <<< s.accBits.toNat) := rfl
@[simp] theorem pack_accBits (c : Code) : (pack c s).accBits = s.accBits + s.codeWidth.setWidth 5 := rfl
@[simp] theorem pack_blkCount (c : Code) : (pack c s).blkCount = s.blkCount := rfl
@[simp] theorem pack_blkBuf (c : Code) : (pack c s).blkBuf = s.blkBuf := rfl
@[simp] theorem pack_hkey (c : Code) : (pack c s).hkey = s.hkey := rfl
@[simp] theorem pack_hcode (c : Code) : (pack c s).hcode = s.hcode := rfl
@[simp] theorem pack_cmd (c : Code) : (pack c s).cmd = s.cmd := rfl
@[simp] theorem pack_rsp (c : Code) : (pack c s).rsp = s.rsp := rfl
@[simp] theorem pack_sink (c : Code) : (pack c s).sink = s.sink := rfl
@[simp] theorem pack_answers (c : Code) : (pack c s).answers = s.answers := rfl
@[simp] theorem pack_resetPin (c : Code) : (pack c s).resetPin = s.resetPin := rfl
@[simp] theorem pack_draws (c : Code) : (pack c s).draws = s.draws := rfl

/-! ### storeByte -/

@[simp] theorem storeByte_phase (b : Byte) : (storeByte b s).phase = s.phase := rfl
@[simp] theorem storeByte_lastErr (b : Byte) : (storeByte b s).lastErr = s.lastErr := rfl
@[simp] theorem storeByte_depth (b : Byte) : (storeByte b s).depth = s.depth := rfl
@[simp] theorem storeByte_codeWidth (b : Byte) : (storeByte b s).codeWidth = s.codeWidth := rfl
@[simp] theorem storeByte_prevCode (b : Byte) : (storeByte b s).prevCode = s.prevCode := rfl
@[simp] theorem storeByte_nextCode (b : Byte) : (storeByte b s).nextCode = s.nextCode := rfl
@[simp] theorem storeByte_acc (b : Byte) : (storeByte b s).acc = s.acc := rfl
@[simp] theorem storeByte_accBits (b : Byte) : (storeByte b s).accBits = s.accBits := rfl
@[simp] theorem storeByte_blkCount (b : Byte) : (storeByte b s).blkCount = s.blkCount + 1#8 := rfl
@[simp] theorem storeByte_blkBuf (b : Byte) : (storeByte b s).blkBuf = Memory.write s.blkBuf s.blkCount.toNat b := rfl
@[simp] theorem storeByte_hkey (b : Byte) : (storeByte b s).hkey = s.hkey := rfl
@[simp] theorem storeByte_hcode (b : Byte) : (storeByte b s).hcode = s.hcode := rfl
@[simp] theorem storeByte_cmd (b : Byte) : (storeByte b s).cmd = s.cmd := rfl
@[simp] theorem storeByte_rsp (b : Byte) : (storeByte b s).rsp = s.rsp := rfl
@[simp] theorem storeByte_sink (b : Byte) : (storeByte b s).sink = s.sink := rfl
@[simp] theorem storeByte_answers (b : Byte) : (storeByte b s).answers = s.answers := rfl
@[simp] theorem storeByte_resetPin (b : Byte) : (storeByte b s).resetPin = s.resetPin := rfl
@[simp] theorem storeByte_draws (b : Byte) : (storeByte b s).draws = s.draws := rfl

/-! ### emptyBlock -/

@[simp] theorem emptyBlock_phase : (emptyBlock s).phase = s.phase := rfl
@[simp] theorem emptyBlock_lastErr : (emptyBlock s).lastErr = s.lastErr := rfl
@[simp] theorem emptyBlock_depth : (emptyBlock s).depth = s.depth := rfl
@[simp] theorem emptyBlock_codeWidth : (emptyBlock s).codeWidth = s.codeWidth := rfl
@[simp] theorem emptyBlock_prevCode : (emptyBlock s).prevCode = s.prevCode := rfl
@[simp] theorem emptyBlock_nextCode : (emptyBlock s).nextCode = s.nextCode := rfl
@[simp] theorem emptyBlock_acc : (emptyBlock s).acc = s.acc := rfl
@[simp] theorem emptyBlock_accBits : (emptyBlock s).accBits = s.accBits := rfl
@[simp] theorem emptyBlock_blkCount : (emptyBlock s).blkCount = 0#8 := rfl
@[simp] theorem emptyBlock_blkBuf : (emptyBlock s).blkBuf = s.blkBuf := rfl
@[simp] theorem emptyBlock_hkey : (emptyBlock s).hkey = s.hkey := rfl
@[simp] theorem emptyBlock_hcode : (emptyBlock s).hcode = s.hcode := rfl
@[simp] theorem emptyBlock_cmd : (emptyBlock s).cmd = s.cmd := rfl
@[simp] theorem emptyBlock_rsp : (emptyBlock s).rsp = s.rsp := rfl
@[simp] theorem emptyBlock_sink : (emptyBlock s).sink = s.sink := rfl
@[simp] theorem emptyBlock_answers : (emptyBlock s).answers = s.answers := rfl
@[simp] theorem emptyBlock_resetPin : (emptyBlock s).resetPin = s.resetPin := rfl
@[simp] theorem emptyBlock_draws : (emptyBlock s).draws = s.draws := rfl

/-! ### dropByte -/

@[simp] theorem dropByte_phase : (dropByte s).phase = s.phase := rfl
@[simp] theorem dropByte_lastErr : (dropByte s).lastErr = s.lastErr := rfl
@[simp] theorem dropByte_depth : (dropByte s).depth = s.depth := rfl
@[simp] theorem dropByte_codeWidth : (dropByte s).codeWidth = s.codeWidth := rfl
@[simp] theorem dropByte_prevCode : (dropByte s).prevCode = s.prevCode := rfl
@[simp] theorem dropByte_nextCode : (dropByte s).nextCode = s.nextCode := rfl
@[simp] theorem dropByte_acc : (dropByte s).acc = s.acc >>> 8 := rfl
@[simp] theorem dropByte_accBits : (dropByte s).accBits = s.accBits - 8#5 := rfl
@[simp] theorem dropByte_blkCount : (dropByte s).blkCount = s.blkCount := rfl
@[simp] theorem dropByte_blkBuf : (dropByte s).blkBuf = s.blkBuf := rfl
@[simp] theorem dropByte_hkey : (dropByte s).hkey = s.hkey := rfl
@[simp] theorem dropByte_hcode : (dropByte s).hcode = s.hcode := rfl
@[simp] theorem dropByte_cmd : (dropByte s).cmd = s.cmd := rfl
@[simp] theorem dropByte_rsp : (dropByte s).rsp = s.rsp := rfl
@[simp] theorem dropByte_sink : (dropByte s).sink = s.sink := rfl
@[simp] theorem dropByte_answers : (dropByte s).answers = s.answers := rfl
@[simp] theorem dropByte_resetPin : (dropByte s).resetPin = s.resetPin := rfl
@[simp] theorem dropByte_draws : (dropByte s).draws = s.draws := rfl

/-! ### clearAcc -/

@[simp] theorem clearAcc_phase : (clearAcc s).phase = s.phase := rfl
@[simp] theorem clearAcc_lastErr : (clearAcc s).lastErr = s.lastErr := rfl
@[simp] theorem clearAcc_depth : (clearAcc s).depth = s.depth := rfl
@[simp] theorem clearAcc_codeWidth : (clearAcc s).codeWidth = s.codeWidth := rfl
@[simp] theorem clearAcc_prevCode : (clearAcc s).prevCode = s.prevCode := rfl
@[simp] theorem clearAcc_nextCode : (clearAcc s).nextCode = s.nextCode := rfl
@[simp] theorem clearAcc_acc : (clearAcc s).acc = 0#19 := rfl
@[simp] theorem clearAcc_accBits : (clearAcc s).accBits = 0#5 := rfl
@[simp] theorem clearAcc_blkCount : (clearAcc s).blkCount = s.blkCount := rfl
@[simp] theorem clearAcc_blkBuf : (clearAcc s).blkBuf = s.blkBuf := rfl
@[simp] theorem clearAcc_hkey : (clearAcc s).hkey = s.hkey := rfl
@[simp] theorem clearAcc_hcode : (clearAcc s).hcode = s.hcode := rfl
@[simp] theorem clearAcc_cmd : (clearAcc s).cmd = s.cmd := rfl
@[simp] theorem clearAcc_rsp : (clearAcc s).rsp = s.rsp := rfl
@[simp] theorem clearAcc_sink : (clearAcc s).sink = s.sink := rfl
@[simp] theorem clearAcc_answers : (clearAcc s).answers = s.answers := rfl
@[simp] theorem clearAcc_resetPin : (clearAcc s).resetPin = s.resetPin := rfl
@[simp] theorem clearAcc_draws : (clearAcc s).draws = s.draws := rfl

/-! ### restartCodes -/

@[simp] theorem restartCodes_phase : (restartCodes s).phase = s.phase := rfl
@[simp] theorem restartCodes_lastErr : (restartCodes s).lastErr = s.lastErr := rfl
@[simp] theorem restartCodes_depth : (restartCodes s).depth = s.depth := rfl
@[simp] theorem restartCodes_codeWidth : (restartCodes s).codeWidth = s.codeWidth := rfl
@[simp] theorem restartCodes_prevCode : (restartCodes s).prevCode = s.prevCode := rfl
@[simp] theorem restartCodes_nextCode : (restartCodes s).nextCode = BitVec.ofNat 13 (firstFree s.depth) := rfl
@[simp] theorem restartCodes_acc : (restartCodes s).acc = s.acc := rfl
@[simp] theorem restartCodes_accBits : (restartCodes s).accBits = s.accBits := rfl
@[simp] theorem restartCodes_blkCount : (restartCodes s).blkCount = s.blkCount := rfl
@[simp] theorem restartCodes_blkBuf : (restartCodes s).blkBuf = s.blkBuf := rfl
@[simp] theorem restartCodes_hkey : (restartCodes s).hkey = s.hkey := rfl
@[simp] theorem restartCodes_hcode : (restartCodes s).hcode = s.hcode := rfl
@[simp] theorem restartCodes_cmd : (restartCodes s).cmd = s.cmd := rfl
@[simp] theorem restartCodes_rsp : (restartCodes s).rsp = s.rsp := rfl
@[simp] theorem restartCodes_sink : (restartCodes s).sink = s.sink := rfl
@[simp] theorem restartCodes_answers : (restartCodes s).answers = s.answers := rfl
@[simp] theorem restartCodes_resetPin : (restartCodes s).resetPin = s.resetPin := rfl
@[simp] theorem restartCodes_draws : (restartCodes s).draws = s.draws := rfl

/-! ### startString -/

@[simp] theorem startString_phase (c : BitVec 8) : (startString c s).phase = s.phase := rfl
@[simp] theorem startString_lastErr (c : BitVec 8) : (startString c s).lastErr = s.lastErr := rfl
@[simp] theorem startString_depth (c : BitVec 8) : (startString c s).depth = s.depth := rfl
@[simp] theorem startString_codeWidth (c : BitVec 8) : (startString c s).codeWidth = s.codeWidth := rfl
@[simp] theorem startString_prevCode (c : BitVec 8) : (startString c s).prevCode = c.setWidth 12 := rfl
@[simp] theorem startString_nextCode (c : BitVec 8) : (startString c s).nextCode = s.nextCode := rfl
@[simp] theorem startString_acc (c : BitVec 8) : (startString c s).acc = s.acc := rfl
@[simp] theorem startString_accBits (c : BitVec 8) : (startString c s).accBits = s.accBits := rfl
@[simp] theorem startString_blkCount (c : BitVec 8) : (startString c s).blkCount = s.blkCount := rfl
@[simp] theorem startString_blkBuf (c : BitVec 8) : (startString c s).blkBuf = s.blkBuf := rfl
@[simp] theorem startString_hkey (c : BitVec 8) : (startString c s).hkey = s.hkey := rfl
@[simp] theorem startString_hcode (c : BitVec 8) : (startString c s).hcode = s.hcode := rfl
@[simp] theorem startString_cmd (c : BitVec 8) : (startString c s).cmd = s.cmd := rfl
@[simp] theorem startString_rsp (c : BitVec 8) : (startString c s).rsp = s.rsp := rfl
@[simp] theorem startString_sink (c : BitVec 8) : (startString c s).sink = s.sink := rfl
@[simp] theorem startString_answers (c : BitVec 8) : (startString c s).answers = s.answers := rfl
@[simp] theorem startString_resetPin (c : BitVec 8) : (startString c s).resetPin = s.resetPin := rfl
@[simp] theorem startString_draws (c : BitVec 8) : (startString c s).draws = s.draws := rfl

/-! ### extendString -/

@[simp] theorem extendString_phase (slot : Nat) : (extendString slot s).phase = s.phase := rfl
@[simp] theorem extendString_lastErr (slot : Nat) : (extendString slot s).lastErr = s.lastErr := rfl
@[simp] theorem extendString_depth (slot : Nat) : (extendString slot s).depth = s.depth := rfl
@[simp] theorem extendString_codeWidth (slot : Nat) : (extendString slot s).codeWidth = s.codeWidth := rfl
@[simp] theorem extendString_prevCode (slot : Nat) : (extendString slot s).prevCode = hcodeAt s slot := rfl
@[simp] theorem extendString_nextCode (slot : Nat) : (extendString slot s).nextCode = s.nextCode := rfl
@[simp] theorem extendString_acc (slot : Nat) : (extendString slot s).acc = s.acc := rfl
@[simp] theorem extendString_accBits (slot : Nat) : (extendString slot s).accBits = s.accBits := rfl
@[simp] theorem extendString_blkCount (slot : Nat) : (extendString slot s).blkCount = s.blkCount := rfl
@[simp] theorem extendString_blkBuf (slot : Nat) : (extendString slot s).blkBuf = s.blkBuf := rfl
@[simp] theorem extendString_hkey (slot : Nat) : (extendString slot s).hkey = s.hkey := rfl
@[simp] theorem extendString_hcode (slot : Nat) : (extendString slot s).hcode = s.hcode := rfl
@[simp] theorem extendString_cmd (slot : Nat) : (extendString slot s).cmd = s.cmd := rfl
@[simp] theorem extendString_rsp (slot : Nat) : (extendString slot s).rsp = s.rsp := rfl
@[simp] theorem extendString_sink (slot : Nat) : (extendString slot s).sink = s.sink := rfl
@[simp] theorem extendString_answers (slot : Nat) : (extendString slot s).answers = s.answers := rfl
@[simp] theorem extendString_resetPin (slot : Nat) : (extendString slot s).resetPin = s.resetPin := rfl
@[simp] theorem extendString_draws (slot : Nat) : (extendString slot s).draws = s.draws := rfl

/-! ### closeCall -/

@[simp] theorem closeCall_phase : (closeCall s).phase = Phase.idle := rfl
@[simp] theorem closeCall_lastErr : (closeCall s).lastErr = s.lastErr := rfl
@[simp] theorem closeCall_depth : (closeCall s).depth = s.depth := rfl
@[simp] theorem closeCall_codeWidth : (closeCall s).codeWidth = s.codeWidth := rfl
@[simp] theorem closeCall_prevCode : (closeCall s).prevCode = s.prevCode := rfl
@[simp] theorem closeCall_nextCode : (closeCall s).nextCode = s.nextCode := rfl
@[simp] theorem closeCall_acc : (closeCall s).acc = s.acc := rfl
@[simp] theorem closeCall_accBits : (closeCall s).accBits = s.accBits := rfl
@[simp] theorem closeCall_blkCount : (closeCall s).blkCount = s.blkCount := rfl
@[simp] theorem closeCall_blkBuf : (closeCall s).blkBuf = s.blkBuf := rfl
@[simp] theorem closeCall_hkey : (closeCall s).hkey = s.hkey := rfl
@[simp] theorem closeCall_hcode : (closeCall s).hcode = s.hcode := rfl
@[simp] theorem closeCall_cmd : (closeCall s).cmd = s.cmd := rfl
@[simp] theorem closeCall_rsp : (closeCall s).rsp = s.rsp := rfl
@[simp] theorem closeCall_sink : (closeCall s).sink = s.sink := rfl
@[simp] theorem closeCall_answers : (closeCall s).answers = s.answers := rfl
@[simp] theorem closeCall_resetPin : (closeCall s).resetPin = s.resetPin := rfl
@[simp] theorem closeCall_draws : (closeCall s).draws = s.draws := rfl

/-! ### firstSymbol -/

@[simp] theorem firstSymbol_phase (c : BitVec 8) : (firstSymbol c s).phase = Phase.active := rfl
@[simp] theorem firstSymbol_lastErr (c : BitVec 8) : (firstSymbol c s).lastErr = s.lastErr := rfl
@[simp] theorem firstSymbol_depth (c : BitVec 8) : (firstSymbol c s).depth = s.depth := rfl
@[simp] theorem firstSymbol_codeWidth (c : BitVec 8) : (firstSymbol c s).codeWidth = s.codeWidth := rfl
@[simp] theorem firstSymbol_prevCode (c : BitVec 8) : (firstSymbol c s).prevCode = c.setWidth 12 := rfl
@[simp] theorem firstSymbol_nextCode (c : BitVec 8) : (firstSymbol c s).nextCode = s.nextCode := rfl
@[simp] theorem firstSymbol_acc (c : BitVec 8) : (firstSymbol c s).acc = s.acc := rfl
@[simp] theorem firstSymbol_accBits (c : BitVec 8) : (firstSymbol c s).accBits = s.accBits := rfl
@[simp] theorem firstSymbol_blkCount (c : BitVec 8) : (firstSymbol c s).blkCount = s.blkCount := rfl
@[simp] theorem firstSymbol_blkBuf (c : BitVec 8) : (firstSymbol c s).blkBuf = s.blkBuf := rfl
@[simp] theorem firstSymbol_hkey (c : BitVec 8) : (firstSymbol c s).hkey = s.hkey := rfl
@[simp] theorem firstSymbol_hcode (c : BitVec 8) : (firstSymbol c s).hcode = s.hcode := rfl
@[simp] theorem firstSymbol_cmd (c : BitVec 8) : (firstSymbol c s).cmd = s.cmd := rfl
@[simp] theorem firstSymbol_rsp (c : BitVec 8) : (firstSymbol c s).rsp = s.rsp := rfl
@[simp] theorem firstSymbol_sink (c : BitVec 8) : (firstSymbol c s).sink = s.sink := rfl
@[simp] theorem firstSymbol_answers (c : BitVec 8) : (firstSymbol c s).answers = s.answers := rfl
@[simp] theorem firstSymbol_resetPin (c : BitVec 8) : (firstSymbol c s).resetPin = s.resetPin := rfl
@[simp] theorem firstSymbol_draws (c : BitVec 8) : (firstSymbol c s).draws = s.draws := rfl

/-! ### openCall -/

@[simp] theorem openCall_phase (d : BitVec 4) : (openCall d s).phase = Phase.empty := rfl
@[simp] theorem openCall_lastErr (d : BitVec 4) : (openCall d s).lastErr = ErrCode.eNone := rfl
@[simp] theorem openCall_depth (d : BitVec 4) : (openCall d s).depth = d := rfl
@[simp] theorem openCall_codeWidth (d : BitVec 4) : (openCall d s).codeWidth = BitVec.ofNat 4 (initWidth d) := rfl
@[simp] theorem openCall_prevCode (d : BitVec 4) : (openCall d s).prevCode = s.prevCode := rfl
@[simp] theorem openCall_nextCode (d : BitVec 4) : (openCall d s).nextCode = BitVec.ofNat 13 (firstFree d) := rfl
@[simp] theorem openCall_acc (d : BitVec 4) : (openCall d s).acc = 0#19 := rfl
@[simp] theorem openCall_accBits (d : BitVec 4) : (openCall d s).accBits = 0#5 := rfl
@[simp] theorem openCall_blkCount (d : BitVec 4) : (openCall d s).blkCount = 0#8 := rfl
@[simp] theorem openCall_blkBuf (d : BitVec 4) : (openCall d s).blkBuf = s.blkBuf := rfl
@[simp] theorem openCall_hkey (d : BitVec 4) : (openCall d s).hkey = [] := rfl
@[simp] theorem openCall_hcode (d : BitVec 4) : (openCall d s).hcode = s.hcode := rfl
@[simp] theorem openCall_cmd (d : BitVec 4) : (openCall d s).cmd = s.cmd := rfl
@[simp] theorem openCall_rsp (d : BitVec 4) : (openCall d s).rsp = s.rsp := rfl
@[simp] theorem openCall_sink (d : BitVec 4) : (openCall d s).sink = s.sink := rfl
@[simp] theorem openCall_answers (d : BitVec 4) : (openCall d s).answers = s.answers := rfl
@[simp] theorem openCall_resetPin (d : BitVec 4) : (openCall d s).resetPin = s.resetPin := rfl
@[simp] theorem openCall_draws (d : BitVec 4) : (openCall d s).draws = s.draws := rfl

/-! ### closeFailed -/

@[simp] theorem closeFailed_phase : (closeFailed s).phase = Phase.idle := rfl
@[simp] theorem closeFailed_lastErr : (closeFailed s).lastErr = ErrCode.eSink := rfl
@[simp] theorem closeFailed_depth : (closeFailed s).depth = s.depth := rfl
@[simp] theorem closeFailed_codeWidth : (closeFailed s).codeWidth = s.codeWidth := rfl
@[simp] theorem closeFailed_prevCode : (closeFailed s).prevCode = s.prevCode := rfl
@[simp] theorem closeFailed_nextCode : (closeFailed s).nextCode = s.nextCode := rfl
@[simp] theorem closeFailed_acc : (closeFailed s).acc = s.acc := rfl
@[simp] theorem closeFailed_accBits : (closeFailed s).accBits = s.accBits := rfl
@[simp] theorem closeFailed_blkCount : (closeFailed s).blkCount = s.blkCount := rfl
@[simp] theorem closeFailed_blkBuf : (closeFailed s).blkBuf = s.blkBuf := rfl
@[simp] theorem closeFailed_hkey : (closeFailed s).hkey = s.hkey := rfl
@[simp] theorem closeFailed_hcode : (closeFailed s).hcode = s.hcode := rfl
@[simp] theorem closeFailed_cmd : (closeFailed s).cmd = s.cmd := rfl
@[simp] theorem closeFailed_rsp : (closeFailed s).rsp = s.rsp ++ [responseWord ErrCode.eSink] := rfl
@[simp] theorem closeFailed_sink : (closeFailed s).sink = s.sink := rfl
@[simp] theorem closeFailed_answers : (closeFailed s).answers = s.answers := rfl
@[simp] theorem closeFailed_resetPin : (closeFailed s).resetPin = s.resetPin := rfl
@[simp] theorem closeFailed_draws : (closeFailed s).draws = s.draws := rfl

/-! ### offerWord -/

@[simp] theorem offerWord_phase (w : CmdWord) : (offerWord w s).phase = s.phase := rfl
@[simp] theorem offerWord_lastErr (w : CmdWord) : (offerWord w s).lastErr = s.lastErr := rfl
@[simp] theorem offerWord_depth (w : CmdWord) : (offerWord w s).depth = s.depth := rfl
@[simp] theorem offerWord_codeWidth (w : CmdWord) : (offerWord w s).codeWidth = s.codeWidth := rfl
@[simp] theorem offerWord_prevCode (w : CmdWord) : (offerWord w s).prevCode = s.prevCode := rfl
@[simp] theorem offerWord_nextCode (w : CmdWord) : (offerWord w s).nextCode = s.nextCode := rfl
@[simp] theorem offerWord_acc (w : CmdWord) : (offerWord w s).acc = s.acc := rfl
@[simp] theorem offerWord_accBits (w : CmdWord) : (offerWord w s).accBits = s.accBits := rfl
@[simp] theorem offerWord_blkCount (w : CmdWord) : (offerWord w s).blkCount = s.blkCount := rfl
@[simp] theorem offerWord_blkBuf (w : CmdWord) : (offerWord w s).blkBuf = s.blkBuf := rfl
@[simp] theorem offerWord_hkey (w : CmdWord) : (offerWord w s).hkey = s.hkey := rfl
@[simp] theorem offerWord_hcode (w : CmdWord) : (offerWord w s).hcode = s.hcode := rfl
@[simp] theorem offerWord_cmd (w : CmdWord) : (offerWord w s).cmd = w :: s.cmd := rfl
@[simp] theorem offerWord_rsp (w : CmdWord) : (offerWord w s).rsp = s.rsp := rfl
@[simp] theorem offerWord_sink (w : CmdWord) : (offerWord w s).sink = s.sink := rfl
@[simp] theorem offerWord_answers (w : CmdWord) : (offerWord w s).answers = s.answers := rfl
@[simp] theorem offerWord_resetPin (w : CmdWord) : (offerWord w s).resetPin = ResetDraw.off :: s.resetPin := rfl
@[simp] theorem offerWord_draws (w : CmdWord) : (offerWord w s).draws = s.draws := rfl

/-! ### forgetWorking -/

@[simp] theorem forgetWorking_phase : (forgetWorking s).phase = s.phase := rfl
@[simp] theorem forgetWorking_lastErr : (forgetWorking s).lastErr = s.lastErr := rfl
@[simp] theorem forgetWorking_depth : (forgetWorking s).depth = Config.freeDepth s.draws := rfl
@[simp] theorem forgetWorking_codeWidth : (forgetWorking s).codeWidth = Config.freeCodeWidth s.draws := rfl
@[simp] theorem forgetWorking_prevCode : (forgetWorking s).prevCode = Config.freePrevCode s.draws := rfl
@[simp] theorem forgetWorking_nextCode : (forgetWorking s).nextCode = Config.freeNextCode s.draws := rfl
@[simp] theorem forgetWorking_acc : (forgetWorking s).acc = Config.freeAcc s.draws := rfl
@[simp] theorem forgetWorking_accBits : (forgetWorking s).accBits = Config.freeAccBits s.draws := rfl
@[simp] theorem forgetWorking_blkCount : (forgetWorking s).blkCount = Config.freeBlkCount s.draws := rfl
@[simp] theorem forgetWorking_blkBuf : (forgetWorking s).blkBuf = [] := rfl
@[simp] theorem forgetWorking_hkey : (forgetWorking s).hkey = Memory.ofPairs Config.hsize (Config.freeHkey s.draws) := rfl
@[simp] theorem forgetWorking_hcode : (forgetWorking s).hcode = [] := rfl
@[simp] theorem forgetWorking_cmd : (forgetWorking s).cmd = s.cmd := rfl
@[simp] theorem forgetWorking_rsp : (forgetWorking s).rsp = s.rsp := rfl
@[simp] theorem forgetWorking_sink : (forgetWorking s).sink = s.sink := rfl
@[simp] theorem forgetWorking_answers : (forgetWorking s).answers = s.answers := rfl
@[simp] theorem forgetWorking_resetPin : (forgetWorking s).resetPin = s.resetPin := rfl
@[simp] theorem forgetWorking_draws : (forgetWorking s).draws = s.draws + 1 := rfl

/-! ### takeSinkFail -/

@[simp] theorem takeSinkFail_phase : (takeSinkFail s).phase = Phase.failed := rfl
@[simp] theorem takeSinkFail_lastErr : (takeSinkFail s).lastErr = ErrCode.eSink := rfl
@[simp] theorem takeSinkFail_depth : (takeSinkFail s).depth = Config.freeDepth s.draws := rfl
@[simp] theorem takeSinkFail_codeWidth : (takeSinkFail s).codeWidth = Config.freeCodeWidth s.draws := rfl
@[simp] theorem takeSinkFail_prevCode : (takeSinkFail s).prevCode = Config.freePrevCode s.draws := rfl
@[simp] theorem takeSinkFail_nextCode : (takeSinkFail s).nextCode = Config.freeNextCode s.draws := rfl
@[simp] theorem takeSinkFail_acc : (takeSinkFail s).acc = Config.freeAcc s.draws := rfl
@[simp] theorem takeSinkFail_accBits : (takeSinkFail s).accBits = Config.freeAccBits s.draws := rfl
@[simp] theorem takeSinkFail_blkCount : (takeSinkFail s).blkCount = Config.freeBlkCount s.draws := rfl
@[simp] theorem takeSinkFail_blkBuf : (takeSinkFail s).blkBuf = [] := rfl
@[simp] theorem takeSinkFail_hkey : (takeSinkFail s).hkey = Memory.ofPairs Config.hsize (Config.freeHkey s.draws) := rfl
@[simp] theorem takeSinkFail_hcode : (takeSinkFail s).hcode = [] := rfl
@[simp] theorem takeSinkFail_cmd : (takeSinkFail s).cmd = s.cmd := rfl
@[simp] theorem takeSinkFail_rsp : (takeSinkFail s).rsp = s.rsp ++ [responseWord ErrCode.eSink] := rfl
@[simp] theorem takeSinkFail_sink : (takeSinkFail s).sink = s.sink := rfl
@[simp] theorem takeSinkFail_answers : (takeSinkFail s).answers = s.answers := rfl
@[simp] theorem takeSinkFail_resetPin : (takeSinkFail s).resetPin = s.resetPin := rfl
@[simp] theorem takeSinkFail_draws : (takeSinkFail s).draws = s.draws + 1 := rfl

/-! ### resetCore -/

@[simp] theorem resetCore_phase : (resetCore s).phase = Phase.idle := rfl
@[simp] theorem resetCore_lastErr : (resetCore s).lastErr = ErrCode.eNone := rfl
@[simp] theorem resetCore_depth : (resetCore s).depth = Config.freeDepth s.draws := rfl
@[simp] theorem resetCore_codeWidth : (resetCore s).codeWidth = Config.freeCodeWidth s.draws := rfl
@[simp] theorem resetCore_prevCode : (resetCore s).prevCode = Config.freePrevCode s.draws := rfl
@[simp] theorem resetCore_nextCode : (resetCore s).nextCode = Config.freeNextCode s.draws := rfl
@[simp] theorem resetCore_acc : (resetCore s).acc = Config.freeAcc s.draws := rfl
@[simp] theorem resetCore_accBits : (resetCore s).accBits = Config.freeAccBits s.draws := rfl
@[simp] theorem resetCore_blkCount : (resetCore s).blkCount = Config.freeBlkCount s.draws := rfl
@[simp] theorem resetCore_blkBuf : (resetCore s).blkBuf = [] := rfl
@[simp] theorem resetCore_hkey : (resetCore s).hkey = Memory.ofPairs Config.hsize (Config.freeHkey s.draws) := rfl
@[simp] theorem resetCore_hcode : (resetCore s).hcode = [] := rfl
@[simp] theorem resetCore_cmd : (resetCore s).cmd = s.cmd := rfl
@[simp] theorem resetCore_rsp : (resetCore s).rsp = s.rsp := rfl
@[simp] theorem resetCore_sink : (resetCore s).sink = s.sink := rfl
@[simp] theorem resetCore_answers : (resetCore s).answers = s.answers := rfl
@[simp] theorem resetCore_resetPin : (resetCore s).resetPin = s.resetPin := rfl
@[simp] theorem resetCore_draws : (resetCore s).draws = s.draws + 1 := rfl

/-! ### widthStep -/

@[simp] theorem widthStep_phase (c : Code) : (widthStep c s).phase = s.phase := by
  unfold widthStep; split <;> [rfl; (split <;> rfl)]
@[simp] theorem widthStep_lastErr (c : Code) : (widthStep c s).lastErr = s.lastErr := by
  unfold widthStep; split <;> [rfl; (split <;> rfl)]
@[simp] theorem widthStep_depth (c : Code) : (widthStep c s).depth = s.depth := by
  unfold widthStep; split <;> [rfl; (split <;> rfl)]
@[simp] theorem widthStep_prevCode (c : Code) : (widthStep c s).prevCode = s.prevCode := by
  unfold widthStep; split <;> [rfl; (split <;> rfl)]
@[simp] theorem widthStep_nextCode (c : Code) : (widthStep c s).nextCode = s.nextCode := by
  unfold widthStep; split <;> [rfl; (split <;> rfl)]
@[simp] theorem widthStep_acc (c : Code) : (widthStep c s).acc = s.acc := by
  unfold widthStep; split <;> [rfl; (split <;> rfl)]
@[simp] theorem widthStep_accBits (c : Code) : (widthStep c s).accBits = s.accBits := by
  unfold widthStep; split <;> [rfl; (split <;> rfl)]
@[simp] theorem widthStep_blkCount (c : Code) : (widthStep c s).blkCount = s.blkCount := by
  unfold widthStep; split <;> [rfl; (split <;> rfl)]
@[simp] theorem widthStep_blkBuf (c : Code) : (widthStep c s).blkBuf = s.blkBuf := by
  unfold widthStep; split <;> [rfl; (split <;> rfl)]
@[simp] theorem widthStep_hkey (c : Code) : (widthStep c s).hkey = s.hkey := by
  unfold widthStep; split <;> [rfl; (split <;> rfl)]
@[simp] theorem widthStep_hcode (c : Code) : (widthStep c s).hcode = s.hcode := by
  unfold widthStep; split <;> [rfl; (split <;> rfl)]
@[simp] theorem widthStep_cmd (c : Code) : (widthStep c s).cmd = s.cmd := by
  unfold widthStep; split <;> [rfl; (split <;> rfl)]
@[simp] theorem widthStep_rsp (c : Code) : (widthStep c s).rsp = s.rsp := by
  unfold widthStep; split <;> [rfl; (split <;> rfl)]
@[simp] theorem widthStep_sink (c : Code) : (widthStep c s).sink = s.sink := by
  unfold widthStep; split <;> [rfl; (split <;> rfl)]
@[simp] theorem widthStep_answers (c : Code) : (widthStep c s).answers = s.answers := by
  unfold widthStep; split <;> [rfl; (split <;> rfl)]
@[simp] theorem widthStep_resetPin (c : Code) : (widthStep c s).resetPin = s.resetPin := by
  unfold widthStep; split <;> [rfl; (split <;> rfl)]
@[simp] theorem widthStep_draws (c : Code) : (widthStep c s).draws = s.draws := by
  unfold widthStep; split <;> [rfl; (split <;> rfl)]

end Sys2Proof.Machine
end

