-- ==== Sys2Proof/Laws/Flow.lean ====
section
/-! SUPPORT. What a sequence of sink writes can do, and what every internal procedure leaves alone: the inversion
lemmas of Flow, SinkWrite, FlushBlock, ByteOut and EmitCode that later proofs cite instead of unfolding them. -/

namespace Sys2Proof.Machine

/-! ### Sequencing -/

@[simp] theorem Flow.go_andThen (s : State) (f : State → Flow) : (Flow.go s).andThen f = f s := rfl

@[simp] theorem Flow.sinkFail_andThen (s : State) (f : State → Flow) : (Flow.sinkFail s).andThen f = .sinkFail s := rfl

@[simp] theorem Flow.stuck_andThen (r : Fault) (f : State → Flow) : (Flow.stuck r).andThen f = .stuck r := rfl

theorem Flow.andThen_go {f : Flow} {g : State → Flow} {t : State} :
    f.andThen g = .go t ↔ ∃ s, f = .go s ∧ g s = .go t := by
  cases f <;> simp

theorem Flow.andThen_sinkFail {f : Flow} {g : State → Flow} {t : State} :
    f.andThen g = .sinkFail t ↔ f = .sinkFail t ∨ ∃ s, f = .go s ∧ g s = .sinkFail t := by
  cases f <;> simp

theorem Flow.andThen_stuck {f : Flow} {g : State → Flow} {r : Fault} :
    f.andThen g = .stuck r ↔ f = .stuck r ∨ ∃ s, f = .go s ∧ g s = .stuck r := by
  cases f <;> simp

theorem Flow.andThen_assoc (f : Flow) (g h : State → Flow) :
    (f.andThen g).andThen h = f.andThen fun s => (g s).andThen h := by
  cases f <;> rfl

/-! ### Bytes written and refused -/

/-- From `s` to `t` the sink has accepted exactly `bs`, one `ACK` each. -/
def Wrote (s t : State) (bs : List Byte) : Prop :=
  t.sink = s.sink ++ bs ∧ sinkAccepts bs.length s ∧ t.answers = s.answers.drop bs.length

/-- From `s` to `t` the sink has accepted exactly `bs` and has then failed one byte. -/
def FailedAfter (s t : State) (bs : List Byte) : Prop :=
  t.sink = s.sink ++ bs ∧ s.answers = List.replicate bs.length .ack ++ .fail :: t.answers

theorem sinkAccepts_zero (s : State) : sinkAccepts 0 s := by simp [sinkAccepts]

theorem sinkAccepts_of_nil {s : State} (h : s.answers = []) (n : Nat) : sinkAccepts n s := by simp [sinkAccepts, h]

theorem sinkAccepts_mono {s : State} {m n : Nat} (h : sinkAccepts n s) (hm : m ≤ n) : sinkAccepts m s := by
  intro a ha
  exact h a (List.take_subset_take_left _ hm ha)

theorem sinkAccepts_add {s t : State} {m n : Nat} (ht : t.answers = s.answers.drop m) :
    sinkAccepts (m + n) s ↔ sinkAccepts m s ∧ sinkAccepts n t := by
  unfold sinkAccepts
  rw [ht, List.take_add]
  constructor
  · intro h
    exact ⟨fun a ha => h a (List.mem_append_left _ ha), fun a ha => h a (List.mem_append_right _ ha)⟩
  · rintro ⟨h1, h2⟩ a ha
    rcases List.mem_append.mp ha with h | h
    · exact h1 a h
    · exact h2 a h

theorem sinkAccepts_prefix {s : State} {n : Nat} (h : sinkAccepts n s) (hn : n ≤ s.answers.length) :
    s.answers = List.replicate n .ack ++ s.answers.drop n := by
  have h1 : s.answers.take n = List.replicate n .ack :=
    List.eq_replicate_iff.mpr ⟨by simp [hn], fun a ha => h a ha⟩
  rw [← h1, List.take_append_drop]

theorem Wrote.refl (s : State) : Wrote s s [] := ⟨by simp, sinkAccepts_zero s, by simp⟩

theorem Wrote.trans {s t u : State} {a b : List Byte} (h1 : Wrote s t a) (h2 : Wrote t u b) : Wrote s u (a ++ b) := by
  refine ⟨by rw [h2.1, h1.1, List.append_assoc], ?_, ?_⟩
  · rw [List.length_append]
    exact (sinkAccepts_add h1.2.2).mpr ⟨h1.2.1, h2.2.1⟩
  · rw [h2.2.2, h1.2.2, List.drop_drop, List.length_append]

theorem Wrote.fail {s t u : State} {a b : List Byte} (h1 : Wrote s t a) (h2 : FailedAfter t u b) :
    FailedAfter s u (a ++ b) := by
  refine ⟨by rw [h2.1, h1.1, List.append_assoc], ?_⟩
  have hlen : a.length ≤ s.answers.length := by
    by_contra hc
    have : t.answers = [] := by rw [h1.2.2]; exact List.drop_eq_nil_of_le (by omega)
    rw [h2.2] at this
    simp at this
  rw [sinkAccepts_prefix h1.2.1 hlen, ← h1.2.2, h2.2, List.length_append, List.replicate_add, List.append_assoc]

/-! ### What a procedure leaves alone -/

/-- The items no internal procedure touches. -/
structure EnvFrame (s t : State) : Prop where
  lastErr : t.lastErr = s.lastErr
  depth : t.depth = s.depth
  cmd : t.cmd = s.cmd
  rsp : t.rsp = s.rsp
  resetPin : t.resetPin = s.resetPin
  draws : t.draws = s.draws

/-- The items code output touches none of: it writes only `ACC`, `ACC_BITS`, `CODE_WIDTH`, `BLK_COUNT`, `BLK_BUF` and
the output channel (rules R125, R141, R142). -/
structure EmitFrame (s t : State) : Prop extends EnvFrame s t where
  phase : t.phase = s.phase
  prevCode : t.prevCode = s.prevCode
  nextCode : t.nextCode = s.nextCode
  hkey : t.hkey = s.hkey
  hcode : t.hcode = s.hcode

theorem EnvFrame.refl (s : State) : EnvFrame s s := ⟨rfl, rfl, rfl, rfl, rfl, rfl⟩

theorem EnvFrame.trans {s t u : State} (h : EnvFrame s t) (h' : EnvFrame t u) : EnvFrame s u :=
  ⟨h'.lastErr.trans h.lastErr, h'.depth.trans h.depth, h'.cmd.trans h.cmd, h'.rsp.trans h.rsp,
    h'.resetPin.trans h.resetPin, h'.draws.trans h.draws⟩

theorem EmitFrame.refl (s : State) : EmitFrame s s := ⟨EnvFrame.refl s, rfl, rfl, rfl, rfl, rfl⟩

theorem EmitFrame.trans {s t u : State} (h : EmitFrame s t) (h' : EmitFrame t u) : EmitFrame s u :=
  ⟨h.toEnvFrame.trans h'.toEnvFrame, h'.phase.trans h.phase, h'.prevCode.trans h.prevCode,
    h'.nextCode.trans h.nextCode, h'.hkey.trans h.hkey, h'.hcode.trans h.hcode⟩

/-- How a procedure run from `s` may end, for a frame `R`: every byte it offered was accepted or the first that was
not is the last it offered. -/
def Ends (R : State → State → Prop) (s : State) : Flow → Prop
  | .go t => R s t ∧ ∃ bs, Wrote s t bs
  | .sinkFail t => R s t ∧ ∃ bs, FailedAfter s t bs
  | .stuck _ => True

/-- Procedures one after the other. -/
theorem Ends.andThen {R : State → State → Prop} {s : State} {f : Flow} {g : State → Flow} (hf : Ends R s f)
    (htrans : ∀ a b c, R a b → R b c → R a c) (hg : ∀ t, f = .go t → Ends R t (g t)) : Ends R s (f.andThen g) := by
  cases f with
  | stuck r => trivial
  | sinkFail t => exact hf
  | go t =>
    obtain ⟨hr, bs, hw⟩ := hf
    have h2 := hg t rfl
    simp only [Flow.go_andThen]
    cases hgt : g t with
    | stuck r => trivial
    | go u =>
      rw [hgt] at h2
      obtain ⟨hr', bs', hw'⟩ := h2
      exact ⟨htrans _ _ _ hr hr', bs ++ bs', hw.trans hw'⟩
    | sinkFail u =>
      rw [hgt] at h2
      obtain ⟨hr', bs', hw'⟩ := h2
      exact ⟨htrans _ _ _ hr hr', bs ++ bs', hw.fail hw'⟩

/-- A procedure that goes on without a sink write. -/
theorem Ends.pure {R : State → State → Prop} {s t : State} (h : R s t) (hs : t.sink = s.sink)
    (ha : t.answers = s.answers) : Ends R s (.go t) :=
  ⟨h, [], by simp [hs], sinkAccepts_zero s, by simp [ha]⟩

theorem Ends.mono {R S : State → State → Prop} (h : ∀ a b, R a b → S a b) {s : State} {f : Flow} (hf : Ends R s f) :
    Ends S s f := by
  cases f with
  | stuck r => trivial
  | go t => exact ⟨h _ _ hf.1, hf.2⟩
  | sinkFail t => exact ⟨h _ _ hf.1, hf.2⟩

/-- Nothing changes but the output channel. -/
def OnlySink (s t : State) : Prop := t = { s with sink := t.sink, answers := t.answers }

theorem OnlySink.trans {s t u : State} (h : OnlySink s t) (h' : OnlySink t u) : OnlySink s u := by
  unfold OnlySink at *
  rw [h', h]

theorem OnlySink.emit {s t : State} (h : OnlySink s t) : EmitFrame s t := by
  unfold OnlySink at h
  rw [h]
  exact ⟨⟨rfl, rfl, rfl, rfl, rfl, rfl⟩, rfl, rfl, rfl, rfl, rfl⟩

theorem sinkWrite_ends (b : Byte) (s : State) : Ends OnlySink s (sinkWrite b s) := by
  unfold sinkWrite
  split
  · next h => exact ⟨by simp [OnlySink], [b], rfl, sinkAccepts_of_nil h _, by simp [h]⟩
  · next r h => exact ⟨by simp [OnlySink], [b], rfl, by simp [sinkAccepts, h], by simp [h]⟩
  · next r h => exact ⟨by simp [OnlySink], [], by simp, by simp [h]⟩
  · trivial

theorem sinkWriteAll_ends (bs : List Byte) (s : State) : Ends OnlySink s (sinkWriteAll bs s) := by
  induction bs generalizing s with
  | nil => exact Ends.pure (by simp [OnlySink]) rfl rfl
  | cons b bs ih => exact (sinkWrite_ends b s).andThen @OnlySink.trans fun t _ => ih t

theorem flushBlock_ends (s : State) : Ends EmitFrame s (flushBlock s) := by
  unfold flushBlock
  split
  · exact Ends.pure (EmitFrame.refl s) rfl rfl
  · split
    · trivial
    · refine ((sinkWriteAll_ends _ s).mono @OnlySink.emit).andThen @EmitFrame.trans fun t _ => ?_
      exact Ends.pure ⟨⟨rfl, rfl, rfl, rfl, rfl, rfl⟩, rfl, rfl, rfl, rfl, rfl⟩ rfl rfl

theorem storeByte_emitFrame (b : Byte) (s : State) : EmitFrame s (storeByte b s) :=
  ⟨⟨rfl, rfl, rfl, rfl, rfl, rfl⟩, rfl, rfl, rfl, rfl, rfl⟩

theorem dropByte_emitFrame (s : State) : EmitFrame s (dropByte s) :=
  ⟨⟨rfl, rfl, rfl, rfl, rfl, rfl⟩, rfl, rfl, rfl, rfl, rfl⟩

theorem clearAcc_emitFrame (s : State) : EmitFrame s (clearAcc s) :=
  ⟨⟨rfl, rfl, rfl, rfl, rfl, rfl⟩, rfl, rfl, rfl, rfl, rfl⟩

theorem byteOut_ends (b : Byte) (s : State) : Ends EmitFrame s (byteOut b s) := by
  have h : Ends EmitFrame s (.go (storeByte b s)) := Ends.pure (storeByte_emitFrame b s) rfl rfl
  unfold byteOut
  split
  · trivial
  · split
    · exact h.andThen @EmitFrame.trans (g := flushBlock) fun t _ => flushBlock_ends t
    · exact h

theorem drain_ends (n : Nat) (s : State) : Ends EmitFrame s (drain n s) := by
  induction n generalizing s with
  | zero => exact Ends.pure (EmitFrame.refl s) rfl rfl
  | succ n ih =>
    unfold drain
    split
    · refine (byteOut_ends _ s).andThen @EmitFrame.trans fun t _ => ?_
      exact (Ends.pure (dropByte_emitFrame t) rfl rfl).andThen @EmitFrame.trans (g := drain n) fun u _ => ih u
    · exact Ends.pure (EmitFrame.refl s) rfl rfl

theorem padOut_ends (s : State) : Ends EmitFrame s (padOut s) := by
  unfold padOut
  split
  · exact Ends.pure (EmitFrame.refl s) rfl rfl
  · refine (byteOut_ends _ s).andThen @EmitFrame.trans fun t _ => ?_
    exact Ends.pure (clearAcc_emitFrame t) rfl rfl

theorem pack_emitFrame (c : Code) (s : State) : EmitFrame s (pack c s) :=
  ⟨⟨rfl, rfl, rfl, rfl, rfl, rfl⟩, rfl, rfl, rfl, rfl, rfl⟩

theorem widthStep_emitFrame (c : Code) (s : State) : EmitFrame s (widthStep c s) := by
  constructor <;> first | constructor | skip
  all_goals simp

/-- What `EmitCode` leaves alone, and that its bytes reach the sink in order up to the first that fails. -/
theorem emitCode_ends (c : Code) (s : State) : Ends EmitFrame s (emitCode c s) := by
  unfold emitCode
  have hp : Ends EmitFrame s (.go (pack c s)) := Ends.pure (pack_emitFrame c s) rfl rfl
  have hd : Ends EmitFrame s (drain 3 (pack c s)) :=
    hp.andThen @EmitFrame.trans (g := drain 3) fun t _ => drain_ends 3 t
  refine hd.andThen @EmitFrame.trans fun t _ => ?_
  have hw : Ends EmitFrame t (.go (widthStep c t)) := Ends.pure (widthStep_emitFrame c t) (by simp) (by simp)
  split
  · refine hw.andThen @EmitFrame.trans (g := fun u => (padOut u).andThen flushBlock) fun u _ => ?_
    exact (padOut_ends _).andThen @EmitFrame.trans fun v _ => flushBlock_ends v
  · exact hw

theorem terminator_ends (s : State) : Ends EmitFrame s (terminator s) := (sinkWrite_ends _ s).mono @OnlySink.emit

theorem closeStream_ends (s : State) : Ends EnvFrame s (closeStream s) := by
  unfold closeStream
  have h : Ends EnvFrame s ((emitCode (eofWord s.depth) s).andThen terminator) :=
    ((emitCode_ends _ s).andThen @EmitFrame.trans fun t _ => terminator_ends t).mono @EmitFrame.toEnvFrame
  refine h.andThen @EnvFrame.trans fun t _ => ?_
  exact Ends.pure ⟨rfl, rfl, rfl, rfl, rfl, rfl⟩ rfl rfl

theorem roomTest_ends (slot : Nat) (p : Code) (c : BitVec 8) (s : State) : Ends EnvFrame s (roomTest slot p c s) := by
  unfold roomTest
  split
  · exact Ends.pure ⟨rfl, rfl, rfl, rfl, rfl, rfl⟩ rfl rfl
  · have h : Ends EnvFrame s (.go (restartCodes (clearTable s))) :=
      Ends.pure ⟨rfl, rfl, rfl, rfl, rfl, rfl⟩ rfl rfl
    exact h.andThen @EnvFrame.trans (g := emitCode (clearWord s.depth))
      fun t _ => (emitCode_ends _ t).mono @EmitFrame.toEnvFrame

theorem nextSymbol_ends (c : BitVec 8) (s : State) : Ends EnvFrame s (nextSymbol c s) := by
  unfold nextSymbol
  split
  · exact Ends.pure ⟨rfl, rfl, rfl, rfl, rfl, rfl⟩ rfl rfl
  · refine ((emitCode_ends _ s).mono @EmitFrame.toEnvFrame).andThen @EnvFrame.trans fun t _ => ?_
    have h : Ends EnvFrame t (.go (startString c t)) := Ends.pure ⟨rfl, rfl, rfl, rfl, rfl, rfl⟩ rfl rfl
    exact h.andThen @EnvFrame.trans (g := roomTest _ _ _) fun u _ => roomTest_ends _ _ _ u
  · trivial

end Sys2Proof.Machine
end

