-- ==== Sys2Proof/Laws/Memory.lean ====
section
/-! SUPPORT. The laws of tables and buffers: a read after a write, every operation keeps the canonical form, and a
canonical table is determined by what its entries read as. -/

namespace Sys2Proof.Machine

variable {w : Nat}

@[simp] theorem Memory.read_nil (i : Nat) : Memory.read ([] : Memory w) i = none := rfl

@[simp] theorem Memory.read_write_same (m : Memory w) (i : Nat) (v : BitVec w) :
    Memory.read (Memory.write m i v) i = some v := by
  induction m with
  | nil => simp [Memory.write, Memory.read]
  | cons e m ih =>
    obtain ⟨j, u⟩ := e
    by_cases h1 : i < j
    · simp [Memory.write, Memory.read, h1]
    · by_cases h2 : i = j
      · simp [Memory.write, Memory.read, h2]
      · simp [Memory.write, Memory.read, h1, h2, Ne.symm h2, ih]

theorem Memory.read_write_other (m : Memory w) {i j : Nat} (v : BitVec w) (h : j ≠ i) :
    Memory.read (Memory.write m i v) j = Memory.read m j := by
  induction m with
  | nil => simp [Memory.write, Memory.read, Ne.symm h]
  | cons e m ih =>
    obtain ⟨n, u⟩ := e
    by_cases h1 : i < n
    · by_cases h3 : j < i
      · have h4 : j < n := by omega
        have h5 : n ≠ j := by omega
        simp [Memory.write, Memory.read, h1, Ne.symm h, h3, h4, h5]
      · simp [Memory.write, Memory.read, h1, Ne.symm h, h3]
    · by_cases h2 : i = n
      · subst h2
        simp [Memory.write, Memory.read, Ne.symm h]
      · by_cases h3 : n = j
        · subst h3
          simp [Memory.write, Memory.read, h1, h2]
        · simp [Memory.write, Memory.read, h1, h2, h3, ih]

theorem Memory.read_write (m : Memory w) (i j : Nat) (v : BitVec w) :
    Memory.read (Memory.write m i v) j = if j = i then some v else Memory.read m j := by
  split
  · next h => subst h; simp
  · next h => exact Memory.read_write_other m v h

/-! ### The canonical form -/

theorem Memory.wfFrom_mono {b lo lo' : Nat} {m : Memory w} (h : Memory.wfFrom b lo m = true) (hl : lo' ≤ lo) :
    Memory.wfFrom b lo' m = true := by
  cases m with
  | nil => rfl
  | cons e m =>
    simp only [Memory.wfFrom, Bool.and_eq_true, decide_eq_true_eq] at h ⊢
    exact ⟨⟨by omega, h.1.2⟩, h.2⟩

theorem Memory.read_bounds {b lo : Nat} {m : Memory w} (h : Memory.wfFrom b lo m = true) {i : Nat} {v : BitVec w}
    (hr : Memory.read m i = some v) : lo ≤ i ∧ i < b := by
  induction m generalizing lo with
  | nil => simp [Memory.read] at hr
  | cons e m ih =>
    obtain ⟨j, u⟩ := e
    simp only [Memory.wfFrom, Bool.and_eq_true, decide_eq_true_eq] at h
    simp only [Memory.read] at hr
    split at hr
    · omega
    · split at hr
      · cases hr
      · have := ih h.2 hr
        omega

theorem Memory.wfFrom_write {b lo i : Nat} (m : Memory w) (v : BitVec w) (h : Memory.wfFrom b lo m = true)
    (hl : lo ≤ i) (hb : i < b) : Memory.wfFrom b lo (Memory.write m i v) = true := by
  induction m generalizing lo with
  | nil => simp [Memory.write, Memory.wfFrom, hl, hb]
  | cons e m ih =>
    obtain ⟨j, u⟩ := e
    simp only [Memory.wfFrom, Bool.and_eq_true, decide_eq_true_eq] at h
    by_cases h1 : i < j
    · have hj : i + 1 ≤ j := h1
      simp [Memory.write, Memory.wfFrom, h1, hl, hb, hj, h.1.2, h.2]
    · by_cases h2 : i = j
      · subst h2
        simp [Memory.write, Memory.wfFrom, hl, hb, h.2]
      · have := ih h.2 (by omega)
        simp [Memory.write, Memory.wfFrom, h1, h2, h.1.1, h.1.2, this]

@[simp] theorem Memory.wf_nil (b : Nat) : Memory.wf b ([] : Memory w) = true := rfl

theorem Memory.wf_write {b i : Nat} (m : Memory w) (v : BitVec w) (h : Memory.wf b m = true) (hb : i < b) :
    Memory.wf b (Memory.write m i v) = true := Memory.wfFrom_write m v h (Nat.zero_le i) hb

theorem Memory.wf_ofPairs (b : Nat) (l : List (Nat × BitVec w)) : Memory.wf b (Memory.ofPairs b l) = true := by
  induction l with
  | nil => rfl
  | cons e l ih =>
    obtain ⟨i, v⟩ := e
    unfold Memory.ofPairs
    split
    · exact Memory.wf_write _ v ih ‹_›
    · exact ih

theorem Memory.read_lt {b : Nat} {m : Memory w} (h : Memory.wf b m = true) {i : Nat} {v : BitVec w}
    (hr : Memory.read m i = some v) : i < b := (Memory.read_bounds h hr).2

theorem Memory.read_none_of_lt {b lo : Nat} {m : Memory w} (h : Memory.wfFrom b lo m = true) {i : Nat} (hi : i < lo) :
    Memory.read m i = none := by
  cases hr : Memory.read m i with
  | none => rfl
  | some v => have := Memory.read_bounds h hr; omega

theorem Memory.read_cons_self (m : Memory w) (i : Nat) (v : BitVec w) : Memory.read ((i, v) :: m) i = some v := by
  simp [Memory.read]

theorem Memory.read_cons_gt (m : Memory w) {i j : Nat} (v : BitVec w) (h : j < i) :
    Memory.read ((j, v) :: m) i = Memory.read m i := by
  simp [Memory.read, Nat.ne_of_lt h, Nat.not_lt_of_lt h]

/-- A canonical table is determined by its entries. -/
theorem Memory.ext_read {b lo : Nat} {m n : Memory w} (hm : Memory.wfFrom b lo m = true)
    (hn : Memory.wfFrom b lo n = true) (h : ∀ i, Memory.read m i = Memory.read n i) : m = n := by
  induction m generalizing lo n with
  | nil =>
    cases n with
    | nil => rfl
    | cons e n =>
      obtain ⟨j, u⟩ := e
      have := h j
      simp [Memory.read] at this
  | cons e m ih =>
    obtain ⟨i, v⟩ := e
    simp only [Memory.wfFrom, Bool.and_eq_true, decide_eq_true_eq] at hm
    cases n with
    | nil => have := h i; simp [Memory.read] at this
    | cons e' n =>
      obtain ⟨j, u⟩ := e'
      simp only [Memory.wfFrom, Bool.and_eq_true, decide_eq_true_eq] at hn
      have hij : i = j := by
        rcases Nat.lt_trichotomy i j with hlt | heq | hgt
        · have := h i
          rw [Memory.read_cons_self] at this
          simp [Memory.read, Nat.ne_of_gt hlt, hlt] at this
        · exact heq
        · have := h j
          rw [Memory.read_cons_self] at this
          simp [Memory.read, Nat.ne_of_gt hgt, hgt] at this
      subst hij
      have hv : v = u := by
        have := h i
        simpa [Memory.read] using this
      subst hv
      have : m = n := by
        refine ih hm.2 hn.2 fun x => ?_
        by_cases hx : i < x
        · have := h x
          rwa [Memory.read_cons_gt m v hx, Memory.read_cons_gt n v hx] at this
        · rw [Memory.read_none_of_lt hm.2 (by omega), Memory.read_none_of_lt hn.2 (by omega)]
      rw [this]

theorem Memory.length_write_new {b lo i : Nat} (m : Memory w) (v : BitVec w) (h : Memory.wfFrom b lo m = true)
    (hr : Memory.read m i = none) : (Memory.write m i v).length = m.length + 1 := by
  induction m generalizing lo with
  | nil => rfl
  | cons e m ih =>
    obtain ⟨j, u⟩ := e
    simp only [Memory.wfFrom, Bool.and_eq_true, decide_eq_true_eq] at h
    by_cases h1 : i < j
    · simp [Memory.write, h1]
    · by_cases h2 : i = j
      · subst h2; simp [Memory.read] at hr
      · have hr' : Memory.read m i = none := by
          rw [Memory.read_cons_gt m u (by omega)] at hr
          exact hr
        simp [Memory.write, h1, h2, ih h.2 hr']

/-- Fewer entries than indexes: some index holds no value. -/
theorem Memory.exists_unlisted {b lo : Nat} {m : Memory w} (h : Memory.wfFrom b lo m = true)
    (hl : lo + m.length < b) : ∃ i, lo ≤ i ∧ i < b ∧ Memory.read m i = none := by
  induction m generalizing lo with
  | nil => exact ⟨lo, Nat.le_refl lo, by simpa using hl, rfl⟩
  | cons e m ih =>
    obtain ⟨j, u⟩ := e
    simp only [Memory.wfFrom, Bool.and_eq_true, decide_eq_true_eq] at h
    simp only [List.length_cons] at hl
    by_cases hj : j = lo
    · subst hj
      obtain ⟨i, h1, h2, h3⟩ := ih h.2 (by omega)
      exact ⟨i, by omega, h2, by rw [Memory.read_cons_gt m u (by omega)]; exact h3⟩
    · refine ⟨lo, Nat.le_refl lo, by omega, ?_⟩
      have : lo < j := by omega
      simp [Memory.read, Nat.ne_of_gt this, this]

end Sys2Proof.Machine
end

