-- ==== Sys2Proof/Laws/Output.lean ====
section
/-! SUPPORT. What code output puts out: SinkWrite, FlushBlock, ByteOut, the packer and the drain, as bytes and as bits
(42_code_output.md rules R126 to R131, 43_subblock_framing.md rules R140 to R142). -/

namespace Sys2Proof.Machine

/-! ### Sink writes -/

theorem sinkWriteAll_go {bs : List Byte} {s t : State} :
    sinkWriteAll bs s = .go t ↔
      sinkAccepts bs.length s ∧ t = { s with sink := s.sink ++ bs, answers := s.answers.drop bs.length } := by
  induction bs generalizing s with
  | nil => simp [sinkWriteAll, sinkAccepts, eq_comm]
  | cons b bs ih =>
    unfold sinkWriteAll sinkWrite
    split
    · next h => simp [ih, sinkAccepts, h]
    · next r h =>
      simp only [Flow.go_andThen, ih]
      constructor
      · rintro ⟨h1, h2⟩
        refine ⟨?_, by simpa [h] using h2⟩
        intro a ha
        simp only [h, List.length_cons, List.take_succ_cons, List.mem_cons] at ha
        exact ha.elim id (h1 a)
      · rintro ⟨h1, h2⟩
        refine ⟨fun a ha => h1 a ?_, by simpa [h] using h2⟩
        simp only [h, List.length_cons, List.take_succ_cons, List.mem_cons]
        exact .inr ha
    · next r h =>
      simp only [Flow.sinkFail_andThen, reduceCtorEq, false_iff, not_and]
      intro h1
      have := h1 .fail (by simp [h])
      cases this
    · next r h =>
      simp only [Flow.stuck_andThen, reduceCtorEq, false_iff, not_and]
      intro h1
      have := h1 .silent (by simp [h])
      cases this

theorem sinkWrite_go {b : Byte} {s t : State} :
    sinkWrite b s = .go t ↔
      sinkAccepts 1 s ∧ t = { s with sink := s.sink ++ [b], answers := s.answers.drop 1 } := by
  have h : sinkWrite b s = sinkWriteAll [b] s := by
    simp only [sinkWriteAll]
    cases sinkWrite b s <;> rfl
  rw [h, sinkWriteAll_go]
  rfl

/-- The only stop a sink write makes. -/
theorem sinkWriteAll_stuck {bs : List Byte} {s : State} {r : Fault} (h : sinkWriteAll bs s = .stuck r) :
    r = .sinkNeverAnswers := by
  induction bs generalizing s with
  | nil => cases h
  | cons b bs ih =>
    unfold sinkWriteAll sinkWrite at h
    split at h
    · exact ih h
    · exact ih h
    · cases h
    · cases h; rfl

/-! ### The sub-block buffer -/

theorem blkBytes_length (s : State) : (blkBytes s).length = s.blkCount.toNat := by simp [blkBytes]

theorem storeByte_count {b : Byte} {s : State} (h : s.blkCount.toNat ≤ 253) :
    (storeByte b s).blkCount.toNat = s.blkCount.toNat + 1 := by
  simp only [storeByte, BitVec.toNat_add, BitVec.toNat_ofNat]
  omega

theorem blkBytes_storeByte {b : Byte} {s : State} (h : s.blkCount.toNat ≤ 253) :
    blkBytes (storeByte b s) = blkBytes s ++ [b] := by
  unfold blkBytes
  rw [storeByte_count h, List.range_succ, List.map_append]
  congr 1
  · apply List.map_congr_left
    intro j hj
    have : j ≠ s.blkCount.toNat := Nat.ne_of_lt (List.mem_range.mp hj)
    simp only [blkByte, storeByte]
    rw [Memory.read_write_other _ _ this]
  · simp [blkByte, storeByte]

/-- The state after the waiting bytes have been accepted as one sub-block. -/
def flushed (s : State) : State :=
  { s with
    sink := s.sink ++ (s.blkCount :: blkBytes s)
    answers := s.answers.drop (s.blkCount.toNat + 1)
    blkCount := 0#8 }

@[simp] theorem flushed_blkCount (s : State) : (flushed s).blkCount = 0#8 := rfl
@[simp] theorem flushed_acc (s : State) : (flushed s).acc = s.acc := rfl
@[simp] theorem flushed_accBits (s : State) : (flushed s).accBits = s.accBits := rfl
@[simp] theorem flushed_codeWidth (s : State) : (flushed s).codeWidth = s.codeWidth := rfl
@[simp] theorem flushed_sink (s : State) : (flushed s).sink = s.sink ++ (s.blkCount :: blkBytes s) := rfl
@[simp] theorem flushed_answers (s : State) : (flushed s).answers = s.answers.drop (s.blkCount.toNat + 1) := rfl

theorem flushBlock_go {s t : State} (hc : s.blkCount.toNat ≤ 254) :
    flushBlock s = .go t ↔
      (s.blkCount = 0#8 ∧ t = s) ∨ (s.blkCount ≠ 0#8 ∧ sinkAccepts (s.blkCount.toNat + 1) s ∧ t = flushed s) := by
  unfold flushBlock
  by_cases h0 : s.blkCount = 0#8
  · simp [h0, eq_comm]
  · have h1 : ¬ 254 < s.blkCount.toNat := by omega
    simp only [h0, if_false, Config.blkMax, h1, Flow.andThen_go, sinkWriteAll_go, List.length_cons,
      blkBytes_length, Flow.go.injEq, false_and, false_or, not_false_eq_true, true_and, ne_eq, flushed]
    constructor
    · rintro ⟨u, ⟨h2, rfl⟩, rfl⟩
      exact ⟨h2, rfl⟩
    · rintro ⟨h2, rfl⟩
      exact ⟨_, ⟨h2, rfl⟩, rfl⟩

theorem flushBlock_stuck {s : State} {r : Fault} (hc : s.blkCount.toNat ≤ 254) (h : flushBlock s = .stuck r) :
    r = .sinkNeverAnswers := by
  unfold flushBlock at h
  split at h
  · cases h
  · split at h
    · next h1 => simp only [Config.blkMax] at h1; omega
    · rcases Flow.andThen_stuck.mp h with h | ⟨u, _, h⟩
      · exact sinkWriteAll_stuck h
      · cases h

theorem byteOut_go {b : Byte} {s t : State} (hc : s.blkCount.toNat ≤ 253) :
    byteOut b s = .go t ↔
      (s.blkCount.toNat < 253 ∧ t = storeByte b s) ∨
      (s.blkCount.toNat = 253 ∧ sinkAccepts 255 s ∧ t = flushed (storeByte b s)) := by
  have h1 : ¬ 254 ≤ s.blkCount.toNat := by omega
  have h2 := storeByte_count (b := b) hc
  have h3 : byteOut b s =
      if 254 ≤ (storeByte b s).blkCount.toNat then flushBlock (storeByte b s) else .go (storeByte b s) := by
    simp only [byteOut, Config.blkMax, h1, if_false]
  rw [h3]
  by_cases h4 : s.blkCount.toNat = 253
  · have h5 : (storeByte b s).blkCount ≠ 0#8 := by
      intro h; rw [h] at h2; simp at h2
    rw [if_pos (by omega), flushBlock_go (by omega)]
    simp only [h5, false_and, false_or, ne_eq, not_false_eq_true, true_and, h2, h4, Nat.lt_irrefl]
    exact Iff.rfl
  · rw [if_neg (by omega)]
    have : s.blkCount.toNat < 253 := by omega
    simp [h4, this, eq_comm]

theorem byteOut_stuck {b : Byte} {s : State} {r : Fault} (hc : s.blkCount.toNat ≤ 253)
    (h : byteOut b s = .stuck r) : r = .sinkNeverAnswers := by
  have h1 : ¬ 254 ≤ s.blkCount.toNat := by omega
  have h3 : byteOut b s =
      if 254 ≤ (storeByte b s).blkCount.toNat then flushBlock (storeByte b s) else .go (storeByte b s) := by
    simp only [byteOut, Config.blkMax, h1, if_false]
  rw [h3] at h
  split at h
  · exact flushBlock_stuck (by rw [storeByte_count hc]; omega) h
  · cases h

/-! ### Bytes: whole sub-blocks to the sink, the rest to the buffer -/

/-- From `s` to `t` the data bytes `bs` have been put out: the sink has got whole sub-blocks of 254, each after its
length byte, and what is left waits in `BLK_BUF` (rules R141, R142). -/
def PutOut (s t : State) (bs : List Byte) : Prop :=
  ∃ blocks : List (List Byte), (∀ k ∈ blocks, k.length = 254) ∧
    t.sink = s.sink ++ blocks.flatMap (fun k => 254#8 :: k) ∧ blocks.flatten ++ blkBytes t = blkBytes s ++ bs

theorem PutOut.refl (s : State) : PutOut s s [] := ⟨[], by simp, by simp, by simp⟩

theorem PutOut.trans {s t u : State} {a b : List Byte} (h1 : PutOut s t a) (h2 : PutOut t u b) :
    PutOut s u (a ++ b) := by
  obtain ⟨k1, l1, s1, b1⟩ := h1
  obtain ⟨k2, l2, s2, b2⟩ := h2
  refine ⟨k1 ++ k2, ?_, ?_, ?_⟩
  · intro k hk
    exact (List.mem_append.mp hk).elim (l1 k) (l2 k)
  · rw [s2, s1, List.flatMap_append, List.append_assoc]
  · rw [List.flatten_append, List.append_assoc, b2, ← List.append_assoc, b1, List.append_assoc]

/-- The same buffer and the same sink. -/
theorem PutOut.congr {s t s' t' : State} {a : List Byte} (h : PutOut s t a) (hs : s'.sink = s.sink)
    (hb : blkBytes s' = blkBytes s) (ht : t'.sink = t.sink) (hb' : blkBytes t' = blkBytes t) : PutOut s' t' a := by
  obtain ⟨k, l, s1, b1⟩ := h
  exact ⟨k, l, by rw [ht, hs, s1], by rw [hb, hb', b1]⟩

theorem byteOut_putOut {b : Byte} {s t : State} (hc : s.blkCount.toNat ≤ 253) (h : byteOut b s = .go t) :
    PutOut s t [b] ∧ t.blkCount.toNat = (s.blkCount.toNat + 1) % 254 ∧ t.acc = s.acc ∧ t.accBits = s.accBits ∧
      t.codeWidth = s.codeWidth := by
  rcases (byteOut_go hc).mp h with ⟨h1, rfl⟩ | ⟨h1, h2, rfl⟩
  · refine ⟨⟨[], by simp, by simp, by simp [blkBytes_storeByte hc]⟩, ?_, rfl, rfl, rfl⟩
    rw [storeByte_count hc]
    omega
  · refine ⟨⟨[blkBytes (storeByte b s)], ?_, ?_, ?_⟩, ?_, rfl, rfl, rfl⟩
    · intro k hk
      rw [List.mem_singleton.mp hk, blkBytes_length, storeByte_count hc, h1]
    · have : (storeByte b s).blkCount = 254#8 := by
        apply BitVec.eq_of_toNat_eq
        rw [storeByte_count hc, h1]
        rfl
      simp only [flushed_sink, this, storeByte_sink, List.flatMap_cons, List.flatMap_nil, List.append_nil]
    · have : blkBytes (flushed (storeByte b s)) = [] := by simp [blkBytes, flushed]
      simp [this, blkBytes_storeByte hc]
    · simp [flushed, h1]

/-! ### Bits -/

theorem lowBits_length {w : Nat} (v : BitVec w) (n : Nat) : (lowBits v n).length = n := by simp [lowBits]

theorem lowBits_zero {w : Nat} (v : BitVec w) : lowBits v 0 = [] := rfl

theorem lowBits_add {w : Nat} (v : BitVec w) (m n : Nat) : lowBits v (m + n) = lowBits v m ++ lowBits (v >>> m) n := by
  unfold lowBits
  rw [List.range_add, List.map_append, List.map_map]
  congr 1
  apply List.map_congr_left
  intro i _
  simp [BitVec.getLsbD_ushiftRight]

theorem lowBits_congr {w w' : Nat} {v : BitVec w} {u : BitVec w'} {n : Nat}
    (h : ∀ i, i < n → v.getLsbD i = u.getLsbD i) : lowBits v n = lowBits u n :=
  List.map_congr_left fun i hi => h i (List.mem_range.mp hi)

theorem bytesBits_append (a b : List Byte) : bytesBits (a ++ b) = bytesBits a ++ bytesBits b := by
  simp [bytesBits]

theorem bytesBits_single (b : Byte) : bytesBits [b] = lowBits b 8 := by simp [bytesBits]

theorem getLsbD_high {w : Nat} {v : BitVec w} {n i : Nat} (h : v.toNat < 2 ^ n) (hi : n ≤ i) : v.getLsbD i = false := by
  rw [← BitVec.testBit_toNat]
  exact Nat.testBit_lt_two_pow (Nat.lt_of_lt_of_le h (Nat.pow_le_pow_right (by omega) hi))

/-- Packing puts the code's bits after the waiting ones (rule R126). -/
theorem pack_bits {acc : BitVec 19} {c : Code} {n w : Nat} (ha : acc.toNat < 2 ^ n) (hn : n + w ≤ 19) :
    lowBits (acc ||| (c.setWidth 19 <<< n)) (n + w) = lowBits acc n ++ lowBits c w := by
  rw [lowBits_add]
  congr 1
  · refine lowBits_congr fun i hi => ?_
    simp only [BitVec.getLsbD_or, BitVec.getLsbD_shiftLeft]
    simp [hi]
  · refine lowBits_congr fun i hi => ?_
    have h1 : n + i < 19 := by omega
    have h2 : ¬ n + i < n := by omega
    have h4 : acc.getLsbD (n + i) = false := getLsbD_high ha (by omega)
    rw [BitVec.getLsbD_ushiftRight, BitVec.getLsbD_or, h4]
    simp [h1, h2]

theorem pack_low {acc : BitVec 19} {c : Code} {n w : Nat} (ha : acc.toNat < 2 ^ n) (hc : c.toNat < 2 ^ w)
    (hn : n + w ≤ 19) : (acc ||| (c.setWidth 19 <<< n)).toNat < 2 ^ (n + w) := by
  apply Nat.lt_pow_two_of_testBit
  intro i hi
  rw [BitVec.testBit_toNat, BitVec.getLsbD_or, getLsbD_high ha (by omega)]
  simp only [BitVec.getLsbD_shiftLeft, BitVec.getLsbD_setWidth, Bool.false_or]
  by_cases h19 : i < 19
  · have : c.getLsbD (i - n) = false := getLsbD_high hc (by omega)
    simp [this]
  · simp [h19]

/-! ### The drain loop -/

/-- A state in which code output may go on: at most 253 bytes wait, and no bit above `ACC_BITS` is set. -/
def Packable (s : State) : Prop := s.blkCount.toNat ≤ 253 ∧ s.acc.toNat < 2 ^ s.accBits.toNat

theorem accBits_drop {a : BitVec 5} (h : 8 ≤ a.toNat) : (a - 8#5).toNat = a.toNat - 8 := by
  have := a.isLt
  rw [BitVec.toNat_sub]
  simp only [BitVec.toNat_ofNat]
  omega

/-- The waiting bits come out as whole bytes, in order, and at most 7 stay (rule R127). -/
theorem drain_spec {n : Nat} {s t : State} (hp : Packable s) (hn : s.accBits.toNat ≤ 8 * n + 7)
    (h : drain n s = .go t) :
    Packable t ∧ t.accBits.toNat = s.accBits.toNat % 8 ∧
      t.blkCount.toNat = (s.blkCount.toNat + s.accBits.toNat / 8) % 254 ∧ t.codeWidth = s.codeWidth ∧
      ∃ bs, bs.length = s.accBits.toNat / 8 ∧ PutOut s t bs ∧
        bytesBits bs ++ lowBits t.acc t.accBits.toNat = lowBits s.acc s.accBits.toNat := by
  induction n generalizing s with
  | zero =>
    obtain rfl := Flow.go.inj h
    have h1 : s.accBits.toNat / 8 = 0 := by omega
    have h2 := hp.1
    exact ⟨hp, by omega, by omega, rfl, [], by simp [h1], PutOut.refl s, by simp [bytesBits]⟩
  | succ n ih =>
    unfold drain at h
    split at h
    · next h8 =>
      obtain ⟨u, hu, h⟩ := Flow.andThen_go.mp h
      obtain ⟨h1, h2, h3, h4, h5⟩ := byteOut_putOut hp.1 hu
      have hb : (dropByte u).accBits.toNat = s.accBits.toNat - 8 := by
        rw [dropByte_accBits, h4]
        exact accBits_drop h8
      have hpu : Packable (dropByte u) := by
        refine ⟨by rw [dropByte_blkCount]; omega, ?_⟩
        rw [hb, dropByte_acc, h3, BitVec.toNat_ushiftRight, Nat.shiftRight_eq_div_pow,
          Nat.div_lt_iff_lt_mul (by decide), ← Nat.pow_add, Nat.sub_add_cancel h8]
        exact hp.2
      obtain ⟨i1, i2, i3, i4, bs, i5, i6, i7⟩ := ih hpu (by omega) h
      rw [hb] at i2 i3 i5 i7
      rw [dropByte_blkCount] at i3
      refine ⟨i1, by omega, by omega, i4.trans h5, s.acc.extractLsb' 0 8 :: bs, ?_, ?_, ?_⟩
      · simp only [List.length_cons, i5]
        omega
      · exact h1.trans (i6.congr rfl rfl rfl rfl)
      · have hsplit : s.accBits.toNat = 8 + (s.accBits.toNat - 8) := by omega
        rw [hsplit, lowBits_add, ← h3, ← dropByte_acc, ← i7, ← List.singleton_append, bytesBits_append,
          bytesBits_single, List.append_assoc]
        congr 1
        refine lowBits_congr fun i hi => ?_
        simp [hi]
    · next h8 =>
      obtain rfl := Flow.go.inj h
      have h1 : s.accBits.toNat / 8 = 0 := by omega
      have h2 := hp.1
      exact ⟨hp, by omega, by omega, rfl, [], by simp [h1], PutOut.refl s, by simp [bytesBits]⟩

/-- The drain loop goes on when the sink accepts the one sub-block it may write. -/
theorem drain_accepted {n : Nat} {s : State} (hp : s.blkCount.toNat ≤ 253)
    (hn : s.accBits.toNat ≤ 8 * n + 7)
    (ha : sinkAccepts (if s.blkCount.toNat + s.accBits.toNat / 8 < 254 then 0 else 255) s) :
    ∃ t, drain n s = .go t ∧
      t.answers = s.answers.drop (if s.blkCount.toNat + s.accBits.toNat / 8 < 254 then 0 else 255) := by
  induction n generalizing s with
  | zero =>
    refine ⟨s, rfl, ?_⟩
    rw [if_pos (by omega)]
    simp
  | succ n ih =>
    unfold drain
    have hlt := s.accBits.isLt
    split
    · next h8 =>
      have hb := accBits_drop h8
      by_cases h253 : s.blkCount.toNat = 253
      · rw [if_neg (by omega)] at ha ⊢
        rw [(byteOut_go hp).mpr (.inr ⟨h253, ha, rfl⟩), Flow.go_andThen]
        have hlow : (dropByte (flushed (storeByte (s.acc.extractLsb' 0 8) s))).blkCount.toNat +
            (dropByte (flushed (storeByte (s.acc.extractLsb' 0 8) s))).accBits.toNat / 8 < 254 := by
          simp only [dropByte_blkCount, flushed_blkCount, dropByte_accBits, flushed_accBits, storeByte_accBits, hb]
          simp only [BitVec.toNat_ofNat]
          omega
        obtain ⟨t, ht, hta⟩ := ih (s := dropByte (flushed (storeByte (s.acc.extractLsb' 0 8) s))) (by simp)
          (by simp only [dropByte_accBits, flushed_accBits, storeByte_accBits, hb]; omega)
          (by rw [if_pos hlow]; exact sinkAccepts_zero _)
        refine ⟨t, ht, ?_⟩
        rw [hta, if_pos hlow, List.drop_zero, dropByte_answers, flushed_answers, storeByte_answers,
          storeByte_count hp, h253]
      · have hst := storeByte_count (b := s.acc.extractLsb' 0 8) hp
        rw [(byteOut_go hp).mpr (.inl ⟨by omega, rfl⟩), Flow.go_andThen]
        have hiff : ((dropByte (storeByte (s.acc.extractLsb' 0 8) s)).blkCount.toNat +
            (dropByte (storeByte (s.acc.extractLsb' 0 8) s)).accBits.toNat / 8 < 254) ↔
            s.blkCount.toNat + s.accBits.toNat / 8 < 254 := by
          rw [dropByte_blkCount, dropByte_accBits, storeByte_accBits, hst, hb]
          omega
        have := ih (s := dropByte (storeByte (s.acc.extractLsb' 0 8) s)) (by rw [dropByte_blkCount]; omega)
          (by rw [dropByte_accBits, storeByte_accBits, hb]; omega)
        simp only [hiff, dropByte_answers, storeByte_answers] at this
        exact this ha
    · refine ⟨s, rfl, ?_⟩
      rw [if_pos (by omega)]
      simp

theorem drain_stuck {n : Nat} {s : State} {r : Fault} (hc : s.blkCount.toNat ≤ 253) (h : drain n s = .stuck r) :
    r = .sinkNeverAnswers := by
  induction n generalizing s with
  | zero => cases h
  | succ n ih =>
    unfold drain at h
    split at h
    · rcases Flow.andThen_stuck.mp h with h | ⟨u, hu, h⟩
      · exact byteOut_stuck hc h
      · refine ih ?_ h
        have := (byteOut_putOut hc hu).2.1
        rw [dropByte_blkCount]
        omega
    · cases h

end Sys2Proof.Machine
end

