-- ==== Sys2Proof/Laws/Sink.lean ====
section
/-! SUPPORT. The sink's answers decide only how far a command gets (43_subblock_framing.md rule R140): a command run
under any answers follows its run under a sink that accepts everything, up to the first byte that is not accepted. -/

namespace Sys2Proof.Machine

/-- The same state before a sink that accepts every byte. -/
def calm (s : State) : State := { s with answers := [] }

/-- `run`, started in `s`, follows `calmRun`, started in `calm s`: with `B` the bytes the calm run writes, `run` gets to
the same end if the sink accepts all of `B`, fails at the first byte of `B` the sink fails, and hangs at the first it
never answers. -/
def Follows (s : State) (calmRun run : Flow) : Prop :=
  match calmRun with
  | .go p => ∃ B : List Byte, p.sink = s.sink ++ B ∧ p.answers = [] ∧
      (sinkAccepts B.length s → run = .go { p with answers := s.answers.drop B.length }) ∧
      (∀ n, n < B.length → sinkAccepts n s → s.answers[n]? = some .fail →
        ∃ u, run = .sinkFail u ∧ u.sink = s.sink ++ B.take n ∧ u.answers = s.answers.drop (n + 1)) ∧
      (∀ n, n < B.length → sinkAccepts n s → s.answers[n]? = some .silent → run = .stuck .sinkNeverAnswers)
  | .sinkFail _ => False
  | .stuck r => r ≠ .sinkNeverAnswers ∧ ∀ t, run ≠ .go t

theorem calm_eq_self {p : State} (h : p.answers = []) : calm p = p := by
  cases p
  simp only at h
  subst h
  rfl

/-- The sink accepts the first `n` bytes, or there is a first byte it does not accept. -/
theorem first_refusal (n : Nat) (s : State) : sinkAccepts n s ∨
    ∃ k, k < n ∧ sinkAccepts k s ∧ (s.answers[k]? = some .fail ∨ s.answers[k]? = some .silent) := by
  induction n with
  | zero => exact .inl (sinkAccepts_zero s)
  | succ n ih =>
    rcases ih with h | ⟨k, hk, h⟩
    · cases hn : s.answers[n]? with
      | none =>
        left
        intro a ha
        have hlen : s.answers.length ≤ n := List.getElem?_eq_none_iff.mp hn
        rw [List.take_of_length_le (by omega)] at ha
        exact h a (by rwa [List.take_of_length_le hlen])
      | some a =>
        cases a with
        | ack =>
          left
          intro a ha
          rw [List.take_add_one, hn] at ha
          rcases List.mem_append.mp ha with ha | ha
          · exact h a ha
          · simpa using ha
        | fail => exact .inr ⟨n, by omega, h, .inl hn⟩
        | silent => exact .inr ⟨n, by omega, h, .inr hn⟩
    · exact .inr ⟨k, by omega, h⟩

theorem Follows.andThen {s : State} {fc f : Flow} {g : State → Flow} (hf : Follows s fc f)
    (hg : ∀ p, Follows p (g (calm p)) (g p)) : Follows s (fc.andThen g) (f.andThen g) := by
  cases fc with
  | sinkFail u => exact hf.elim
  | stuck r =>
    refine ⟨hf.1, fun t ht => ?_⟩
    obtain ⟨u, hu, _⟩ := Flow.andThen_go.mp ht
    exact hf.2 u hu
  | go p =>
    obtain ⟨B, h1, h2, h3, h4, h5⟩ := hf
    simp only [Flow.go_andThen]
    have hq : ∀ l : List SinkAnswer, calm { p with answers := l } = p := by
      intro l
      have := calm_eq_self h2
      simpa [calm] using this
    have hgq : Follows { p with answers := s.answers.drop B.length } (g p)
        (g { p with answers := s.answers.drop B.length }) := by
      have := hg { p with answers := s.answers.drop B.length }
      rwa [hq] at this
    revert hgq
    cases hgp : g p with
    | sinkFail u => exact fun h => h.elim
    | stuck r =>
      rintro ⟨h6, h7⟩
      refine ⟨h6, fun t ht => ?_⟩
      obtain ⟨u, hu, hgu⟩ := Flow.andThen_go.mp ht
      rcases first_refusal B.length s with ha | ⟨k, hk, ha, hr | hr⟩
      · rw [h3 ha] at hu
        obtain rfl := Flow.go.inj hu
        exact h7 t hgu
      · obtain ⟨v, hv, _⟩ := h4 k hk ha hr
        rw [hv] at hu
        cases hu
      · rw [h5 k hk ha hr] at hu
        cases hu
    | go q =>
      rintro ⟨C, i1, i2, i3, i4, i5⟩
      have hacc : ∀ n, sinkAccepts (B.length + n) s ↔
          sinkAccepts B.length s ∧ sinkAccepts n { p with answers := s.answers.drop B.length } :=
        fun n => sinkAccepts_add rfl
      have hget : ∀ n, B.length ≤ n →
          s.answers[n]? = (s.answers.drop B.length)[n - B.length]? := by
        intro n hn
        rw [List.getElem?_drop]
        congr 1
        omega
      refine ⟨B ++ C, ?_, i2, ?_, ?_, ?_⟩
      · rw [i1]
        show p.sink ++ C = s.sink ++ (B ++ C)
        rw [h1, List.append_assoc]
      · intro ha
        rw [List.length_append] at ha ⊢
        obtain ⟨ha1, ha2⟩ := (hacc _).mp ha
        rw [h3 ha1, Flow.go_andThen, i3 ha2]
        simp [List.drop_drop]
      · intro n hn ha hr
        by_cases hB : n < B.length
        · obtain ⟨u, hu, hs, hd⟩ := h4 n hB ha hr
          refine ⟨u, by rw [hu]; rfl, ?_, hd⟩
          rw [hs, List.take_append_of_le_length (by omega)]
        · obtain ⟨m, rfl⟩ : ∃ m, n = B.length + m := ⟨n - B.length, by omega⟩
          obtain ⟨ha1, ha2⟩ := (hacc m).mp ha
          rw [List.length_append] at hn
          rw [hget _ (by omega), Nat.add_sub_cancel_left] at hr
          obtain ⟨u, hu, hs, hd⟩ := i4 m (by omega) ha2 hr
          refine ⟨u, by rw [h3 ha1]; exact hu, ?_, ?_⟩
          · rw [hs]
            show p.sink ++ C.take m = _
            rw [h1, List.take_append]
            simp
          · rw [hd]
            show (s.answers.drop B.length).drop (m + 1) = _
            rw [List.drop_drop]
            rfl
      · intro n hn ha hr
        by_cases hB : n < B.length
        · rw [h5 n hB ha hr]
          rfl
        · obtain ⟨m, rfl⟩ : ∃ m, n = B.length + m := ⟨n - B.length, by omega⟩
          obtain ⟨ha1, ha2⟩ := (hacc m).mp ha
          rw [List.length_append] at hn
          rw [hget _ (by omega), Nat.add_sub_cancel_left] at hr
          rw [h3 ha1]
          exact i5 m (by omega) ha2 hr

/-- A procedure that goes on without a sink write. -/
theorem Follows.pure {s p q : State} (hp : p = calm q) (hs : q.sink = s.sink) (ha : q.answers = s.answers) :
    Follows s (.go p) (.go q) := by
  subst hp
  refine ⟨[], by simp [calm, hs], rfl, fun _ => ?_, by simp, by simp⟩
  cases q
  simp only at ha
  subst ha
  simp [calm]

theorem Follows.stuck {s : State} {r : Fault} (h : r ≠ .sinkNeverAnswers) : Follows s (.stuck r) (.stuck r) :=
  ⟨h, fun t => by simp⟩

theorem sinkWrite_follows (b : Byte) (s : State) : Follows s (sinkWrite b (calm s)) (sinkWrite b s) := by
  refine ⟨[b], rfl, rfl, fun h => ?_, fun n hn _ hr => ?_, fun n hn _ hr => ?_⟩
  · exact sinkWrite_go.mpr ⟨h, rfl⟩
  · obtain rfl : n = 0 := by simpa using hn
    cases ha : s.answers with
    | nil => simp [ha] at hr
    | cons a l =>
      simp only [ha, List.getElem?_cons_zero, Option.some.injEq] at hr
      subst hr
      exact ⟨{ s with answers := l }, by simp [sinkWrite, ha], by simp, by simp⟩
  · obtain rfl : n = 0 := by simpa using hn
    cases ha : s.answers with
    | nil => simp [ha] at hr
    | cons a l =>
      simp only [ha, List.getElem?_cons_zero, Option.some.injEq] at hr
      subst hr
      simp [sinkWrite, ha]

theorem sinkWriteAll_follows (bs : List Byte) (s : State) :
    Follows s (sinkWriteAll bs (calm s)) (sinkWriteAll bs s) := by
  induction bs generalizing s with
  | nil => exact Follows.pure rfl rfl rfl
  | cons b bs ih => exact (sinkWrite_follows b s).andThen ih

theorem flushBlock_follows (s : State) : Follows s (flushBlock (calm s)) (flushBlock s) := by
  unfold flushBlock
  by_cases h0 : s.blkCount = 0#8
  · rw [if_pos (show (calm s).blkCount = 0#8 from h0), if_pos h0]
    exact Follows.pure rfl rfl rfl
  · rw [if_neg (show ¬ (calm s).blkCount = 0#8 from h0), if_neg h0]
    by_cases h1 : Config.blkMax < s.blkCount.toNat
    · rw [if_pos (show Config.blkMax < (calm s).blkCount.toNat from h1), if_pos h1]
      exact Follows.stuck (by simp)
    · rw [if_neg (show ¬ Config.blkMax < (calm s).blkCount.toNat from h1), if_neg h1]
      exact (sinkWriteAll_follows _ s).andThen fun p => Follows.pure rfl rfl rfl

theorem byteOut_follows (b : Byte) (s : State) : Follows s (byteOut b (calm s)) (byteOut b s) := by
  unfold byteOut
  by_cases h0 : Config.blkMax ≤ s.blkCount.toNat
  · rw [if_pos (show Config.blkMax ≤ (calm s).blkCount.toNat from h0), if_pos h0]
    exact Follows.stuck (by simp)
  · rw [if_neg (show ¬ Config.blkMax ≤ (calm s).blkCount.toNat from h0), if_neg h0]
    have hp : Follows s (.go (storeByte b (calm s))) (.go (storeByte b s)) := Follows.pure rfl rfl rfl
    by_cases h1 : Config.blkMax ≤ (storeByte b s).blkCount.toNat
    · rw [if_pos (show Config.blkMax ≤ (storeByte b (calm s)).blkCount.toNat from h1), if_pos h1]
      exact hp.andThen (g := flushBlock) flushBlock_follows
    · rw [if_neg (show ¬ Config.blkMax ≤ (storeByte b (calm s)).blkCount.toNat from h1), if_neg h1]
      exact hp

theorem drain_follows (n : Nat) (s : State) : Follows s (drain n (calm s)) (drain n s) := by
  induction n generalizing s with
  | zero => exact Follows.pure rfl rfl rfl
  | succ n ih =>
    unfold drain
    by_cases h : 8 ≤ s.accBits.toNat
    · rw [if_pos (show 8 ≤ (calm s).accBits.toNat from h), if_pos h]
      refine (byteOut_follows _ s).andThen fun p => ?_
      exact (show Follows p (.go (dropByte (calm p))) (.go (dropByte p)) from
        Follows.pure rfl rfl rfl).andThen (g := drain n) ih
    · rw [if_neg (show ¬ 8 ≤ (calm s).accBits.toNat from h), if_neg h]
      exact Follows.pure rfl rfl rfl

theorem padOut_follows (s : State) : Follows s (padOut (calm s)) (padOut s) := by
  unfold padOut
  by_cases h : s.accBits = 0#5
  · rw [if_pos (show (calm s).accBits = 0#5 from h), if_pos h]
    exact Follows.pure rfl rfl rfl
  · rw [if_neg (show ¬ (calm s).accBits = 0#5 from h), if_neg h]
    exact (byteOut_follows _ s).andThen fun p => Follows.pure rfl rfl rfl

theorem widthStep_calm (c : Code) (s : State) : widthStep c (calm s) = calm (widthStep c s) := by
  unfold widthStep calm
  split <;> [rfl; (split <;> rfl)]

theorem emitCode_follows (c : Code) (s : State) : Follows s (emitCode c (calm s)) (emitCode c s) := by
  unfold emitCode
  have hp : Follows s (.go (pack c (calm s))) (.go (pack c s)) := Follows.pure rfl rfl rfl
  refine Follows.andThen (hp.andThen (g := drain 3) (drain_follows 3)) fun p => ?_
  have hw : Follows p (.go (widthStep c (calm p))) (.go (widthStep c p)) :=
    Follows.pure (widthStep_calm c p) (by simp) (by simp)
  by_cases h : c = eofWord p.depth
  · rw [if_pos (show c = eofWord (calm p).depth from h), if_pos h]
    exact (hw.andThen (g := padOut) padOut_follows).andThen flushBlock_follows
  · rw [if_neg (show ¬ c = eofWord (calm p).depth from h), if_neg h]
    exact hw

theorem closeStream_follows (s : State) : Follows s (closeStream (calm s)) (closeStream s) :=
  ((emitCode_follows _ s).andThen (g := terminator) (sinkWrite_follows _)).andThen
    fun _ => Follows.pure rfl rfl rfl

theorem roomTest_follows (slot : Nat) (p : Code) (c : BitVec 8) (s : State) :
    Follows s (roomTest slot p c (calm s)) (roomTest slot p c s) := by
  unfold roomTest
  by_cases h : s.nextCode.toNat < Config.maxCodes
  · rw [if_pos (show (calm s).nextCode.toNat < Config.maxCodes from h), if_pos h]
    exact Follows.pure rfl rfl rfl
  · rw [if_neg (show ¬ (calm s).nextCode.toNat < Config.maxCodes from h), if_neg h]
    exact (show Follows s (.go (restartCodes (clearTable (calm s)))) (.go (restartCodes (clearTable s))) from
      Follows.pure rfl rfl rfl).andThen (g := emitCode _) (emitCode_follows _)

theorem nextSymbol_follows (c : BitVec 8) (s : State) : Follows s (nextSymbol c (calm s)) (nextSymbol c s) := by
  unfold nextSymbol
  show Follows s (match lookup s.hkey s.prevCode c with
    | .hit slot => _
    | .miss slot => _
    | .endless => _) _
  cases lookup s.hkey s.prevCode c with
  | hit slot => exact Follows.pure rfl rfl rfl
  | endless => exact Follows.stuck (by simp)
  | miss slot =>
    refine (emitCode_follows _ s).andThen fun p => ?_
    exact (show Follows p (.go (startString c (calm p))) (.go (startString c p)) from
      Follows.pure rfl rfl rfl).andThen (g := roomTest _ _ _) (roomTest_follows _ _ _)

theorem startRun_follows (d : BitVec 4) (s : State) :
    Follows s ((sinkWrite (BitVec.ofNat 8 (initSize d)) (openCall d (calm s))).andThen (emitCode (clearWord d)))
      ((sinkWrite (BitVec.ofNat 8 (initSize d)) (openCall d s)).andThen (emitCode (clearWord d))) :=
  ((show Follows s (.go (openCall d (calm s))) (.go (openCall d s)) from
    Follows.pure rfl rfl rfl).andThen (g := sinkWrite _) (sinkWrite_follows _)).andThen (emitCode_follows _)

end Sys2Proof.Machine
end

