-- ==== Sys2Proof/Laws/Emit.lean ====
section
/-! SUPPORT. What `EmitCode` does when it goes on (42_code_output.md rule R125): the bits of the code follow the waiting
bits, the width moves once, and the end code empties the packer into a last sub-block. -/

namespace Sys2Proof.Machine

/-! ### Framing -/

theorem frame_more {m n : Nat} {l : List Byte} (hm : l.length ≤ m) (hn : l.length ≤ n) : frame m l = frame n l := by
  induction m generalizing n l with
  | zero =>
    have : l = [] := List.length_eq_zero_iff.mp (by omega)
    subst this
    cases n <;> rfl
  | succ m ih =>
    cases l with
    | nil => cases n <;> rfl
    | cons b l =>
      cases n with
      | zero => simp at hn
      | succ n =>
        have h1 : ((b :: l).drop 254).length ≤ m := by
          rw [List.length_drop]; simp only [List.length_cons] at hm ⊢; omega
        have h2 : ((b :: l).drop 254).length ≤ n := by
          rw [List.length_drop]; simp only [List.length_cons] at hn ⊢; omega
        simp only [frame, Config.blkMax, ih h1 h2]

theorem frame_nil (n : Nat) : frame n [] = [] := by cases n <;> rfl

theorem subBlocks_nil : subBlocks [] = [] := rfl

/-- A whole sub-block comes first (rule R145). -/
theorem subBlocks_full {k l : List Byte} (hk : k.length = 254) : subBlocks (k ++ l) = 254#8 :: k ++ subBlocks l := by
  obtain ⟨b, k', rfl⟩ : ∃ b k', k = b :: k' := by
    cases k with
    | nil => simp at hk
    | cons b k' => exact ⟨b, k', rfl⟩
  unfold subBlocks
  simp only [List.cons_append, List.length_cons, frame, Config.blkMax]
  have ht : (b :: (k' ++ l)).take 254 = b :: k' := by
    rw [← List.cons_append, List.take_append_of_le_length (by omega), List.take_of_length_le (by omega)]
  have hd : (b :: (k' ++ l)).drop 254 = l := by
    rw [← List.cons_append, List.drop_append_of_le_length (by omega), List.drop_of_length_le (by omega)]
    rfl
  rw [ht, hd, frame_more (n := l.length) (by simp) (by simp)]
  simp [hk]

/-- The last sub-block (rule R145). -/
theorem subBlocks_last {l : List Byte} (h0 : l ≠ []) (hl : l.length ≤ 254) :
    subBlocks l = BitVec.ofNat 8 l.length :: l := by
  cases l with
  | nil => exact absurd rfl h0
  | cons b l =>
    unfold subBlocks
    simp only [List.length_cons, frame, Config.blkMax]
    have ht : (b :: l).take 254 = b :: l := List.take_of_length_le hl
    have hd : (b :: l).drop 254 = [] := List.drop_of_length_le hl
    rw [ht, hd, frame_nil]
    simp

theorem subBlocks_blocks {ks : List (List Byte)} (hk : ∀ k ∈ ks, k.length = 254) (l : List Byte) :
    subBlocks (ks.flatten ++ l) = ks.flatMap (fun k => 254#8 :: k) ++ subBlocks l := by
  induction ks with
  | nil => rfl
  | cons k ks ih =>
    rw [List.flatten_cons, List.append_assoc, subBlocks_full (hk k (by simp)), ih fun x hx => hk x (by simp [hx])]
    simp

/-- Whole sub-blocks and then the flush of what is left: the sub-blocks of all the data bytes. -/
theorem PutOut.flush {s u t : State} {bs : List Byte} (h : PutOut s u bs) (hc : u.blkCount.toNat ≤ 253)
    (hf : flushBlock u = .go t) : t.sink = s.sink ++ subBlocks (blkBytes s ++ bs) ∧ t.blkCount = 0#8 := by
  obtain ⟨ks, hk, hs, hb⟩ := h
  have hlen : (blkBytes u).length = u.blkCount.toNat := blkBytes_length u
  rw [← hb, subBlocks_blocks hk]
  rcases (flushBlock_go (by omega)).mp hf with ⟨h0, rfl⟩ | ⟨h0, _, rfl⟩
  · have : blkBytes t = [] := by rw [← List.length_eq_zero_iff, hlen, h0]; rfl
    exact ⟨by rw [this, subBlocks_nil, hs, List.append_nil], h0⟩
  · have hne : blkBytes u ≠ [] := by
      intro h
      rw [h] at hlen
      exact h0 (BitVec.eq_of_toNat_eq hlen.symm)
    refine ⟨?_, rfl⟩
    rw [subBlocks_last hne (by omega), hlen, flushed_sink, hs]
    simp

/-! ### The width -/

/-- The width after a code has been packed (rules R128 to R130): a function of four registers. -/
theorem widthStep_congr {c : Code} {s u : State} (hd : u.depth = s.depth) (hw : u.codeWidth = s.codeWidth)
    (hn : u.nextCode = s.nextCode) : (widthStep c u).codeWidth = (widthStep c s).codeWidth := by
  unfold widthStep
  rw [hd, hw, hn]
  split
  · rfl
  · split
    · rfl
    · exact hw

/-! ### A code that is not the end code -/

/-- `ACC_BITS` after packing. -/
theorem accBits_pack {c : Code} {s : State} (ha : s.accBits.toNat ≤ 7) (hw : s.codeWidth.toNat ≤ 12) :
    (pack c s).accBits.toNat = s.accBits.toNat + s.codeWidth.toNat := by
  rw [pack_accBits, BitVec.toNat_add, BitVec.toNat_setWidth]
  omega

/-- A state in which a code of the current width may be packed (rule R41 items 1, 5, 6). -/
structure EmitReady (s : State) : Prop where
  packable : Packable s
  accBits : s.accBits.toNat ≤ 7
  codeWidth : s.codeWidth.toNat ≤ 12

theorem pack_packable {c : Code} {s : State} (h : EmitReady s) (hc : c.toNat < 2 ^ s.codeWidth.toNat) :
    Packable (pack c s) := by
  refine ⟨h.packable.1, ?_⟩
  rw [accBits_pack h.accBits h.codeWidth, pack_acc]
  have := h.accBits
  have := h.codeWidth
  exact pack_low h.packable.2 hc (by omega)

theorem pack_lowBits {c : Code} {s : State} (h : EmitReady s) :
    lowBits (pack c s).acc (pack c s).accBits.toNat =
      lowBits s.acc s.accBits.toNat ++ lowBits c s.codeWidth.toNat := by
  rw [accBits_pack h.accBits h.codeWidth, pack_acc]
  have := h.accBits
  have := h.codeWidth
  exact pack_bits h.packable.2 (by omega)

/-- The part of `EmitCode` before the end-of-stream test. -/
theorem drained_spec {c : Code} {s t : State} (h : EmitReady s) (hc : c.toNat < 2 ^ s.codeWidth.toNat)
    (hd : drain 3 (pack c s) = .go t) :
    Packable t ∧ t.accBits.toNat = (s.accBits.toNat + s.codeWidth.toNat) % 8 ∧
      t.blkCount.toNat = (s.blkCount.toNat + (s.accBits.toNat + s.codeWidth.toNat) / 8) % 254 ∧
      t.codeWidth = s.codeWidth ∧
      ∃ bs, bs.length = (s.accBits.toNat + s.codeWidth.toNat) / 8 ∧ PutOut s t bs ∧
        bytesBits bs ++ lowBits t.acc t.accBits.toNat =
          lowBits s.acc s.accBits.toNat ++ lowBits c s.codeWidth.toNat := by
  have hb := accBits_pack (c := c) h.accBits h.codeWidth
  have h1 := h.accBits
  have h2 := h.codeWidth
  obtain ⟨i1, i2, i3, i4, bs, i5, i6, i7⟩ := drain_spec (pack_packable h hc) (by omega) hd
  rw [hb] at i2 i3 i5
  rw [pack_lowBits h] at i7
  exact ⟨i1, i2, i3, i4, bs, i5, i6.congr rfl rfl rfl rfl, i7⟩

/-- A code other than the end code: its bits follow the waiting bits (rules R126, R127), the width moves (rules R128 to
R130), nothing else changes but `BLK_BUF`, `BLK_COUNT` and the output channel. -/
theorem emitCode_spec {c : Code} {s t : State} (h : EmitReady s) (hc : c.toNat < 2 ^ s.codeWidth.toNat)
    (he : c ≠ eofWord s.depth) (hg : emitCode c s = .go t) :
    EmitFrame s t ∧ Packable t ∧ t.accBits.toNat = (s.accBits.toNat + s.codeWidth.toNat) % 8 ∧
      t.blkCount.toNat = (s.blkCount.toNat + (s.accBits.toNat + s.codeWidth.toNat) / 8) % 254 ∧
      t.codeWidth = (widthStep c s).codeWidth ∧
      ∃ bs, bs.length = (s.accBits.toNat + s.codeWidth.toNat) / 8 ∧ PutOut s t bs ∧
        bytesBits bs ++ lowBits t.acc t.accBits.toNat =
          lowBits s.acc s.accBits.toNat ++ lowBits c s.codeWidth.toNat := by
  have hends := emitCode_ends c s
  rw [hg] at hends
  refine ⟨hends.1, ?_⟩
  unfold emitCode at hg
  obtain ⟨u, hu, hg⟩ := Flow.andThen_go.mp hg
  have hud : EmitFrame (pack c s) u := by
    have := drain_ends 3 (pack c s)
    rw [hu] at this
    exact this.1
  have hdep : u.depth = s.depth := hud.depth
  rw [hdep, if_neg he] at hg
  obtain rfl := Flow.go.inj hg
  obtain ⟨i1, i2, i3, i4, bs, i5, i6, i7⟩ := drained_spec h hc hu
  refine ⟨⟨by simpa using i1.1, by simpa using i1.2⟩, by simpa using i2, by simpa using i3,
    widthStep_congr hdep i4 hud.nextCode, bs, i5, i6.congr rfl rfl (by simp) (by simp [blkBytes, blkByte]), by simpa using i7⟩

/-- The last byte: the waiting bits and zeros above them (rule R131). -/
theorem lowBits_pad {a : BitVec 19} {n : Nat} (ha : a.toNat < 2 ^ n) (hn : n ≤ 8) :
    lowBits (a.extractLsb' 0 8) 8 = lowBits a n ++ List.replicate (8 - n) false := by
  have h8 : 8 = n + (8 - n) := by omega
  conv_lhs => rw [show lowBits (a.extractLsb' 0 8) 8 = lowBits (a.extractLsb' 0 8) (n + (8 - n)) by rw [← h8]]
  rw [lowBits_add]
  congr 1
  · refine lowBits_congr fun i hi => ?_
    have : i < 8 := by omega
    simp [this]
  · unfold lowBits
    rw [List.eq_replicate_iff]
    refine ⟨by simp, fun b hb => ?_⟩
    obtain ⟨i, _, rfl⟩ := List.mem_map.mp hb
    simp [BitVec.getLsbD_ushiftRight, getLsbD_high ha (show n ≤ n + i by omega)]

/-- The end code: every waiting bit is in the sink, padded with zeros, as sub-blocks (rule R131). -/
theorem emitEof_spec {s t : State} (h : EmitReady s) (hc : (eofWord s.depth).toNat < 2 ^ s.codeWidth.toNat)
    (hg : emitCode (eofWord s.depth) s = .go t) :
    EmitFrame s t ∧ t.acc = 0#19 ∧ t.accBits = 0#5 ∧ t.blkCount = 0#8 ∧
      ∃ bs pad, t.sink = s.sink ++ subBlocks (blkBytes s ++ bs) ∧ pad < 8 ∧
        bs.length = (s.accBits.toNat + s.codeWidth.toNat + 7) / 8 ∧
        bytesBits bs = lowBits s.acc s.accBits.toNat ++ lowBits (eofWord s.depth) s.codeWidth.toNat ++
          List.replicate pad false := by
  have hends := emitCode_ends (eofWord s.depth) s
  rw [hg] at hends
  refine ⟨hends.1, ?_⟩
  unfold emitCode at hg
  obtain ⟨u, hu, hg⟩ := Flow.andThen_go.mp hg
  have hud : EmitFrame (pack (eofWord s.depth) s) u := by
    have := drain_ends 3 (pack (eofWord s.depth) s)
    rw [hu] at this
    exact this.1
  have hdep : u.depth = s.depth := hud.depth
  rw [hdep, if_pos rfl] at hg
  obtain ⟨v, hv, hf⟩ := Flow.andThen_go.mp hg
  obtain ⟨i1, i2, i3, i4, bs, i5, i6, i7⟩ := drained_spec h hc hu
  have hvf : t.acc = v.acc ∧ t.accBits = v.accBits := by
    have hvc : v.blkCount.toNat ≤ 254 := by
      unfold padOut at hv
      split at hv
      · obtain rfl := Flow.go.inj hv
        simp only [widthStep_blkCount]
        have := i1.1
        omega
      · obtain ⟨x, hx, hv⟩ := Flow.andThen_go.mp hv
        obtain rfl := Flow.go.inj hv
        have := (byteOut_putOut (by simpa using i1.1) hx).2.1
        rw [clearAcc_blkCount]
        omega
    rcases (flushBlock_go hvc).mp hf with ⟨_, rfl⟩ | ⟨_, _, rfl⟩
    · exact ⟨rfl, rfl⟩
    · exact ⟨rfl, rfl⟩
  unfold padOut at hv
  split at hv
  · next h0 =>
    obtain rfl := Flow.go.inj hv
    rw [widthStep_accBits] at h0
    have hp : PutOut s (widthStep (eofWord s.depth) u) bs :=
      i6.congr rfl rfl (by simp) (by simp [blkBytes, blkByte])
    obtain ⟨hs, hb⟩ := hp.flush (by simpa using i1.1) hf
    have hz : u.acc.toNat = 0 := by
      have := i1.2
      rw [h0] at this
      simpa using this
    refine ⟨?_, by rw [hvf.2, widthStep_accBits, h0], hb, bs, 0, hs, by omega, ?_, ?_⟩
    · rw [hvf.1, widthStep_acc]
      exact BitVec.eq_of_toNat_eq hz
    · rw [h0] at i2
      simp only [BitVec.toNat_ofNat] at i2
      omega
    · rw [h0] at i7
      simpa [lowBits] using i7
  · next h0 =>
    obtain ⟨x, hx, hv⟩ := Flow.andThen_go.mp hv
    obtain rfl := Flow.go.inj hv
    obtain ⟨j1, j2, _, _, _⟩ := byteOut_putOut (by simpa using i1.1) hx
    rw [widthStep_acc] at hx j1
    have j1' : PutOut u (clearAcc x) [u.acc.extractLsb' 0 8] :=
      j1.congr (by simp) (by simp [blkBytes, blkByte]) rfl rfl
    have hp : PutOut s (clearAcc x) (bs ++ [u.acc.extractLsb' 0 8]) := i6.trans j1'
    obtain ⟨hs, hb⟩ := hp.flush (by rw [clearAcc_blkCount]; omega) hf
    have hu0 : u.accBits.toNat ≠ 0 := fun h => h0 (by rw [widthStep_accBits]; exact BitVec.eq_of_toNat_eq h)
    refine ⟨hvf.1, hvf.2, hb, bs ++ [u.acc.extractLsb' 0 8], 8 - u.accBits.toNat, hs, by omega, ?_, ?_⟩
    · rw [List.length_append, List.length_singleton, i5]
      omega
    · rw [bytesBits_append, bytesBits_single, ← i7, List.append_assoc, lowBits_pad i1.2 (by omega)]

end Sys2Proof.Machine
end

