-- ==== Sys2Proof/Laws/Buffer.lean ====
section
/-! SUPPORT. Which entries of `BLK_BUF` code output writes (10_state.md rule R32, 43_subblock_framing.md rule R141), that
a procedure stops only at a byte the sink never answers, and how many bytes a command can write (40_commands.md rule
R96). -/

namespace Sys2Proof.Machine

/-! ### Entries of `BLK_BUF` -/

/-- From `s` to `t`, every entry of `BLK_BUF` but the `n` that the next `n` data bytes are stored in is unchanged. -/
def Kept (s t : State) (n : Nat) : Prop := ∀ j, ¬ storedIn s n j → Memory.read t.blkBuf j = Memory.read s.blkBuf j

theorem Kept.refl (s : State) (n : Nat) : Kept s s n := fun _ _ => rfl

theorem Kept.congr {s t s' t' : State} {n : Nat} (h : Kept s t n) (hc : s'.blkCount = s.blkCount)
    (hb : s'.blkBuf = s.blkBuf) (hb' : t'.blkBuf = t.blkBuf) : Kept s' t' n := by
  intro j hj
  rw [hb, hb']
  refine h j ?_
  unfold storedIn at hj ⊢
  rwa [hc] at hj

theorem Kept.trans {s t u : State} {m n : Nat} (h1 : Kept s t m) (h2 : Kept t u n)
    (hc : t.blkCount.toNat = (s.blkCount.toNat + m) % 254) : Kept s u (m + n) := by
  intro j hj
  rw [h2 j, h1 j]
  · rintro ⟨k, hk, rfl⟩
    exact hj ⟨k, by omega, rfl⟩
  · rintro ⟨k, hk, rfl⟩
    exact hj ⟨m + k, by omega, by rw [hc]; omega⟩

theorem flushed_kept (s : State) (n : Nat) : Kept s (flushed s) n := fun _ _ => rfl

theorem storeByte_kept {b : Byte} {s : State} (hc : s.blkCount.toNat ≤ 253) : Kept s (storeByte b s) 1 := by
  intro j hj
  rw [storeByte_blkBuf, Memory.read_write_other]
  rintro rfl
  exact hj ⟨0, by omega, by omega⟩

theorem byteOut_kept {b : Byte} {s t : State} (hc : s.blkCount.toNat ≤ 253) (h : byteOut b s = .go t) : Kept s t 1 := by
  rcases (byteOut_go hc).mp h with ⟨_, rfl⟩ | ⟨_, _, rfl⟩
  · exact storeByte_kept hc
  · exact (storeByte_kept hc).congr rfl rfl rfl

theorem flushBlock_kept {s t : State} (hc : s.blkCount.toNat ≤ 254) (h : flushBlock s = .go t) (n : Nat) :
    Kept s t n := by
  rcases (flushBlock_go hc).mp h with ⟨_, rfl⟩ | ⟨_, _, rfl⟩
  · exact Kept.refl _ n
  · exact flushed_kept s n

theorem drain_kept {n : Nat} {s t : State} (hc : s.blkCount.toNat ≤ 253) (hn : s.accBits.toNat ≤ 8 * n + 7)
    (h : drain n s = .go t) : Kept s t (s.accBits.toNat / 8) := by
  induction n generalizing s with
  | zero =>
    obtain rfl := Flow.go.inj h
    exact Kept.refl s _
  | succ n ih =>
    unfold drain at h
    split at h
    · next h8 =>
      obtain ⟨u, hu, h⟩ := Flow.andThen_go.mp h
      obtain ⟨_, h2, _, h4, _⟩ := byteOut_putOut hc hu
      have hb : (dropByte u).accBits.toNat = s.accBits.toNat - 8 := by
        rw [dropByte_accBits, h4]
        exact accBits_drop h8
      have hk : Kept s (dropByte u) 1 := (byteOut_kept hc hu).congr rfl rfl rfl
      have := hk.trans (ih (s := dropByte u) (by rw [dropByte_blkCount]; omega) (by omega) h)
        (by rw [dropByte_blkCount, h2])
      rwa [hb, show 1 + (s.accBits.toNat - 8) / 8 = s.accBits.toNat / 8 by omega] at this
    · obtain rfl := Flow.go.inj h
      exact Kept.refl s _

/-- The entries a code other than the end code writes. -/
theorem emitCode_kept {c : Code} {s t : State} (h : EmitReady s) (he : c ≠ eofWord s.depth)
    (hg : emitCode c s = .go t) : Kept s t ((s.accBits.toNat + s.codeWidth.toNat) / 8) := by
  have h1 := h.accBits
  have h2 := h.codeWidth
  have hb := accBits_pack (c := c) h1 h2
  unfold emitCode at hg
  obtain ⟨u, hu, hg⟩ := Flow.andThen_go.mp hg
  have hk := drain_kept (s := pack c s) h.packable.1 (by omega) hu
  rw [hb] at hk
  have hd := drain_ends 3 (pack c s)
  rw [hu] at hd
  have hdep : u.depth = s.depth := hd.1.depth
  rw [hdep, if_neg he] at hg
  obtain rfl := Flow.go.inj hg
  exact hk.congr rfl rfl (by simp)

/-- The entries the end code writes: one for each of its data bytes, the padded one among them. -/
theorem emitEof_kept {s t : State} (h : EmitReady s) (hc : (eofWord s.depth).toNat < 2 ^ s.codeWidth.toNat)
    (hg : emitCode (eofWord s.depth) s = .go t) :
    Kept s t ((s.accBits.toNat + s.codeWidth.toNat + 7) / 8) := by
  have h1 := h.accBits
  have h2 := h.codeWidth
  have hb := accBits_pack (c := eofWord s.depth) h1 h2
  unfold emitCode at hg
  obtain ⟨u, hu, hg⟩ := Flow.andThen_go.mp hg
  have hk := drain_kept (s := pack (eofWord s.depth) s) h.packable.1 (by omega) hu
  rw [hb] at hk
  obtain ⟨i1, i2, i3, _, _⟩ := drained_spec h hc hu
  have hd := drain_ends 3 (pack (eofWord s.depth) s)
  rw [hu] at hd
  have hdep : u.depth = s.depth := hd.1.depth
  rw [hdep, if_pos rfl] at hg
  obtain ⟨v, hv, hf⟩ := Flow.andThen_go.mp hg
  have hku : Kept s (widthStep (eofWord s.depth) u) ((s.accBits.toNat + s.codeWidth.toNat) / 8) :=
    hk.congr rfl rfl (by simp)
  unfold padOut at hv
  split at hv
  · next h0 =>
    obtain rfl := Flow.go.inj hv
    have hz : u.accBits.toNat = 0 := by
      rw [widthStep_accBits] at h0
      rw [h0]
      rfl
    have := hku.trans (flushBlock_kept (by simpa using Nat.le_succ_of_le i1.1) hf 0) (by simpa using i3)
    rwa [show (s.accBits.toNat + s.codeWidth.toNat + 7) / 8 = (s.accBits.toNat + s.codeWidth.toNat) / 8 + 0 by omega]
  · next h0 =>
    obtain ⟨x, hx, hv⟩ := Flow.andThen_go.mp hv
    obtain rfl := Flow.go.inj hv
    have hw : (widthStep (eofWord s.depth) u).blkCount.toNat ≤ 253 := by simpa using i1.1
    obtain ⟨_, j2, _, _, _⟩ := byteOut_putOut hw hx
    have hz : u.accBits.toNat ≠ 0 := fun h => h0 (by rw [widthStep_accBits]; exact BitVec.eq_of_toNat_eq h)
    have k1 := hku.trans (byteOut_kept hw hx) (by simpa using i3)
    have k2 : Kept s (clearAcc x) _ := k1.congr (s' := s) (t' := clearAcc x) rfl rfl rfl
    have k3 := k2.trans (flushBlock_kept (by rw [clearAcc_blkCount]; omega) hf 0)
      (by rw [clearAcc_blkCount, j2, widthStep_blkCount, i3]; omega)
    rwa [show (s.accBits.toNat + s.codeWidth.toNat + 7) / 8 =
      (s.accBits.toNat + s.codeWidth.toNat) / 8 + 1 + 0 by omega]

/-! ### Stops -/

theorem padOut_stuck {s : State} {r : Fault} (hc : s.blkCount.toNat ≤ 253) (h : padOut s = .stuck r) :
    r = .sinkNeverAnswers := by
  unfold padOut at h
  split at h
  · cases h
  · rcases Flow.andThen_stuck.mp h with h | ⟨u, _, h⟩
    · exact byteOut_stuck hc h
    · cases h

theorem drain_count {n : Nat} {s t : State} (hc : s.blkCount.toNat ≤ 253) (h : drain n s = .go t) :
    t.blkCount.toNat ≤ 253 := by
  induction n generalizing s with
  | zero =>
    obtain rfl := Flow.go.inj h
    exact hc
  | succ n ih =>
    unfold drain at h
    split at h
    · obtain ⟨u, hu, h⟩ := Flow.andThen_go.mp h
      have := (byteOut_putOut hc hu).2.1
      exact ih (by rw [dropByte_blkCount]; omega) h
    · obtain rfl := Flow.go.inj h
      exact hc

theorem padOut_count {s t : State} (hc : s.blkCount.toNat ≤ 253) (h : padOut s = .go t) : t.blkCount.toNat ≤ 253 := by
  unfold padOut at h
  split at h
  · obtain rfl := Flow.go.inj h
    exact hc
  · obtain ⟨u, hu, h⟩ := Flow.andThen_go.mp h
    obtain rfl := Flow.go.inj h
    have := (byteOut_putOut hc hu).2.1
    rw [clearAcc_blkCount]
    omega

/-- `EmitCode` stops only at a byte the sink never answers (rule R150: no failure is internal). -/
theorem emitCode_stuck {c : Code} {s : State} {r : Fault} (hc : s.blkCount.toNat ≤ 253) (h : emitCode c s = .stuck r) :
    r = .sinkNeverAnswers := by
  unfold emitCode at h
  rcases Flow.andThen_stuck.mp h with h | ⟨u, hu, h⟩
  · exact drain_stuck (s := pack c s) hc h
  · have hu253 : u.blkCount.toNat ≤ 253 := drain_count (s := pack c s) hc hu
    split at h
    · rcases Flow.andThen_stuck.mp h with h | ⟨v, hv, h⟩
      · exact padOut_stuck (by simpa using hu253) h
      · have := padOut_count (by simpa using hu253) hv
        exact flushBlock_stuck (by omega) h
    · cases h

/-- Before a sink that accepts everything, `EmitCode` always goes on. -/
theorem emitCode_calm {c : Code} {s : State} (hc : s.blkCount.toNat ≤ 253) : ∃ p, emitCode c (calm s) = .go p := by
  have hf := emitCode_follows c s
  cases h : emitCode c (calm s) with
  | go p => exact ⟨p, rfl⟩
  | sinkFail u => rw [h] at hf; exact hf.elim
  | stuck r =>
    rw [h] at hf
    exact absurd (emitCode_stuck (s := calm s) hc h) hf.1

/-- A run goes on as the calm run does if the sink accepts as many bytes as the calm run writes. -/
theorem Follows.go {s p : State} {run : Flow} {n : Nat} (h : Follows s (.go p) run) (hn : p.sink.length ≤ s.sink.length + n)
    (ha : sinkAccepts n s) :
    run = .go { p with answers := s.answers.drop (p.sink.length - s.sink.length) } := by
  obtain ⟨B, h1, _, h3, _, _⟩ := h
  have hl : p.sink.length = s.sink.length + B.length := by rw [h1, List.length_append]
  rw [h3 (sinkAccepts_mono ha (by omega)), hl, Nat.add_sub_cancel_left]

/-! ### How many bytes -/

/-- At most 254 data bytes put out: the sink gets nothing or one whole sub-block (rule R96). -/
theorem PutOut.zero_or_one {s t : State} {bs : List Byte} (h : PutOut s t bs) (hs : s.blkCount.toNat ≤ 253)
    (hb : bs.length ≤ 254) :
    t.sink = s.sink ∨ ∃ blk : List Byte, blk.length = 254 ∧ t.sink = s.sink ++ 254#8 :: blk := by
  obtain ⟨ks, hk, h1, h2⟩ := h
  have hlen := congrArg List.length h2
  rw [List.length_append, List.length_append, blkBytes_length, blkBytes_length] at hlen
  match ks, hk, h1, hlen with
  | [], _, h1, _ => exact .inl (by simpa using h1)
  | [k], hk, h1, _ => exact .inr ⟨k, hk k (by simp), by simpa using h1⟩
  | k :: k' :: ks, hk, _, hlen =>
    have e1 := hk k (by simp)
    have e2 := hk k' (by simp)
    simp only [List.flatten_cons, List.length_append, e1, e2] at hlen
    omega

theorem frame_length {n : Nat} {l : List Byte} (hn : l.length ≤ n) :
    (frame n l).length = l.length + (l.length + 253) / 254 := by
  induction n generalizing l with
  | zero =>
    have : l = [] := List.length_eq_zero_iff.mp (by omega)
    subst this
    rfl
  | succ n ih =>
    cases l with
    | nil => rfl
    | cons b l =>
      simp only [frame, Config.blkMax, List.length_append, List.length_cons, List.length_take]
      rw [ih (by rw [List.length_drop]; simp only [List.length_cons] at hn ⊢; omega), List.length_drop]
      simp only [List.length_cons]
      omega

/-- The length of the sub-blocks of `N` data bytes: `N + ceil(N / 254)` (rule R145). -/
theorem subBlocks_length (l : List Byte) : (subBlocks l).length = l.length + (l.length + 253) / 254 :=
  frame_length (Nat.le_refl _)

end Sys2Proof.Machine
end

