-- ==== Sys2Proof/Laws/Codes.lean ====
section
/-! SUPPORT. The quantities of `DEPTH` (00_scope.md rule R9) and their bounds, the width schedule (42_code_output.md
rules R128 to R132), and a packed code as bits of the stream. -/

namespace Sys2Proof.Machine

theorem packerReady_iff {s : State} (h : packerReady s = true) :
    EmitReady s ∧ legalDepth s.depth = true ∧ initWidth s.depth ≤ s.codeWidth.toNat := by
  simp only [packerReady, Bool.and_eq_true, decide_eq_true_eq] at h
  exact ⟨⟨⟨h.2, h.1.2⟩, h.1.1.2, h.1.1.1.2⟩, h.1.1.1.1.1, h.1.1.1.1.2⟩

theorem legal_bounds {d : BitVec 4} (h : legalDepth d = true) : 1 ≤ d.toNat ∧ d.toNat ≤ 8 := by
  simpa [legalDepth] using h

theorem initSize_bounds {d : BitVec 4} (h : legalDepth d = true) : 2 ≤ initSize d ∧ initSize d ≤ 8 := by
  have := legal_bounds h
  simp only [initSize, Config.minSize]
  omega

theorem clearCode_bounds {d : BitVec 4} (h : legalDepth d = true) : 4 ≤ clearCode d ∧ clearCode d ≤ 256 := by
  have := initSize_bounds h
  unfold clearCode
  exact ⟨Nat.pow_le_pow_right (n := 2) (by omega) this.1, Nat.pow_le_pow_right (n := 2) (by omega) this.2⟩

theorem clearWord_toNat {d : BitVec 4} (h : legalDepth d = true) : (clearWord d).toNat = clearCode d := by
  have := clearCode_bounds h
  simp only [clearWord, BitVec.toNat_ofNat]
  omega

theorem eofWord_toNat {d : BitVec 4} (h : legalDepth d = true) : (eofWord d).toNat = clearCode d + 1 := by
  have := clearCode_bounds h
  simp only [eofWord, eofCode, BitVec.toNat_ofNat]
  omega

theorem clear_ne_eof {d : BitVec 4} (h : legalDepth d = true) : clearWord d ≠ eofWord d := by
  intro he
  have := congrArg BitVec.toNat he
  rw [clearWord_toNat h, eofWord_toNat h] at this
  omega

theorem firstFree_lt {d : BitVec 4} (h : legalDepth d = true) : firstFree d < 2 ^ initWidth d := by
  have := clearCode_bounds h
  unfold firstFree eofCode initWidth
  rw [Nat.pow_succ, ← clearCode]
  omega

theorem controls_fit {s : State} (hd : legalDepth s.depth = true) (hw : initWidth s.depth ≤ s.codeWidth.toNat) :
    (clearWord s.depth).toNat < 2 ^ s.codeWidth.toNat ∧ (eofWord s.depth).toNat < 2 ^ s.codeWidth.toNat := by
  have := firstFree_lt hd
  have h2 := Nat.pow_le_pow_right (n := 2) (by omega) hw
  rw [clearWord_toNat hd, eofWord_toNat hd]
  unfold firstFree eofCode at this
  omega

theorem widthStep_grown {c : Code} {s : State} (h : c ≠ clearWord s.depth) :
    (widthStep c s).codeWidth.toNat = grownWidth s := by
  unfold widthStep grownWidth
  rw [if_neg h]
  by_cases h2 : 2 ^ s.codeWidth.toNat - 1 < s.nextCode.toNat ∧ s.codeWidth.toNat < 12
  · rw [if_pos h2, if_pos h2]
    simp only [BitVec.toNat_add, BitVec.toNat_ofNat]
    omega
  · rw [if_neg h2, if_neg h2]

theorem widthStep_clear {c : Code} {s : State} (h : c = clearWord s.depth) (hd : legalDepth s.depth = true) :
    (widthStep c s).codeWidth.toNat = initWidth s.depth := by
  have := initSize_bounds hd
  unfold widthStep initWidth
  rw [if_pos h]
  simp only [BitVec.toNat_ofNat]
  omega

theorem PutOut.packed {s t : State} {bs : List Byte} {bits : List Bool} (h : PutOut s t bs)
    (hb : bytesBits bs ++ lowBits t.acc t.accBits.toNat = lowBits s.acc s.accBits.toNat ++ bits) : Packed s t bits := by
  obtain ⟨ks, h1, h2, h3⟩ := h
  refine ⟨ks, h1, h2, ?_⟩
  unfold waitingBits
  rw [← List.append_assoc, ← bytesBits_append, h3, bytesBits_append, List.append_assoc, hb, List.append_assoc]

/-! ### Only the width step writes `CODE_WIDTH` -/

theorem flushBlock_width {s t : State} (h : flushBlock s = .go t) : t.codeWidth = s.codeWidth := by
  unfold flushBlock at h
  split at h
  · cases h; rfl
  · split at h
    · cases h
    · obtain ⟨u, hu, h⟩ := Flow.andThen_go.mp h
      cases h
      rw [(sinkWriteAll_go.mp hu).2]
      rfl

theorem byteOut_width {b : Byte} {s t : State} (h : byteOut b s = .go t) : t.codeWidth = s.codeWidth := by
  unfold byteOut at h
  split at h
  · cases h
  · split at h
    · rw [flushBlock_width h]; rfl
    · cases h; rfl

theorem drain_width {n : Nat} {s t : State} (h : drain n s = .go t) : t.codeWidth = s.codeWidth := by
  induction n generalizing s with
  | zero => cases h; rfl
  | succ n ih =>
    unfold drain at h
    split at h
    · obtain ⟨u, hu, h⟩ := Flow.andThen_go.mp h
      rw [ih h, dropByte_codeWidth, byteOut_width hu]
    · cases h; rfl

theorem padOut_width {s t : State} (h : padOut s = .go t) : t.codeWidth = s.codeWidth := by
  unfold padOut at h
  split at h
  · cases h; rfl
  · obtain ⟨u, hu, h⟩ := Flow.andThen_go.mp h
    cases h
    rw [clearAcc_codeWidth, byteOut_width hu]

theorem emitCode_width {c : Code} {s t : State} (h : emitCode c s = .go t) :
    t.codeWidth = (widthStep c s).codeWidth := by
  unfold emitCode at h
  obtain ⟨u, hu, h⟩ := Flow.andThen_go.mp h
  have hd := drain_ends 3 (pack c s)
  rw [hu] at hd
  have hw : (widthStep c u).codeWidth = (widthStep c s).codeWidth :=
    widthStep_congr hd.1.depth (by rw [drain_width hu]; rfl) hd.1.nextCode
  split at h
  · obtain ⟨v, hv, h⟩ := Flow.andThen_go.mp h
    rw [flushBlock_width h, padOut_width hv, hw]
  · cases h; exact hw

end Sys2Proof.Machine
end

