-- ==== Sys2Proof/Laws/Dictionary.lean ====
section
/-! SUPPORT. The dictionary's procedures (41_dictionary.md): keys, the slots a search looks at, what a search finds, and
what an insertion does to later searches. -/

namespace Sys2Proof.Machine

/-! ### Keys (rule R111) -/

theorem keyOf_getLsbD (p : Code) (b : BitVec 8) (i : Nat) (hi : i < 20) :
    (keyOf p b).getLsbD i = if i < 12 then p.getLsbD i else b.getLsbD (i - 12) := by
  unfold keyOf
  rw [BitVec.getLsbD_or, BitVec.getLsbD_shiftLeft]
  by_cases h : i < 12
  · simp [h, hi, Config.keyShift]
  · have h1 : p.getLsbD i = false := BitVec.getLsbD_of_ge p i (by omega)
    have h2 : i - 12 < 20 := by omega
    simp [h, hi, h1, h2, Config.keyShift]

@[simp] theorem keyPrefix_keyOf (p : Code) (b : BitVec 8) : keyPrefix (keyOf p b) = p := by
  apply BitVec.eq_of_getLsbD_eq
  intro i hi
  have h2 : i < 20 := by omega
  simp only [keyPrefix, BitVec.getLsbD_extractLsb', Nat.zero_add, hi, decide_true, Bool.true_and]
  rw [keyOf_getLsbD p b i h2, if_pos hi]

@[simp] theorem keyByte_keyOf (p : Code) (b : BitVec 8) : keyByte (keyOf p b) = b := by
  apply BitVec.eq_of_getLsbD_eq
  intro i hi
  have h2 : 12 + i < 20 := by omega
  simp only [keyByte, BitVec.getLsbD_extractLsb', hi, decide_true, Bool.true_and]
  rw [keyOf_getLsbD p b (12 + i) h2, if_neg (by omega)]
  congr 1
  omega

@[simp] theorem keyOf_parts (k : Key) : keyOf (keyPrefix k) (keyByte k) = k := by
  apply BitVec.eq_of_getLsbD_eq
  intro i hi
  rw [keyOf_getLsbD _ _ i hi]
  split
  · next h => simp [keyPrefix, h]
  · next h =>
    have : i - 12 < 8 := by omega
    have h3 : 12 + (i - 12) = i := by omega
    simp [keyByte, this, h3]

/-! ### Slots (rules R112 to R114) -/

theorem hashIndex_lt (p : Code) (b : BitVec 8) : hashIndex p b < 4096 := BitVec.isLt _

theorem probeStep_bounds {h : Nat} (hh : h < 4096) : 1 ≤ probeStep h ∧ probeStep h ≤ 5002 := by
  unfold probeStep
  split
  · omega
  · simp only [Config.hsize]
    omega

/-- The slots a search looks at, in order. -/
def walk (i st : Nat) : Nat → Nat
  | 0 => i
  | n + 1 => walk (nextSlot i st) st n

theorem nextSlot_mod {i st : Nat} (hi : i < 5003) (hs : st ≤ 5002) : nextSlot i st = (i + (5003 - st)) % 5003 := by
  unfold nextSlot
  simp only [Config.hsize]
  split <;> omega

theorem walk_mod {i st : Nat} (hi : i < 5003) (hs : st ≤ 5002) (n : Nat) :
    walk i st n = (i + n * (5003 - st)) % 5003 := by
  induction n generalizing i with
  | zero => simp [walk, Nat.mod_eq_of_lt hi]
  | succ n ih =>
    have hlt : nextSlot i st < 5003 := by
      rw [nextSlot_mod hi hs]
      exact Nat.mod_lt _ (by decide)
    rw [walk, ih hlt, nextSlot_mod hi hs, Nat.mod_add_mod]
    congr 1
    ring

theorem walk_lt {i st : Nat} (hi : i < 5003) (hs : st ≤ 5002) (n : Nat) : walk i st n < 5003 := by
  rw [walk_mod hi hs]
  exact Nat.mod_lt _ (by decide)

theorem prime_5003 : Nat.Prime 5003 := by norm_num

/-- 5003 is prime, so 5003 looks are at 5003 different slots (rule R118). -/
theorem walk_injective {i st m n : Nat} (hi : i < 5003) (h1 : 1 ≤ st) (hs : st ≤ 5002) (hm : m < 5003) (hn : n < 5003)
    (h : walk i st m = walk i st n) : m = n := by
  rw [walk_mod hi hs, walk_mod hi hs] at h
  have h2 : m * (5003 - st) ≡ n * (5003 - st) [MOD 5003] := Nat.ModEq.add_left_cancel' i h
  have hco : Nat.Coprime 5003 (5003 - st) :=
    (Nat.Prime.coprime_iff_not_dvd prime_5003).mpr fun hd => by
      have := Nat.le_of_dvd (by omega) hd
      omega
  have h3 := Nat.ModEq.cancel_right_of_coprime hco h2
  exact Nat.ModEq.eq_of_lt_of_lt h3 hm hn

/-- So every slot is looked at (rule R118). -/
theorem walk_covers {i st : Nat} (hi : i < 5003) (h1 : 1 ≤ st) (hs : st ≤ 5002) {x : Nat} (hx : x < 5003) :
    ∃ n, n < 5003 ∧ walk i st n = x := by
  have hinj : Function.Injective (fun n : Fin 5003 => (⟨walk i st n, walk_lt hi hs n⟩ : Fin 5003)) := by
    intro a b hab
    exact Fin.ext (walk_injective hi h1 hs a.isLt b.isLt (congrArg Fin.val hab))
  obtain ⟨n, hn⟩ := (Finite.injective_iff_surjective.mp hinj) ⟨x, hx⟩
  exact ⟨n, n.isLt, congrArg Fin.val hn⟩

/-! ### What a search finds (rule R114) -/

theorem probe_hit {m : Memory 20} {k : Key} {st n i j : Nat} (h : probe m k st n i = .hit j) :
    Memory.read m j = some k ∧ ∃ a, a < n ∧ walk i st a = j := by
  induction n generalizing i with
  | zero => cases h
  | succ n ih =>
    unfold probe at h
    split at h
    · cases h
    · next k' hk' =>
      split at h
      · next hk =>
        obtain rfl := Found.hit.inj h
        exact ⟨hk ▸ hk', 0, by omega, rfl⟩
      · obtain ⟨h1, a, ha, hw⟩ := ih h
        exact ⟨h1, a + 1, by omega, hw⟩

theorem probe_miss {m : Memory 20} {k : Key} {st n i j : Nat} (h : probe m k st n i = .miss j) :
    Memory.read m j = none ∧ ∃ a, a < n ∧ walk i st a = j := by
  induction n generalizing i with
  | zero => cases h
  | succ n ih =>
    unfold probe at h
    split at h
    · next hr =>
      obtain rfl := Found.miss.inj h
      exact ⟨hr, 0, by omega, rfl⟩
    · split at h
      · cases h
      · obtain ⟨h1, a, ha, hw⟩ := ih h
        exact ⟨h1, a + 1, by omega, hw⟩

theorem probe_endless {m : Memory 20} {k : Key} {st n i : Nat} (h : probe m k st n i = .endless) {a : Nat} (ha : a < n) :
    Memory.read m (walk i st a) ≠ none := by
  induction n generalizing i a with
  | zero => omega
  | succ n ih =>
    unfold probe at h
    split at h
    · cases h
    · next k' hk' =>
      split at h
      · cases h
      · cases a with
        | zero =>
          show Memory.read m i ≠ none
          rw [hk']
          simp
        | succ a => exact ih h (by omega)

/-- An entry written into an empty slot does not stop a search that found its pair before. -/
theorem probe_write_hit {m : Memory 20} {k v : Key} {st n i j e : Nat} (he : Memory.read m e = none)
    (h : probe m k st n i = .hit j) : probe (Memory.write m e v) k st n i = .hit j := by
  induction n generalizing i with
  | zero => cases h
  | succ n ih =>
    unfold probe at h ⊢
    split at h
    · cases h
    · next k' hk' =>
      have hie : i ≠ e := by
        rintro rfl
        rw [he] at hk'
        cases hk'
      rw [Memory.read_write_other _ _ hie, hk']
      split at h
      · next hk => simp [hk, Found.hit.inj h]
      · next hk => simpa [hk] using ih h

/-- A pair written where the search for it stopped is found there afterwards (rule R115). -/
theorem probe_write_miss {m : Memory 20} {k : Key} {st n i e : Nat} (h : probe m k st n i = .miss e) :
    probe (Memory.write m e k) k st n i = .hit e := by
  have he := (probe_miss h).1
  induction n generalizing i with
  | zero => cases h
  | succ n ih =>
    unfold probe at h ⊢
    split at h
    · obtain rfl := Found.miss.inj h
      simp
    · next k' hk' =>
      have hie : i ≠ e := by
        rintro rfl
        rw [he] at hk'
        cases hk'
      rw [Memory.read_write_other _ _ hie, hk']
      split at h
      · cases h
      · next hk => simpa [hk] using ih h

theorem lookup_hit {m : Memory 20} {p : Code} {b : BitVec 8} {j : Nat} (h : lookup m p b = .hit j) :
    Memory.read m j = some (keyOf p b) := (probe_hit h).1

theorem lookup_miss {m : Memory 20} {p : Code} {b : BitVec 8} {j : Nat} (h : lookup m p b = .miss j) :
    Memory.read m j = none ∧ j < 5003 := by
  obtain ⟨h1, a, _, hw⟩ := probe_miss h
  have hh := hashIndex_lt p b
  refine ⟨h1, ?_⟩
  rw [← hw]
  exact walk_lt (by omega) (probeStep_bounds hh).2 a

theorem lookup_write_other {m : Memory 20} {p : Code} {b : BitVec 8} {j e : Nat} {v : Key}
    (he : Memory.read m e = none) (h : lookup m p b = .hit j) : lookup (Memory.write m e v) p b = .hit j :=
  probe_write_hit he h

theorem lookup_write_self {m : Memory 20} {p : Code} {b : BitVec 8} {e : Nat} (h : lookup m p b = .miss e) :
    lookup (Memory.write m e (keyOf p b)) p b = .hit e := probe_write_miss h

end Sys2Proof.Machine
end

