-- ==== Sys2Proof/Laws/Commands.lean ====
section
/-! SUPPORT. The commands START, PUT and FINISH (40_commands.md rules R91 to R93) as sequences of the procedures they
call: for each, when it goes on and with what. -/

namespace Sys2Proof.Machine

/-! ### START -/

theorem legal_cases {d : BitVec 4} (h1 : 1 ≤ d.toNat) (h2 : d.toNat ≤ 8) :
    d = 1#4 ∨ d = 2#4 ∨ d = 3#4 ∨ d = 4#4 ∨ d = 5#4 ∨ d = 6#4 ∨ d = 7#4 ∨ d = 8#4 := by
  revert d; decide

/-- The state after the initial-code-size byte of START. -/
def opened (d : BitVec 4) (s : State) : State :=
  { openCall d s with sink := s.sink ++ [BitVec.ofNat 8 (initSize d)], answers := s.answers.drop 1 }

theorem drain_none {n : Nat} {s : State} (h : s.accBits.toNat < 8) : drain n s = .go s := by
  cases n with
  | zero => rfl
  | succ n => unfold drain; rw [if_neg (by omega)]

theorem drain_once {n : Nat} {s : State} (h0 : s.blkCount.toNat < 253) (h1 : 8 ≤ s.accBits.toNat)
    (h2 : s.accBits.toNat < 16) :
    drain (n + 1) s = .go (dropByte (storeByte (s.acc.extractLsb' 0 8) s)) := by
  have hc : s.blkCount.toNat ≤ 253 := by omega
  unfold drain
  rw [if_pos h1, (byteOut_go hc).mpr (.inl ⟨h0, rfl⟩), Flow.go_andThen, drain_none]
  rw [dropByte_accBits, storeByte_accBits, accBits_drop h1]
  omega

theorem execStart_eq {d : BitVec 4} {s : State} (hd : legalDepth d = true) (ha : sinkAccepts 1 s) :
    exec (.start d) s = answer (emitCode (clearWord d) (opened d s)) := by
  have hs : sinkWrite (BitVec.ofNat 8 (initSize d)) (openCall d s) = .go _ := sinkWrite_go.mpr ⟨ha, rfl⟩
  show execStart d s = _
  unfold execStart
  rw [if_pos hd, hs]
  rfl

/-- The opening clear code, by the number of bits it has (rule R43). -/
theorem emitCode_opened {d : BitVec 4} {s : State} (hd : legalDepth d = true) :
    emitCode (clearWord d) (opened d s) = .go (widthStep (clearWord d)
      (if initWidth d < 8 then pack (clearWord d) (opened d s)
       else dropByte (storeByte ((pack (clearWord d) (opened d s)).acc.extractLsb' 0 8) (pack (clearWord d) (opened d s))))) := by
  have hi := initSize_bounds hd
  have hb : (pack (clearWord d) (opened d s)).accBits.toNat = initWidth d := by
    rw [accBits_pack]
    · simp only [opened, openCall, clearTable, initWidth, BitVec.toNat_ofNat]
      omega
    · simp [opened, openCall, clearTable]
    · simp only [opened, openCall, clearTable, initWidth, BitVec.toNat_ofNat]
      omega
  unfold initWidth at *
  unfold emitCode
  by_cases h : initSize d + 1 < 8
  · rw [drain_none (by omega), Flow.go_andThen, if_neg, if_pos h]
    exact clear_ne_eof hd
  · rw [drain_once (by simp [opened, openCall, clearTable]) (by omega) (by omega), Flow.go_andThen, if_neg, if_neg h]
    exact clear_ne_eof hd

/-! ### Codes that the sink lets through -/

/-- A code other than the end code goes on when the sink accepts the one sub-block it may write, and uses up no other
answers. -/
theorem emitCode_accepted {c : Code} {s : State} (h : EmitReady s) (he : c ≠ eofWord s.depth)
    (ha : sinkAccepts (if s.blkCount.toNat + (s.accBits.toNat + s.codeWidth.toNat) / 8 < 254 then 0 else 255) s) :
    ∃ t, emitCode c s = .go t ∧ t.answers =
      s.answers.drop (if s.blkCount.toNat + (s.accBits.toNat + s.codeWidth.toNat) / 8 < 254 then 0 else 255) := by
  have h1 := h.accBits
  have h2 := h.codeWidth
  have hb := accBits_pack (c := c) h1 h2
  obtain ⟨u, hu, hua⟩ := drain_accepted (n := 3) (s := pack c s) h.packable.1 (by omega) (by rw [hb]; exact ha)
  rw [hb] at hua
  have hd := drain_ends 3 (pack c s)
  rw [hu] at hd
  have hdep : u.depth = s.depth := hd.1.depth
  refine ⟨widthStep c u, ?_, by rw [widthStep_answers]; exact hua⟩
  unfold emitCode
  rw [hu, Flow.go_andThen, hdep, if_neg he]

/-! ### PUT -/

/-- A registers-only view of rule R41 items 1, 5 and 6. -/
theorem BetweenCommands.emitReady {s : State} (h : BetweenCommands s) : EmitReady s :=
  ⟨⟨h.blk_count, h.acc_low⟩, h.acc_bits, h.width_high⟩

theorem BetweenCommands.packerReady {s : State} (h : BetweenCommands s) : packerReady s = true := by
  simp [Machine.packerReady, h.depth_legal, h.width_low, h.width_high, h.acc_bits, h.acc_low, h.blk_count]

theorem BetweenCommands.prevReady {s : State} (h : BetweenCommands s) (ha : s.phase = .active) :
    prevReady s = true := by
  obtain ⟨h1, h2, h3⟩ := h.prev_code ha
  simp [Machine.prevReady, h2, h3, Nat.lt_of_lt_of_le h1 h.next_fits]

theorem prevReady_iff {s : State} : prevReady s = true ↔
    s.prevCode.toNat < 2 ^ s.codeWidth.toNat ∧ s.prevCode ≠ clearWord s.depth ∧ s.prevCode ≠ eofWord s.depth := by
  simp [prevReady, and_assoc]

theorem nextSymbol_hit {c : BitVec 8} {s : State} {slot : Nat} (h : lookup s.hkey s.prevCode c = .hit slot) :
    nextSymbol c s = .go (extendString slot s) := by
  simp only [nextSymbol, h]

theorem emitCode_next {c : Code} {s t : State} (h : emitCode c s = .go t) : EmitFrame s t := by
  have := emitCode_ends c s
  rw [h] at this
  exact this.1

theorem nextSymbol_insert {c : BitVec 8} {s u : State} {slot : Nat} (h : lookup s.hkey s.prevCode c = .miss slot)
    (hn : s.nextCode.toNat < 4096) :
    nextSymbol c s = .go u ↔
      ∃ s1, emitCode s.prevCode s = .go s1 ∧ u = insertEntry slot s.prevCode c (startString c s1) := by
  simp only [nextSymbol, h, Flow.andThen_go]
  refine exists_congr fun s1 => and_congr_right fun h1 => ?_
  have : (startString c s1).nextCode.toNat < Config.maxCodes := by
    rw [startString_nextCode, (emitCode_next h1).nextCode]
    exact hn
  simp only [roomTest, if_pos this, Flow.go.injEq]
  exact eq_comm

theorem nextSymbol_clear {c : BitVec 8} {s u : State} {slot : Nat} (h : lookup s.hkey s.prevCode c = .miss slot)
    (hn : ¬ s.nextCode.toNat < 4096) :
    nextSymbol c s = .go u ↔
      ∃ s1, emitCode s.prevCode s = .go s1 ∧
        emitCode (clearWord s.depth) (restartCodes (clearTable (startString c s1))) = .go u := by
  simp only [nextSymbol, h, Flow.andThen_go]
  refine exists_congr fun s1 => and_congr_right fun h1 => ?_
  have : ¬ (startString c s1).nextCode.toNat < Config.maxCodes := by
    rw [startString_nextCode, (emitCode_next h1).nextCode]
    exact hn
  simp only [roomTest, if_neg this, startString_depth, (emitCode_next h1).depth]

end Sys2Proof.Machine
end

