-- ==== Sys2Proof/Laws/Exec.lean ====
section
/-! SUPPORT. What a command can do, once for all commands (40_commands.md rule R90): it is turned away, or it closes a
failed call, or it has no meaning, or it runs to an end, to a sink failure or to a byte the sink never answers. -/

namespace Sys2Proof.Machine

/-- What a command that runs leaves alone, and what START and the others do to `LAST_ERR` and `DEPTH`. -/
structure RunFrame (i : Instr) (s t : State) : Prop where
  cmd : t.cmd = s.cmd
  rsp : t.rsp = s.rsp
  resetPin : t.resetPin = s.resetPin
  lastErr : t.lastErr = (match i with | .start _ => .eNone | _ => s.lastErr)
  depth : t.depth = (match i with | .start d => d | _ => s.depth)

/-- `PHASE` after a command that has run to its end (rule R95). -/
def endPhase : Instr → Phase
  | .start _ => .empty
  | .put _ => .active
  | _ => .idle

/-- The command runs: `F` is its procedure, from any sink. -/
structure RunsAs (i : Instr) (s : State) (F : State → Flow) : Prop where
  exec : exec i s = answer (F s)
  calm : Machine.exec i (calm s) = answer (F (calm s))
  follows : Follows s (F (Machine.calm s)) (F s)
  ends : Ends (RunFrame i) s (F s)
  calmEnds : Ends (RunFrame i) (Machine.calm s) (F (Machine.calm s))
  phase : ∀ t, F s = .go t → t.phase = endPhase i

theorem RunFrame.of_env {i : Instr} {s t : State} (hi : ∀ d, i ≠ .start d) (h : EnvFrame s t) : RunFrame i s t := by
  cases i with
  | start d => exact absurd rfl (hi d)
  | _ => exact ⟨h.cmd, h.rsp, h.resetPin, h.lastErr, h.depth⟩

theorem nextSymbol_phase {c : BitVec 8} {s t : State} (h : nextSymbol c s = .go t) : t.phase = s.phase := by
  cases hl : lookup s.hkey s.prevCode c with
  | hit slot =>
    rw [nextSymbol_hit hl] at h
    obtain rfl := Flow.go.inj h
    rfl
  | endless => simp [nextSymbol, hl] at h
  | miss slot =>
    by_cases hn : s.nextCode.toNat < 4096
    · obtain ⟨s1, h1, rfl⟩ := (nextSymbol_insert hl hn).mp h
      exact (emitCode_next h1).phase
    · obtain ⟨s1, h1, h2⟩ := (nextSymbol_clear hl hn).mp h
      exact (emitCode_next h2).phase.trans (emitCode_next h1).phase

theorem closeStream_phase {s t : State} (h : closeStream s = .go t) : t.phase = .idle := by
  unfold closeStream at h
  obtain ⟨u, _, h⟩ := Flow.andThen_go.mp h
  obtain rfl := Flow.go.inj h
  rfl

theorem Ends.of_openCall {d : BitVec 4} {s : State} {f : Flow} (h : Ends EmitFrame (openCall d s) f) :
    Ends (RunFrame (.start d)) s f := by
  cases f with
  | stuck r => trivial
  | go t => exact ⟨⟨h.1.cmd, h.1.rsp, h.1.resetPin, h.1.lastErr, h.1.depth⟩, h.2⟩
  | sinkFail t => exact ⟨⟨h.1.cmd, h.1.rsp, h.1.resetPin, h.1.lastErr, h.1.depth⟩, h.2⟩

/-- START of a legal depth runs. -/
theorem start_runs {d : BitVec 4} (hd : legalDepth d = true) (s : State) :
    RunsAs (.start d) s
      (fun s => (sinkWrite (BitVec.ofNat 8 (initSize d)) (openCall d s)).andThen (emitCode (clearWord d))) where
  exec := by simp only [Machine.exec, execStart, hd, if_true]
  calm := by simp only [Machine.exec, execStart, hd, if_true]
  follows := startRun_follows d s
  ends := Ends.of_openCall
    (((sinkWrite_ends _ _).mono @OnlySink.emit).andThen @EmitFrame.trans fun t _ => emitCode_ends _ t)
  calmEnds := Ends.of_openCall
    (((sinkWrite_ends _ _).mono @OnlySink.emit).andThen @EmitFrame.trans fun t _ => emitCode_ends _ t)
  phase := by
    intro t h
    obtain ⟨u, hu, h⟩ := Flow.andThen_go.mp h
    rw [(emitCode_next h).phase, (sinkWrite_go.mp hu).2]
    rfl

/-- PUT of a legal symbol in `EMPTY`. -/
theorem put_empty_runs {c : BitVec 8} {s : State} (hp : s.phase = .empty) (hc : symbolLegal s.depth c = true) :
    RunsAs (.put c) s (fun s => .go (firstSymbol c s)) where
  exec := by simp only [Machine.exec, execPut, hp, hc, if_true]
  calm := by
    simp only [Machine.exec, execPut, show (calm s).phase = .empty from hp,
      show symbolLegal (calm s).depth c = true from hc, if_true]
  follows := Follows.pure rfl rfl rfl
  ends := Ends.pure ⟨rfl, rfl, rfl, rfl, rfl⟩ rfl rfl
  calmEnds := Ends.pure ⟨rfl, rfl, rfl, rfl, rfl⟩ rfl rfl
  phase := by
    intro t h
    obtain rfl := Flow.go.inj h
    rfl

/-- PUT of a legal symbol in `ACTIVE`. -/
theorem put_active_runs {c : BitVec 8} {s : State} (hp : s.phase = .active) (hc : symbolLegal s.depth c = true) :
    RunsAs (.put c) s (nextSymbol c) where
  exec := by simp only [Machine.exec, execPut, hp, hc, if_true]
  calm := by
    simp only [Machine.exec, execPut, show (calm s).phase = .active from hp,
      show symbolLegal (calm s).depth c = true from hc, if_true]
  follows := nextSymbol_follows c s
  ends := (nextSymbol_ends c s).mono fun _ _ => RunFrame.of_env (by intro d h; cases h)
  calmEnds := (nextSymbol_ends c _).mono fun _ _ => RunFrame.of_env (by intro d h; cases h)
  phase := fun t h => (nextSymbol_phase h).trans hp

/-- FINISH in `EMPTY`. -/
theorem finish_empty_runs {s : State} (hp : s.phase = .empty) : RunsAs .finish s closeStream where
  exec := by simp only [Machine.exec, execFinish, hp]
  calm := by simp only [Machine.exec, execFinish, show (calm s).phase = .empty from hp]
  follows := closeStream_follows s
  ends := (closeStream_ends s).mono fun _ _ => RunFrame.of_env (by intro d h; cases h)
  calmEnds := (closeStream_ends _).mono fun _ _ => RunFrame.of_env (by intro d h; cases h)
  phase := fun _ h => closeStream_phase h

/-- FINISH in `ACTIVE`. -/
theorem finish_active_runs {s : State} (hp : s.phase = .active) :
    RunsAs .finish s (fun s => (emitCode s.prevCode s).andThen closeStream) where
  exec := by simp only [Machine.exec, execFinish, hp]
  calm := by simp only [Machine.exec, execFinish, show (calm s).phase = .active from hp]
  follows := (emitCode_follows _ s).andThen closeStream_follows
  ends := (((emitCode_ends _ s).mono @EmitFrame.toEnvFrame).andThen @EnvFrame.trans fun t _ => closeStream_ends t).mono
    fun _ _ => RunFrame.of_env (by intro d h; cases h)
  calmEnds := (((emitCode_ends _ _).mono @EmitFrame.toEnvFrame).andThen @EnvFrame.trans fun t _ => closeStream_ends t).mono
    fun _ _ => RunFrame.of_env (by intro d h; cases h)
  phase := by
    intro t h
    obtain ⟨u, _, h⟩ := Flow.andThen_go.mp h
    exact closeStream_phase h

/-- Every command, in every state: turned away (rules R94, R95), closing a failed call (rule R155), without a meaning
(U1), or running (rule R90 step 3). -/
theorem exec_shape (i : Instr) (s : State) :
    (∃ e, e ≠ .eNone ∧ exec i s = .next (refuse e s) ∧ exec i (calm s) = .next (refuse e (calm s))) ∨
    (i = .finish ∧ s.phase = .failed ∧ exec i s = .next (closeFailed s) ∧
      exec i (calm s) = .next (closeFailed (calm s))) ∨
    (∃ c, i = .put c ∧ callOpen s ∧ symbolLegal s.depth c = false ∧ exec i s = .refused .symbolNotBelowClearCode ∧
      exec i (calm s) = .refused .symbolNotBelowClearCode) ∨
    (∃ F, RunsAs i s F) := by
  cases i with
  | start d =>
    by_cases hd : legalDepth d = true
    · exact .inr (.inr (.inr ⟨_, start_runs hd s⟩))
    · exact .inl ⟨.eReserved, by decide, by simp only [exec, execStart, hd, Bool.false_eq_true, if_false],
        by simp only [exec, execStart, hd, Bool.false_eq_true, if_false]⟩
  | put c =>
    cases hp : s.phase with
    | idle =>
      exact .inl ⟨.eSeq, by decide, by simp only [exec, execPut, hp],
        by simp only [exec, execPut, show (calm s).phase = .idle from hp]⟩
    | failed =>
      exact .inl ⟨.eSink, by decide, by simp only [exec, execPut, hp],
        by simp only [exec, execPut, show (calm s).phase = .failed from hp]⟩
    | empty =>
      by_cases hc : symbolLegal s.depth c = true
      · exact .inr (.inr (.inr ⟨_, put_empty_runs hp hc⟩))
      · refine .inr (.inr (.inl ⟨c, rfl, .inl hp, by simpa using hc, ?_, ?_⟩))
        · simp only [exec, execPut, hp, hc, Bool.false_eq_true, if_false]
        · simp only [exec, execPut, show (calm s).phase = .empty from hp,
            show ¬ symbolLegal (calm s).depth c = true from hc, Bool.false_eq_true, if_false]
    | active =>
      by_cases hc : symbolLegal s.depth c = true
      · exact .inr (.inr (.inr ⟨_, put_active_runs hp hc⟩))
      · refine .inr (.inr (.inl ⟨c, rfl, .inr hp, by simpa using hc, ?_, ?_⟩))
        · simp only [exec, execPut, hp, hc, Bool.false_eq_true, if_false]
        · simp only [exec, execPut, show (calm s).phase = .active from hp,
            show ¬ symbolLegal (calm s).depth c = true from hc, Bool.false_eq_true, if_false]
  | finish =>
    cases hp : s.phase with
    | idle =>
      exact .inl ⟨.eSeq, by decide, by simp only [exec, execFinish, hp],
        by simp only [exec, execFinish, show (calm s).phase = .idle from hp]⟩
    | failed =>
      exact .inr (.inl ⟨rfl, rfl, by simp only [exec, execFinish, hp],
        by simp only [exec, execFinish, show (calm s).phase = .failed from hp]⟩)
    | empty => exact .inr (.inr (.inr ⟨_, finish_empty_runs hp⟩))
    | active => exact .inr (.inr (.inr ⟨_, finish_active_runs hp⟩))
  | _ => exact .inl ⟨.eReserved, by decide, rfl, rfl⟩

/-- A command that runs and answers: to its end, or to a sink failure. -/
theorem RunsAs.next {i : Instr} {s t : State} {F : State → Flow} (h : RunsAs i s F) (ht : Machine.exec i s = .next t) :
    (∃ u, F s = .go u ∧ t = respond .eNone u) ∨ (∃ u, F s = .sinkFail u ∧ t = takeSinkFail u) := by
  rw [h.exec] at ht
  cases hF : F s with
  | go u =>
    rw [hF] at ht
    exact .inl ⟨u, rfl, (Host.Outcome.next.inj ht).symm⟩
  | sinkFail u =>
    rw [hF] at ht
    exact .inr ⟨u, rfl, (Host.Outcome.next.inj ht).symm⟩
  | stuck r =>
    rw [hF] at ht
    cases ht

/-- The one response of a command and what it does to `LAST_ERR` (rules R29, R37, R90). -/
theorem exec_rsp {i : Instr} {s t : State} : exec i s = .next t → ∃ e : ErrCode, t.rsp = s.rsp ++ [responseWord e] ∧
    (e ≠ .eNone → t.lastErr = e) ∧ (e = .eNone → t.lastErr = (match i with | .start _ => .eNone | _ => s.lastErr)) := by
  intro h
  rcases exec_shape i s with ⟨e, he, h1, -⟩ | ⟨rfl, hp, h1, -⟩ | ⟨c, rfl, _, _, h1, -⟩ | ⟨F, hR⟩
  · rw [h1] at h; cases h
    exact ⟨e, rfl, fun _ => rfl, fun h => absurd h he⟩
  · rw [h1] at h; cases h
    exact ⟨.eSink, rfl, fun _ => rfl, fun h => by cases h⟩
  · rw [h1] at h; cases h
  · have he := hR.ends
    rcases hR.next h with ⟨u, hu, rfl⟩ | ⟨u, hu, rfl⟩
    · rw [hu] at he
      refine ⟨.eNone, by rw [respond_rsp, he.1.rsp], fun h => absurd rfl h, fun _ => he.1.lastErr⟩
    · rw [hu] at he
      refine ⟨.eSink, ?_, fun _ => rfl, fun h => by cases h⟩
      show u.rsp ++ _ = _
      rw [he.1.rsp]

theorem responseWord_inj {e e' : ErrCode} (h : responseWord e = responseWord e') : e = e' := by
  cases e <;> cases e' <;> first | rfl | exact absurd h (by decide)

/-! ### Before a sink that accepts everything -/

theorem flushBlock_count {s t : State} (hc : s.blkCount.toNat ≤ 254) (h : flushBlock s = .go t) : t.blkCount = 0#8 := by
  rcases (flushBlock_go hc).mp h with ⟨h0, rfl⟩ | ⟨_, _, rfl⟩
  · exact h0
  · rfl

theorem emitCode_count {c : Code} {s t : State} (hc : s.blkCount.toNat ≤ 253) (h : emitCode c s = .go t) :
    t.blkCount.toNat ≤ 253 := by
  unfold emitCode at h
  obtain ⟨u, hu, h⟩ := Flow.andThen_go.mp h
  have hu253 : u.blkCount.toNat ≤ 253 := drain_count (s := pack c s) hc hu
  split at h
  · obtain ⟨v, hv, h⟩ := Flow.andThen_go.mp h
    have := padOut_count (by simpa using hu253) hv
    rw [flushBlock_count (by omega) h]
    decide
  · obtain rfl := Flow.go.inj h
    simpa using hu253

theorem emitCode_calm_next {c : Code} {s : State} (hc : s.blkCount.toNat ≤ 253) :
    ∃ p, emitCode c (calm s) = .go (calm p) ∧ p.blkCount.toNat ≤ 253 := by
  obtain ⟨p, hp⟩ := emitCode_calm (c := c) hc
  have hf := emitCode_follows c s
  rw [hp] at hf
  obtain ⟨_, _, ha, _⟩ := hf
  exact ⟨p, by rw [hp, calm_eq_self ha], emitCode_count (s := calm s) hc hp⟩

theorem closeStream_calm {s : State} (hc : s.blkCount.toNat ≤ 253) : ∃ p, closeStream (calm s) = .go p := by
  obtain ⟨p, hp, -⟩ := emitCode_calm_next (c := eofWord s.depth) hc
  exact ⟨_, by rw [closeStream, show (calm s).depth = s.depth from rfl, hp]; rfl⟩

theorem finishActive_calm {s : State} (hc : s.blkCount.toNat ≤ 253) :
    ∃ p, (emitCode s.prevCode (calm s)).andThen closeStream = .go p := by
  obtain ⟨p, hp, hp'⟩ := emitCode_calm_next (c := s.prevCode) hc
  rw [hp]
  exact closeStream_calm hp'

theorem nextSymbol_calm {c : BitVec 8} {s : State} (hc : s.blkCount.toNat ≤ 253)
    (hl : lookup s.hkey s.prevCode c ≠ .endless) : ∃ p, nextSymbol c (calm s) = .go p := by
  cases h : lookup s.hkey s.prevCode c with
  | endless => exact absurd h hl
  | hit slot => exact ⟨_, nextSymbol_hit (s := calm s) h⟩
  | miss slot =>
    obtain ⟨p, hp, hp'⟩ := emitCode_calm_next (c := s.prevCode) hc
    by_cases hn : s.nextCode.toNat < 4096
    · exact ⟨_, (nextSymbol_insert (s := calm s) h hn).mpr ⟨_, hp, rfl⟩⟩
    · obtain ⟨q, hq⟩ := emitCode_calm (c := clearWord s.depth) (s := restartCodes (clearTable (startString c p))) hp'
      exact ⟨q, (nextSymbol_clear (s := calm s) h hn).mpr ⟨_, hp, hq⟩⟩

/-- A run that goes on in calm goes on, fails, or hangs; it has no other end. -/
theorem Follows.ends {s p : State} {run : Flow} (h : Follows s (.go p) run) :
    (∃ t, run = .go t) ∨ (∃ t, run = .sinkFail t) ∨ (run = .stuck .sinkNeverAnswers ∧ ¬ sinkResponds s) := by
  obtain ⟨B, _, _, h3, h4, h5⟩ := h
  rcases first_refusal B.length s with ha | ⟨k, hk, ha, hr | hr⟩
  · exact .inl ⟨_, h3 ha⟩
  · obtain ⟨u, hu, _⟩ := h4 k hk ha hr
    exact .inr (.inl ⟨u, hu⟩)
  · refine .inr (.inr ⟨h5 k hk ha hr, fun hs => ?_⟩)
    exact hs _ (List.mem_of_getElem? hr) rfl

end Sys2Proof.Machine
end

