-- ==== Sys2Proof/Laws/Alike.lean ====
section
/-! SUPPORT. What a command can see (70_reset_and_hazards.md rule R173): from two states that agree on all that the rules
read, every procedure writes the same bytes and ends alike. -/

namespace Sys2Proof.Machine

/-- Two states agree on all that a procedure of a command reads. -/
structure Twin (s u : State) : Prop where
  phase : s.phase = u.phase
  answers : s.answers = u.answers
  depth : s.depth = u.depth
  codeWidth : s.codeWidth = u.codeWidth
  prevCode : s.phase = .active → s.prevCode = u.prevCode
  nextCode : s.nextCode = u.nextCode
  acc : s.acc = u.acc
  accBits : s.accBits = u.accBits
  blkCount : s.blkCount = u.blkCount
  blkByte : ∀ j, j < s.blkCount.toNat → blkByte s j = blkByte u j
  hkey : s.hkey = u.hkey
  hcode : ∀ slot, (Memory.read s.hkey slot).isSome = true → hcodeAt s slot = hcodeAt u slot

/-- Two procedures, started in `s` and in `u`, write the same bytes and end alike. -/
def Alike (s u : State) : Flow → Flow → Prop
  | .go t, .go v => Twin t v ∧ ∃ bs, t.sink = s.sink ++ bs ∧ v.sink = u.sink ++ bs
  | .sinkFail t, .sinkFail v => t.answers = v.answers ∧ ∃ bs, t.sink = s.sink ++ bs ∧ v.sink = u.sink ++ bs
  | .stuck r, .stuck r' => r = r'
  | _, _ => False

theorem Alike.pure {s u t v : State} (h : Twin t v) (h1 : t.sink = s.sink) (h2 : v.sink = u.sink) :
    Alike s u (.go t) (.go v) := ⟨h, [], by simp [h1], by simp [h2]⟩

theorem Alike.andThen {s u : State} {f f' : Flow} {g g' : State → Flow} (h : Alike s u f f')
    (hg : ∀ t v, Twin t v → f = .go t → f' = .go v → Alike t v (g t) (g' v)) :
    Alike s u (f.andThen g) (f'.andThen g') := by
  cases f with
  | stuck r => cases f' with
    | stuck r' => exact h
    | _ => exact h.elim
  | sinkFail t => cases f' with
    | sinkFail v => exact h
    | _ => exact h.elim
  | go t => cases f' with
    | go v =>
      obtain ⟨ht, bs, h1, h2⟩ := h
      have := hg t v ht rfl rfl
      simp only [Flow.go_andThen]
      cases hx : g t with
      | stuck r => cases hy : g' v <;> rw [hx, hy] at this <;> exact this
      | sinkFail a =>
        cases hy : g' v with
        | sinkFail b =>
          rw [hx, hy] at this
          obtain ⟨ha, cs, h3, h4⟩ := this
          exact ⟨ha, bs ++ cs, by rw [h3, h1, List.append_assoc], by rw [h4, h2, List.append_assoc]⟩
        | _ => rw [hx, hy] at this; exact this.elim
      | go a =>
        cases hy : g' v with
        | go b =>
          rw [hx, hy] at this
          obtain ⟨ha, cs, h3, h4⟩ := this
          exact ⟨ha, bs ++ cs, by rw [h3, h1, List.append_assoc], by rw [h4, h2, List.append_assoc]⟩
        | _ => rw [hx, hy] at this; exact this.elim
    | _ => exact h.elim

theorem sinkWrite_alike (b : Byte) {s u : State} (h : Twin s u) : Alike s u (sinkWrite b s) (sinkWrite b u) := by
  unfold sinkWrite
  rw [← h.answers]
  split
  · exact ⟨{ h with answers := rfl }, [b], rfl, rfl⟩
  · exact ⟨{ h with answers := rfl }, [b], rfl, rfl⟩
  · exact ⟨rfl, [], by simp, by simp⟩
  · rfl

theorem sinkWriteAll_alike (bs : List Byte) {s u : State} (h : Twin s u) :
    Alike s u (sinkWriteAll bs s) (sinkWriteAll bs u) := by
  induction bs generalizing s u with
  | nil => exact Alike.pure h rfl rfl
  | cons b bs ih => exact (sinkWrite_alike b h).andThen fun t v ht _ _ => ih ht

theorem Twin.blkBytes {s u : State} (h : Twin s u) : blkBytes s = blkBytes u := by
  unfold Machine.blkBytes
  rw [← h.blkCount]
  exact List.map_congr_left fun j hj => h.blkByte j (List.mem_range.mp hj)

theorem flushBlock_alike {s u : State} (h : Twin s u) : Alike s u (flushBlock s) (flushBlock u) := by
  unfold flushBlock
  rw [← h.blkCount, ← h.blkBytes]
  split
  · exact Alike.pure h rfl rfl
  · split
    · rfl
    · refine (sinkWriteAll_alike _ h).andThen fun t v ht _ _ => Alike.pure ?_ rfl rfl
      exact { ht with blkCount := rfl, blkByte := fun j hj => absurd hj (Nat.not_lt_zero j) }

theorem storeByte_twin (b : Byte) {s u : State} (h : Twin s u) (hc : s.blkCount.toNat < 254) :
    Twin (storeByte b s) (storeByte b u) := by
  refine { h with blkCount := ?_, blkByte := ?_ }
  · show s.blkCount + 1#8 = u.blkCount + 1#8
    rw [h.blkCount]
  · intro j hj
    rw [storeByte_count (by omega)] at hj
    have e : ∀ x : State, Machine.blkByte (storeByte b x) j =
        if j = x.blkCount.toNat then b else Machine.blkByte x j := by
      intro x
      unfold Machine.blkByte
      rw [storeByte_blkBuf, Memory.read_write]
      split <;> rfl
    rw [e, e, ← h.blkCount]
    split
    · rfl
    · exact h.blkByte j (by omega)

theorem byteOut_alike (b : Byte) {s u : State} (h : Twin s u) : Alike s u (byteOut b s) (byteOut b u) := by
  unfold byteOut
  rw [← h.blkCount]
  split
  · rfl
  · next hc =>
    have ht := storeByte_twin b h (Nat.not_le.mp hc)
    rw [← ht.blkCount]
    split
    · exact flushBlock_alike ht
    · exact Alike.pure ht rfl rfl

theorem dropByte_twin {s u : State} (h : Twin s u) : Twin (dropByte s) (dropByte u) := by
  refine { h with acc := ?_, accBits := ?_ }
  · show s.acc >>> 8 = u.acc >>> 8; rw [h.acc]
  · show s.accBits - 8#5 = u.accBits - 8#5; rw [h.accBits]

theorem drain_alike (n : Nat) {s u : State} (h : Twin s u) : Alike s u (drain n s) (drain n u) := by
  induction n generalizing s u with
  | zero => exact Alike.pure h rfl rfl
  | succ n ih =>
    unfold drain
    rw [← h.accBits, ← h.acc]
    split
    · refine (byteOut_alike _ h).andThen fun t v ht _ _ => ?_
      exact (Alike.pure (dropByte_twin ht) rfl rfl : Alike t v (.go _) (.go _)).andThen
        (g := drain n) (g' := drain n) fun a b hab _ _ => ih hab
    · exact Alike.pure h rfl rfl

theorem padOut_alike {s u : State} (h : Twin s u) : Alike s u (padOut s) (padOut u) := by
  unfold padOut
  rw [← h.accBits, ← h.acc]
  split
  · exact Alike.pure h rfl rfl
  · refine (byteOut_alike _ h).andThen fun t v ht _ _ => Alike.pure ?_ rfl rfl
    exact { ht with acc := rfl, accBits := rfl }

theorem widthStep_twin (c : Code) {s u : State} (h : Twin s u) : Twin (widthStep c s) (widthStep c u) := by
  unfold widthStep
  rw [← h.depth, ← h.codeWidth, ← h.nextCode]
  split
  · exact { h with codeWidth := rfl, depth := rfl, nextCode := rfl }
  · split
    · exact { h with codeWidth := rfl, depth := rfl, nextCode := rfl }
    · exact h

theorem pack_twin (c : Code) {s u : State} (h : Twin s u) : Twin (pack c s) (pack c u) := by
  refine { h with acc := ?_, accBits := ?_ }
  · show s.acc ||| _ = u.acc ||| _; rw [h.acc, h.accBits]
  · show s.accBits + _ = u.accBits + _; rw [h.accBits, h.codeWidth]

theorem emitCode_alike (c : Code) {s u : State} (h : Twin s u) : Alike s u (emitCode c s) (emitCode c u) := by
  unfold emitCode
  have h1 : Alike s u (drain 3 (pack c s)) (drain 3 (pack c u)) := drain_alike 3 (pack_twin c h)
  refine h1.andThen fun t v ht _ _ => ?_
  rw [← ht.depth]
  have hw := widthStep_twin c ht
  split
  · exact (Alike.pure hw (by simp) (by simp) : Alike t v (.go _) (.go _)).andThen
      (g := fun x => (padOut x).andThen flushBlock) (g' := fun x => (padOut x).andThen flushBlock)
      fun a b hab _ _ => (padOut_alike hab).andThen fun _ _ hcd _ _ => flushBlock_alike hcd
  · exact Alike.pure hw (by simp) (by simp)

theorem closeStream_alike {s u : State} (h : Twin s u) : Alike s u (closeStream s) (closeStream u) := by
  unfold closeStream
  rw [← h.depth]
  refine ((emitCode_alike _ h).andThen fun t v ht _ _ => sinkWrite_alike _ ht).andThen fun t v ht _ _ => ?_
  exact Alike.pure { ht with phase := rfl, prevCode := fun hp => by cases hp } rfl rfl

theorem insertEntry_twin (slot : Nat) (p : Code) (b : BitVec 8) {s u : State} (h : Twin s u) :
    Twin (insertEntry slot p b s) (insertEntry slot p b u) := by
  refine { h with nextCode := ?_, hkey := ?_, hcode := ?_ }
  · show s.nextCode + 1#13 = u.nextCode + 1#13; rw [h.nextCode]
  · show Memory.write s.hkey _ _ = Memory.write u.hkey _ _; rw [h.hkey]
  · intro j hj
    have e : ∀ x : State, hcodeAt (insertEntry slot p b x) j =
        if j = slot then x.nextCode.extractLsb' 0 12 else hcodeAt x j := by
      intro x
      unfold hcodeAt
      show (Memory.read (Memory.write x.hcode slot _) j).getD _ = _
      rw [Memory.read_write]
      split <;> rfl
    rw [e, e, h.nextCode]
    split
    · rfl
    · next hne =>
      refine h.hcode j ?_
      have : Memory.read (insertEntry slot p b s).hkey j = Memory.read s.hkey j :=
        Memory.read_write_other _ _ hne
      rwa [this] at hj

theorem nextSymbol_alike (c : BitVec 8) {s u : State} (h : Twin s u) (hp : s.phase = .active) :
    Alike s u (nextSymbol c s) (nextSymbol c u) := by
  have hpc := h.prevCode hp
  unfold nextSymbol
  rw [← h.hkey, ← hpc]
  cases hl : lookup s.hkey s.prevCode c with
  | endless => rfl
  | hit slot =>
    refine Alike.pure { h with prevCode := fun _ => ?_ } rfl rfl
    exact h.hcode slot (by rw [lookup_hit hl]; rfl)
  | miss slot =>
    refine (emitCode_alike _ h).andThen fun t v ht _ _ => ?_
    have h1 : Twin (startString c t) (startString c v) := { ht with prevCode := fun _ => rfl }
    unfold roomTest
    rw [← h1.nextCode, ← h1.depth]
    split
    · exact Alike.pure (insertEntry_twin _ _ _ h1) rfl rfl
    · have h2 : Twin (restartCodes (clearTable (startString c t))) (restartCodes (clearTable (startString c v))) := by
        refine { h1 with nextCode := ?_, hkey := rfl, hcode := fun slot hs => by cases hs }
        show BitVec.ofNat 13 (firstFree t.depth) = BitVec.ofNat 13 (firstFree v.depth)
        rw [ht.depth]
      have := emitCode_alike (clearWord (startString c t).depth) h2
      exact this

theorem Twin.sameCall {s u : State} (h : Twin s u) (he : s.lastErr = u.lastErr) : SameCall s u :=
  ⟨h.phase, he, h.answers, fun _ => ⟨h.depth, h.codeWidth, h.prevCode, h.nextCode, h.acc, h.accBits, h.blkCount, h.blkByte,
    h.hkey, h.hcode⟩⟩

theorem SameCall.twin {s u : State} (h : SameCall s u) (ho : callOpen s) : Twin s u := by
  obtain ⟨h1, _, h2, h3⟩ := h
  obtain ⟨a, b, c, d, e, f, g, i, j, k⟩ := h3 ho
  exact ⟨h1, h2, a, b, c, d, e, f, g, i, j, k⟩

/-- Two commands that run alike are answered alike. -/
theorem RunsAs.sameEffect {i : Instr} {s u : State} {F : State → Flow} (hs : RunsAs i s F) (hu : RunsAs i u F)
    (he : s.lastErr = u.lastErr ∨ ∃ d, i = .start d) (h : Alike s u (F s) (F u)) :
    sameEffect s u (Machine.exec i s) (Machine.exec i u) := by
  rw [hs.exec, hu.exec]
  have e1 := hs.ends
  have e2 := hu.ends
  cases hx : F s with
  | stuck r => cases hy : F u <;> rw [hx, hy] at h <;> first | exact h.elim | exact h
  | sinkFail t =>
    cases hy : F u with
    | sinkFail v =>
      rw [hx, hy] at h
      rw [hx] at e1
      rw [hy] at e2
      obtain ⟨ha, bs, h1, h2⟩ := h
      refine ⟨⟨rfl, rfl, ha, ?_⟩, bs, [responseWord .eSink], h1, h2, ?_, ?_⟩
      · rintro (h | h) <;> cases h
      · show t.rsp ++ _ = _; rw [e1.1.rsp]
      · show v.rsp ++ _ = _; rw [e2.1.rsp]
    | _ => rw [hx, hy] at h; exact h.elim
  | go t =>
    cases hy : F u with
    | go v =>
      rw [hx, hy] at h
      rw [hx] at e1
      rw [hy] at e2
      obtain ⟨ht, bs, h1, h2⟩ := h
      have hl : t.lastErr = v.lastErr := by
        rw [e1.1.lastErr, e2.1.lastErr]
        rcases he with he | ⟨d, rfl⟩
        · rw [he]
        · rfl
      refine ⟨(Twin.sameCall (s := respond .eNone t) (u := respond .eNone v) { ht with } hl), bs, [responseWord .eNone],
        h1, h2, ?_, ?_⟩
      · show t.rsp ++ _ = _; rw [e1.1.rsp]
      · show v.rsp ++ _ = _; rw [e2.1.rsp]
    | _ => rw [hx, hy] at h; exact h.elim

theorem start_alike {d : BitVec 4} {s u : State} (ha : s.answers = u.answers) :
    Alike s u ((sinkWrite (BitVec.ofNat 8 (initSize d)) (openCall d s)).andThen (emitCode (clearWord d)))
      ((sinkWrite (BitVec.ofNat 8 (initSize d)) (openCall d u)).andThen (emitCode (clearWord d))) := by
  have h : Twin (openCall d s) (openCall d u) :=
    ⟨rfl, ha, rfl, rfl, fun hp => Phase.noConfusion (show Phase.empty = .active from hp), rfl, rfl, rfl, rfl,
      fun j hj => absurd hj (Nat.not_lt_zero j), rfl, fun slot hs => by cases hs⟩
  have := (sinkWrite_alike (BitVec.ofNat 8 (initSize d)) h).andThen
    (g := emitCode (clearWord d)) (g' := emitCode (clearWord d)) fun t v ht _ _ => emitCode_alike _ ht
  exact this

theorem refuse_sameEffect {e : ErrCode} {s u : State} (h : SameCall s u) :
    sameEffect s u (.next (refuse e s)) (.next (refuse e u)) :=
  ⟨⟨h.1, rfl, h.2.2⟩, [], [responseWord e], by simp [refuse, respond], by simp [refuse, respond], rfl, rfl⟩


end Sys2Proof.Machine
end

