-- ==== Sys2Proof/Laws/Finish.lean ====
section
/-! SUPPORT. FINISH in an open call (40_commands.md rule R93), that searches end in an open call (41_dictionary.md rule
R118), and that output is append-only. -/

namespace Sys2Proof.Machine

/-- In an open call every search ends (rule R118). -/
theorem lookup_not_endless {s : State} (hb : BetweenCommands s) (hw : Memory.wf Config.hsize s.hkey = true) (p : Code)
    (b : BitVec 8) : lookup s.hkey p b ≠ .endless := by
  have hl : s.hkey.length < 5003 := by
    have := hb.entry_count
    have := hb.next_high
    omega
  intro h
  obtain ⟨x, -, hx, hr⟩ := Memory.exists_unlisted (b := 5003) (lo := 0) hw (by omega)
  have hh := hashIndex_lt p b
  have hs := probeStep_bounds hh
  obtain ⟨n, hn, rfl⟩ := walk_covers (i := hashIndex p b) (by omega) hs.1 hs.2 hx
  exact absurd hr (probe_endless h hn)

/-- No command takes anything back (rules R54, R60). -/
theorem exec_append {i : Instr} {s t : State} (h : exec i s = .next t) : s.sink <+: t.sink ∧ s.rsp <+: t.rsp := by
  obtain ⟨e, he, -⟩ := exec_rsp h
  refine ⟨?_, by rw [he]; exact List.prefix_append _ _⟩
  rcases exec_shape i s with ⟨e, he, h1, -⟩ | ⟨rfl, hp', h1, -⟩ | ⟨c, rfl, _, _, h1, -⟩ | ⟨F, hR⟩
  · rw [h1] at h; cases h; exact List.prefix_refl _
  · rw [h1] at h; cases h; exact List.prefix_refl _
  · rw [h1] at h; cases h
  · have hen := hR.ends
    rcases hR.next h with ⟨u, hu, rfl⟩ | ⟨u, hu, rfl⟩
    · rw [hu] at hen
      obtain ⟨bs, hb⟩ := hen.2
      exact ⟨bs, hb.1.symm⟩
    · rw [hu] at hen
      obtain ⟨bs, hb⟩ := hen.2
      exact ⟨bs, hb.1.symm⟩

/-- The end code, its padding, the last sub-block and the terminator (rules R131, R142, R143). -/
theorem closeStream_spec {s t : State} (h : EmitReady s) (hc : (eofWord s.depth).toNat < 2 ^ s.codeWidth.toNat)
    (hg : closeStream s = .go t) :
    t.acc = 0#19 ∧ t.accBits = 0#5 ∧ t.blkCount = 0#8 ∧ t.depth = s.depth ∧ t.prevCode = s.prevCode ∧
      t.nextCode = s.nextCode ∧ t.hkey = s.hkey ∧ t.hcode = s.hcode ∧ Kept s t ((s.accBits.toNat + s.codeWidth.toNat + 7) / 8) ∧
      ∃ bs pad, t.sink = s.sink ++ subBlocks (blkBytes s ++ bs) ++ [0x00#8] ∧ pad < 8 ∧
        bs.length = (s.accBits.toNat + s.codeWidth.toNat + 7) / 8 ∧
        bytesBits bs = lowBits s.acc s.accBits.toNat ++ lowBits (eofWord s.depth) s.codeWidth.toNat ++
          List.replicate pad false := by
  unfold closeStream at hg
  obtain ⟨v, hv, hg⟩ := Flow.andThen_go.mp hg
  obtain ⟨u, hu, hv⟩ := Flow.andThen_go.mp hv
  obtain rfl := Flow.go.inj hg
  obtain ⟨hf, h1, h2, h3, bs, pad, h4, h5, h6, h7⟩ := emitEof_spec h hc hu
  have hk := emitEof_kept h hc hu
  obtain ⟨-, rfl⟩ := sinkWrite_go.mp hv
  exact ⟨h1, h2, h3, hf.depth, hf.prevCode, hf.nextCode, hf.hkey, hf.hcode, hk, bs, pad,
    by show u.sink ++ _ = _; rw [h4], h5, h6, h7⟩

/-- FINISH in either open phase (rule R93). -/
theorem finish_spec {s : State} (hp : packerReady s = true) (hq : s.phase = .active → prevReady s = true)
    {F : State → Flow} (hF : ∀ s', F s' = if s.phase = .active then (emitCode s'.prevCode s').andThen closeStream
      else closeStream s') {t : State} (hg : F s = .go t) :
    t.acc = 0#19 ∧ t.accBits = 0#5 ∧ t.blkCount = 0#8 ∧ t.depth = s.depth ∧ t.prevCode = s.prevCode ∧
      t.nextCode = s.nextCode ∧ t.hkey = s.hkey ∧ t.hcode = s.hcode ∧
      ∃ data pad, t.sink = s.sink ++ subBlocks data ++ [0x00#8] ∧ pad < 8 ∧ 1 ≤ data.length ∧
        s.blkCount.toNat ≤ data.length ∧ data.length ≤ s.blkCount.toNat + 4 ∧ Kept s t (data.length - s.blkCount.toNat) ∧
        bytesBits data = waitingBits s ++ (if s.phase = .active then
          lowBits s.prevCode s.codeWidth.toNat ++ lowBits (eofWord s.depth) (grownWidth s)
        else lowBits (eofWord s.depth) s.codeWidth.toNat) ++ List.replicate pad false := by
  obtain ⟨hE, hd, hw⟩ := packerReady_iff hp
  have hA := hE.accBits
  have hW := hE.codeWidth
  have hC := hE.packable.1
  have hi := initSize_bounds hd
  have hw' : 3 ≤ s.codeWidth.toNat := by unfold initWidth at hw; omega
  rw [hF] at hg
  by_cases ha : s.phase = .active
  · rw [if_pos ha] at hg
    obtain ⟨s1, hs1, hg⟩ := Flow.andThen_go.mp hg
    obtain ⟨q1, q2, q3⟩ := prevReady_iff.mp (hq ha)
    obtain ⟨hf, e2, e3, e4, e5, bs, e6, e7, e8⟩ := emitCode_spec hE q1 q3 hs1
    have hk1 := emitCode_kept hE q3 hs1
    have hcw : s1.codeWidth.toNat = grownWidth s := by rw [e5, widthStep_grown q2]
    have hg2 : s.codeWidth.toNat ≤ s1.codeWidth.toNat ∧ s1.codeWidth.toNat ≤ 12 := by
      rw [hcw]; unfold grownWidth; split <;> omega
    have hE1 : EmitReady s1 := ⟨e2, by omega, hg2.2⟩
    have hfit : (eofWord s1.depth).toNat < 2 ^ s1.codeWidth.toNat := by
      rw [hf.depth]
      exact Nat.lt_of_lt_of_le (controls_fit hd hw).2 (Nat.pow_le_pow_right (by omega) hg2.1)
    obtain ⟨c1, c2, c3, c4, c5, c6, c7, c8, c9, cs, pad, d1, d2, d3, d4⟩ := closeStream_spec hE1 hfit hg
    obtain ⟨ks, k1, k2, k3⟩ := e7
    refine ⟨c1, c2, c3, c4.trans hf.depth, c5.trans hf.prevCode, c6.trans hf.nextCode, c7.trans hf.hkey,
      c8.trans hf.hcode, blkBytes s ++ bs ++ cs, pad, ?_, d2, ?_, ?_, ?_, ?_, ?_⟩
    · rw [d1, ← k3, List.append_assoc ks.flatten, subBlocks_blocks k1, k2]
      simp only [List.append_assoc]
    · simp only [List.length_append, blkBytes_length]; omega
    · simp only [List.length_append, blkBytes_length]; omega
    · simp only [List.length_append, blkBytes_length]; omega
    · have := hk1.trans c9 e4
      rw [← e6, ← d3] at this
      simpa [blkBytes_length, Nat.add_assoc] using this
    · rw [if_pos ha, bytesBits_append, bytesBits_append, d4, hcw, hf.depth]
      unfold waitingBits
      simp only [List.append_assoc]
      rw [← List.append_assoc (bytesBits bs), e8]
      simp only [List.append_assoc]
  · rw [if_neg ha] at hg
    obtain ⟨c1, c2, c3, c4, c5, c6, c7, c8, c9, cs, pad, d1, d2, d3, d4⟩ := closeStream_spec hE (controls_fit hd hw).2 hg
    refine ⟨c1, c2, c3, c4, c5, c6, c7, c8, blkBytes s ++ cs, pad, d1, d2, ?_, ?_, ?_, ?_, ?_⟩
    · simp only [List.length_append, blkBytes_length]; omega
    · simp only [List.length_append, blkBytes_length]; omega
    · simp only [List.length_append, blkBytes_length]; omega
    · rw [← d3] at c9; simpa [blkBytes_length] using c9
    · rw [if_neg ha, bytesBits_append, d4]
      unfold waitingBits
      simp only [List.append_assoc]

/-- FINISH in either open phase, as one run. -/
theorem finish_runs {s : State} (ho : callOpen s) : ∃ F, RunsAs .finish s F ∧
    (∀ s', F s' = if s.phase = .active then (emitCode s'.prevCode s').andThen closeStream else closeStream s') ∧
    (s.blkCount.toNat ≤ 253 → ∃ p, F (calm s) = .go p) := by
  rcases ho with h | h
  · exact ⟨_, finish_empty_runs h, fun s' => by rw [if_neg (by rw [h]; decide)], fun hc => closeStream_calm hc⟩
  · exact ⟨_, finish_active_runs h, fun s' => by rw [if_pos h], fun hc => finishActive_calm hc⟩

end Sys2Proof.Machine
end

