-- ==== Sys2Proof/Laws/Invariant.lean ====
section
/-! SUPPORT. What the invariants of 10_state.md rule R41 need of each procedure: that the tables stay canonical, that
every waiting byte of `BLK_BUF` has been written, and that START, PUT and an insertion keep the rest. -/

namespace Sys2Proof.Machine

/-! ### The sub-block buffer -/

/-- From `s` to `t` the buffer stays canonical, and its waiting entries stay written. -/
structure BufKeeps (s t : State) : Prop where
  wf : Memory.wf Config.blkMax s.blkBuf = true → Memory.wf Config.blkMax t.blkBuf = true
  written : blkWritten s → blkWritten t

theorem BufKeeps.refl (s : State) : BufKeeps s s := ⟨id, id⟩

theorem BufKeeps.trans {s t u : State} (h : BufKeeps s t) (h' : BufKeeps t u) : BufKeeps s u :=
  ⟨h'.wf ∘ h.wf, h'.written ∘ h.written⟩

/-- The same buffer and the same count. -/
theorem BufKeeps.of_eq {s t : State} (hb : t.blkBuf = s.blkBuf) (hc : t.blkCount = s.blkCount) : BufKeeps s t := by
  refine ⟨fun h => by rw [hb]; exact h, fun h j hj => ?_⟩
  rw [hb]
  exact h j (by rwa [hc] at hj)

theorem flushBlock_buf {s t : State} (h : flushBlock s = .go t) : BufKeeps s t := by
  unfold flushBlock at h
  split at h
  · obtain rfl := Flow.go.inj h
    exact BufKeeps.refl s
  · split at h
    · cases h
    · obtain ⟨u, hu, h⟩ := Flow.andThen_go.mp h
      obtain rfl := Flow.go.inj h
      obtain ⟨-, rfl⟩ := sinkWriteAll_go.mp hu
      exact ⟨id, fun _ j hj => absurd hj (Nat.not_lt_zero j)⟩

theorem storeByte_buf {b : Byte} {s : State} (hc : s.blkCount.toNat < 254) : BufKeeps s (storeByte b s) := by
  refine ⟨fun h => Memory.wf_write _ _ h hc, fun h j hj => ?_⟩
  rw [storeByte_count (by omega)] at hj
  rw [storeByte_blkBuf, Memory.read_write]
  split
  · rfl
  · exact h j (by omega)

theorem byteOut_buf {b : Byte} {s t : State} (h : byteOut b s = .go t) : BufKeeps s t := by
  unfold byteOut at h
  split at h
  · cases h
  · next hc =>
    have hs : BufKeeps s (storeByte b s) := storeByte_buf (Nat.not_le.mp hc)
    split at h
    · exact hs.trans (flushBlock_buf h)
    · obtain rfl := Flow.go.inj h
      exact hs

theorem drain_buf {n : Nat} {s t : State} (h : drain n s = .go t) : BufKeeps s t := by
  induction n generalizing s with
  | zero =>
    obtain rfl := Flow.go.inj h
    exact BufKeeps.refl s
  | succ n ih =>
    unfold drain at h
    split at h
    · obtain ⟨u, hu, h⟩ := Flow.andThen_go.mp h
      exact ((byteOut_buf hu).trans (BufKeeps.of_eq (t := dropByte u) rfl rfl)).trans (ih (s := dropByte u) h)
    · obtain rfl := Flow.go.inj h
      exact BufKeeps.refl s

theorem padOut_buf {s t : State} (h : padOut s = .go t) : BufKeeps s t := by
  unfold padOut at h
  split at h
  · obtain rfl := Flow.go.inj h
    exact BufKeeps.refl s
  · obtain ⟨u, hu, h⟩ := Flow.andThen_go.mp h
    obtain rfl := Flow.go.inj h
    exact (byteOut_buf hu).trans (BufKeeps.of_eq rfl rfl)

theorem emitCode_buf {c : Code} {s t : State} (h : emitCode c s = .go t) : BufKeeps s t := by
  unfold emitCode at h
  obtain ⟨u, hu, h⟩ := Flow.andThen_go.mp h
  have h1 : BufKeeps s (widthStep c u) :=
    ((BufKeeps.of_eq (s := s) (t := pack c s) rfl rfl).trans (drain_buf (s := pack c s) hu)).trans
      (BufKeeps.of_eq (s := u) (t := widthStep c u) (by simp) (by simp))
  split at h
  · obtain ⟨v, hv, h⟩ := Flow.andThen_go.mp h
    exact (h1.trans (padOut_buf hv)).trans (flushBlock_buf h)
  · obtain rfl := Flow.go.inj h
    exact h1

/-! ### The tables -/

theorem memoryWf_iff {s : State} : memoryWf s = true ↔ Memory.wf Config.hsize s.hkey = true ∧
    Memory.wf Config.hsize s.hcode = true ∧ Memory.wf Config.blkMax s.blkBuf = true := by
  simp [memoryWf, and_assoc]

theorem emitCode_wf {c : Code} {s t : State} (h : emitCode c s = .go t) (hw : memoryWf s = true) :
    memoryWf t = true := by
  obtain ⟨h1, h2, h3⟩ := memoryWf_iff.mp hw
  have hf := emitCode_next h
  exact memoryWf_iff.mpr ⟨by rw [hf.hkey]; exact h1, by rw [hf.hcode]; exact h2, (emitCode_buf h).wf h3⟩

theorem insertEntry_wf {slot : Nat} {p : Code} {b : BitVec 8} {s : State} (hs : slot < 5003) (hw : memoryWf s = true) :
    memoryWf (insertEntry slot p b s) = true := by
  obtain ⟨h1, h2, h3⟩ := memoryWf_iff.mp hw
  exact memoryWf_iff.mpr ⟨Memory.wf_write _ _ h1 hs, Memory.wf_write _ _ h2 hs, h3⟩

theorem clearTable_wf {s : State} (hw : memoryWf s = true) : memoryWf (clearTable s) = true := by
  obtain ⟨_, h2, h3⟩ := memoryWf_iff.mp hw
  exact memoryWf_iff.mpr ⟨rfl, h2, h3⟩

theorem forgetWorking_wf (s : State) : memoryWf (forgetWorking s) = true :=
  memoryWf_iff.mpr ⟨Memory.wf_ofPairs _ _, rfl, rfl⟩

theorem nextSymbol_wf {c : BitVec 8} {s t : State} (h : nextSymbol c s = .go t) (hw : memoryWf s = true) :
    memoryWf t = true := by
  cases hl : lookup s.hkey s.prevCode c with
  | hit slot =>
    rw [nextSymbol_hit hl] at h
    obtain rfl := Flow.go.inj h
    exact hw
  | endless => simp [nextSymbol, hl] at h
  | miss slot =>
    by_cases hn : s.nextCode.toNat < 4096
    · obtain ⟨s1, h1, rfl⟩ := (nextSymbol_insert hl hn).mp h
      have hw1 : memoryWf s1 = true := emitCode_wf h1 hw
      exact insertEntry_wf (s := startString c s1) (lookup_miss hl).2 hw1
    · obtain ⟨s1, h1, h2⟩ := (nextSymbol_clear hl hn).mp h
      have hw1 : memoryWf s1 = true := emitCode_wf h1 hw
      exact emitCode_wf h2 (clearTable_wf (s := startString c s1) hw1)

theorem closeStream_wf {s t : State} (h : closeStream s = .go t) (hw : memoryWf s = true) : memoryWf t = true := by
  unfold closeStream at h
  obtain ⟨v, hv, h⟩ := Flow.andThen_go.mp h
  obtain ⟨u, hu, hv⟩ := Flow.andThen_go.mp hv
  obtain rfl := Flow.go.inj h
  obtain ⟨-, rfl⟩ := sinkWrite_go.mp hv
  have hw1 : memoryWf u = true := emitCode_wf hu hw
  exact hw1

/-- Every command keeps the tables canonical (rules R50, R51). -/
theorem exec_wf {i : Instr} {s t : State} (hw : memoryWf s = true) (h : exec i s = .next t) : memoryWf t = true := by
  have fin : ∀ F, RunsAs i s F → (∀ u, F s = .go u → memoryWf u = true) → memoryWf t = true := by
    intro F hR hF
    rcases hR.next h with ⟨u, hu, rfl⟩ | ⟨u, _, rfl⟩
    · exact hF u hu
    · exact forgetWorking_wf _
  rcases exec_shape i s with ⟨e, _, h1, -⟩ | ⟨rfl, _, h1, -⟩ | ⟨c, rfl, _, _, h1, -⟩ | ⟨F, hR⟩
  · rw [h1] at h
    cases h
    exact hw
  · rw [h1] at h
    cases h
    exact hw
  · rw [h1] at h
    cases h
  · cases i with
    | start d =>
      by_cases hd : legalDepth d = true
      · refine fin _ (start_runs hd s) fun u hu => ?_
        obtain ⟨v, hv, hu⟩ := Flow.andThen_go.mp hu
        obtain ⟨-, rfl⟩ := sinkWrite_go.mp hv
        have hw1 : memoryWf (openCall d s) = true := memoryWf_iff.mpr ⟨rfl, (memoryWf_iff.mp hw).2⟩
        exact emitCode_wf hu hw1
      · simp only [exec, execStart, hd, Bool.false_eq_true, if_false] at h
        cases h
        exact hw
    | put c =>
      have hx := hR.exec
      cases hp : s.phase with
      | idle => simp only [exec, execPut, hp] at h; cases h; exact hw
      | failed => simp only [exec, execPut, hp] at h; cases h; exact hw
      | empty =>
        by_cases hc : symbolLegal s.depth c = true
        · refine fin _ (put_empty_runs hp hc) fun u hu => ?_
          obtain rfl := Flow.go.inj hu
          exact hw
        · simp only [exec, execPut, hp, hc, Bool.false_eq_true, if_false] at h; cases h
      | active =>
        by_cases hc : symbolLegal s.depth c = true
        · exact fin _ (put_active_runs hp hc) fun u hu => nextSymbol_wf hu hw
        · simp only [exec, execPut, hp, hc, Bool.false_eq_true, if_false] at h; cases h
    | finish =>
      cases hp : s.phase with
      | idle => simp only [exec, execFinish, hp] at h; cases h; exact hw
      | failed => simp only [exec, execFinish, hp] at h; cases h; exact hw
      | empty => exact fin _ (finish_empty_runs hp) fun u hu => closeStream_wf hu hw
      | active =>
        refine fin _ (finish_active_runs hp) fun u hu => ?_
        obtain ⟨v, hv, hu⟩ := Flow.andThen_go.mp hu
        exact closeStream_wf hu (emitCode_wf hv hw)
    | _ => cases h; exact hw

/-! ### The dictionary and rule R41 -/

/-- The dictionary's part of rule R41 (items 2 and 4) and of rule R119. -/
structure DictOk (s : State) : Prop where
  wf : Memory.wf Config.hsize s.hkey = true
  low : firstFree s.depth ≤ s.nextCode.toNat
  count : s.hkey.length + firstFree s.depth = s.nextCode.toNat
  code : ∀ slot k, Memory.read s.hkey slot = some k → ∃ c, Memory.read s.hcode slot = some c ∧
    firstFree s.depth ≤ c.toNat ∧ c.toNat < s.nextCode.toNat ∧ (keyPrefix k).toNat < c.toNat ∧
    keyPrefix k ≠ clearWord s.depth ∧ keyPrefix k ≠ eofWord s.depth
  once : ∀ n, firstFree s.depth ≤ n → n < s.nextCode.toNat →
    ∃! slot, (Memory.read s.hkey slot).isSome = true ∧ (hcodeAt s slot).toNat = n
  find : findable s

theorem DictOk.congr {s t : State} (h : DictOk s) (h1 : t.hkey = s.hkey) (h2 : t.hcode = s.hcode)
    (h3 : t.nextCode = s.nextCode) (h4 : t.depth = s.depth) (h5 : t.draws = s.draws) : DictOk t := by
  have hc : ∀ j, hcodeAt t j = hcodeAt s j := fun j => by unfold hcodeAt; rw [h2, h5]
  refine ⟨by rw [h1]; exact h.wf, by rw [h3, h4]; exact h.low, by rw [h1, h3, h4]; exact h.count, ?_, ?_, ?_⟩
  · rw [h1, h2, h3, h4]; exact h.code
  · simp only [h1, h3, h4, hc]; exact h.once
  · unfold findable; rw [h1]; exact h.find

theorem DictOk.empty {s : State} (h1 : s.hkey = []) (h2 : s.nextCode.toNat = firstFree s.depth) : DictOk s := by
  refine ⟨by rw [h1]; rfl, h2.ge, by rw [h1, h2]; simp, ?_, ?_, ?_⟩
  · intro slot k h; rw [h1] at h; cases h
  · intro n ha hb; omega
  · intro slot k h; rw [h1] at h; cases h

/-- No two valid slots hold one key. -/
theorem DictOk.key_once {s : State} (h : DictOk s) (i j : Nat) (k : Key) (hi : Memory.read s.hkey i = some k)
    (hj : Memory.read s.hkey j = some k) : i = j := by
  have := (h.find i k hi).symm.trans (h.find j k hj)
  exact Found.hit.inj this

theorem hcodeAt_of_read {s : State} {slot : Nat} {c : Code} (h : Memory.read s.hcode slot = some c) :
    hcodeAt s slot = c := by
  unfold hcodeAt; rw [h]; rfl

theorem DictOk.insert {s : State} {slot : Nat} {p : Code} {b : BitVec 8} (h : DictOk s)
    (hl : lookup s.hkey p b = .miss slot) (hn : s.nextCode.toNat < 4096) (hp : p.toNat < s.nextCode.toNat)
    (h1 : p ≠ clearWord s.depth) (h2 : p ≠ eofWord s.depth) : DictOk (insertEntry slot p b s) := by
  obtain ⟨hr, hs⟩ := lookup_miss hl
  have hnc : (insertEntry slot p b s).nextCode.toNat = s.nextCode.toNat + 1 := by
    simp only [insertEntry, BitVec.toNat_add, BitVec.toNat_ofNat]; omega
  have hcv : (s.nextCode.extractLsb' 0 12).toNat = s.nextCode.toNat := by
    simp only [BitVec.extractLsb'_toNat, Nat.shiftRight_zero]; omega
  have hk : ∀ j, Memory.read (insertEntry slot p b s).hkey j =
      if j = slot then some (keyOf p b) else Memory.read s.hkey j := fun j => Memory.read_write _ _ _ _
  have hc : ∀ j, Memory.read (insertEntry slot p b s).hcode j =
      if j = slot then some (s.nextCode.extractLsb' 0 12) else Memory.read s.hcode j :=
    fun j => Memory.read_write _ _ _ _
  have hv : ∀ j, hcodeAt (insertEntry slot p b s) j =
      if j = slot then s.nextCode.extractLsb' 0 12 else hcodeAt s j := by
    intro j
    unfold hcodeAt
    rw [hc]
    split <;> rfl
  refine ⟨Memory.wf_write _ _ h.wf hs, ?_, ?_, ?_, ?_, ?_⟩
  · rw [hnc]; exact Nat.le_succ_of_le h.low
  · rw [hnc, ← h.count]
    show (Memory.write s.hkey slot _).length + firstFree s.depth = _
    rw [Memory.length_write_new _ _ h.wf hr]
    omega
  · intro j k hj
    rw [hk] at hj
    rw [hc, hnc]
    split at hj
    · next he =>
      subst he
      obtain rfl := Option.some.inj hj
      refine ⟨_, by rw [if_pos rfl], ?_⟩
      rw [keyPrefix_keyOf, hcv]
      exact ⟨h.low, by omega, hp, h1, h2⟩
    · next he =>
      obtain ⟨c, a1, a2, a3, a4⟩ := h.code j k hj
      exact ⟨c, by rw [if_neg he]; exact a1, a2, by omega, a4⟩
  · intro n ha hb
    rw [hnc] at hb
    simp only [hk, hv]
    have hfr : ∀ j k, Memory.read s.hkey j = some k → (hcodeAt s j).toNat < s.nextCode.toNat := by
      intro j k hj
      obtain ⟨c, a1, _, a3, _⟩ := h.code j k hj
      rw [hcodeAt_of_read a1]; exact a3
    by_cases he : n = s.nextCode.toNat
    · refine ⟨slot, by simp [hcv, he], ?_⟩
      rintro j ⟨hj1, hj2⟩
      by_contra hne
      rw [if_neg hne] at hj1 hj2
      obtain ⟨k, hk'⟩ := Option.isSome_iff_exists.mp hj1
      have := hfr j k hk'
      omega
    · obtain ⟨j, ⟨b1, b2⟩, b3⟩ := h.once n ha (by omega)
      have hjs : j ≠ slot := by
        rintro rfl
        rw [hr] at b1
        cases b1
      refine ⟨j, by simp only [if_neg hjs]; exact ⟨b1, b2⟩, ?_⟩
      rintro i ⟨hi1, hi2⟩
      by_cases his : i = slot
      · rw [if_pos his, hcv] at hi2
        omega
      · rw [if_neg his] at hi1 hi2
        exact b3 i ⟨hi1, hi2⟩
  · intro j k hj
    have hj' := hj
    rw [hk] at hj
    split at hj
    · next he =>
      subst he
      obtain rfl := Option.some.inj hj
      rw [keyPrefix_keyOf, keyByte_keyOf]
      exact lookup_write_self hl
    · exact lookup_write_other hr (h.find j k hj)

theorem BetweenCommands.dict {s : State} (h : BetweenCommands s) (hw : Memory.wf Config.hsize s.hkey = true)
    (hf : findable s) : DictOk s :=
  ⟨hw, h.next_low, h.entry_count, h.entry_code, h.code_once, hf⟩

/-- Rule R41 put together from its parts. -/
theorem BetweenCommands.of_parts {s : State} (hd : legalDepth s.depth = true) (hE : EmitReady s)
    (hw : initWidth s.depth ≤ s.codeWidth.toNat) (hD : DictOk s) (hn : s.nextCode.toNat ≤ 4096)
    (hf : s.nextCode.toNat ≤ 2 ^ s.codeWidth.toNat)
    (hp : s.phase = .active →
      s.prevCode.toNat < s.nextCode.toNat ∧ s.prevCode ≠ clearWord s.depth ∧ s.prevCode ≠ eofWord s.depth) :
    BetweenCommands s where
  depth_legal := hd
  width_low := hw
  width_high := hE.codeWidth
  next_low := hD.low
  next_high := hn
  next_fits := hf
  entry_count := hD.count
  entry_code := hD.code
  code_once := hD.once
  key_once := hD.key_once
  acc_bits := hE.accBits
  acc_low := hE.packable.2
  blk_count := hE.packable.1
  prev_code := hp

theorem EmitReady.emit {c : Code} {s t : State} (h : EmitReady s) (hc : c.toNat < 2 ^ s.codeWidth.toNat)
    (he : c ≠ eofWord s.depth) (hd : legalDepth s.depth = true) (hg : emitCode c s = .go t) : EmitReady t := by
  obtain ⟨hF, h1, h2, h3, h4, -⟩ := emitCode_spec h hc he hg
  refine ⟨h1, by omega, ?_⟩
  rw [h4]
  have h12 := h.codeWidth
  have := initSize_bounds hd
  by_cases hcl : c = clearWord s.depth
  · rw [widthStep_clear hcl hd]; unfold initWidth; omega
  · rw [widthStep_grown hcl]; unfold grownWidth; split <;> omega

/-- A literal code is below the control codes. -/
theorem literal_code {d : BitVec 4} {c : BitVec 8} {n : BitVec 13} (hd : legalDepth d = true)
    (hc : symbolLegal d c = true) (hn : firstFree d ≤ n.toNat) :
    (c.setWidth 12).toNat < n.toNat ∧ c.setWidth 12 ≠ clearWord d ∧ c.setWidth 12 ≠ eofWord d := by
  have hlt : c.toNat < clearCode d := by simpa [symbolLegal] using hc
  have hb := clearCode_bounds hd
  have hv : (c.setWidth 12).toNat = c.toNat := by
    simp only [BitVec.toNat_setWidth]; have := c.isLt; omega
  unfold firstFree eofCode at hn
  refine ⟨by omega, fun h => ?_, fun h => ?_⟩
  · have := congrArg BitVec.toNat h
    rw [hv, clearWord_toNat hd] at this
    omega
  · have := congrArg BitVec.toNat h
    rw [hv, eofWord_toNat hd] at this
    omega

/-- What rule R41 says of an open call between commands, with rules R32 and R119. -/
def OpenInv (s : State) : Prop := BetweenCommands s ∧ blkWritten s ∧ findable s

theorem start_keeps {d : BitVec 4} {s t : State} (hd : legalDepth d = true)
    (h : (sinkWrite (BitVec.ofNat 8 (initSize d)) (openCall d s)).andThen (emitCode (clearWord d)) = .go t) :
    OpenInv t := by
  obtain ⟨v, hv, hu⟩ := Flow.andThen_go.mp h
  obtain ⟨-, rfl⟩ := sinkWrite_go.mp hv
  have hb := initSize_bounds hd
  have hw : (BitVec.ofNat 4 (initWidth d)).toNat = initWidth d := by
    simp only [BitVec.toNat_ofNat, initWidth]; omega
  have hff : firstFree d < 2 ^ initWidth d := firstFree_lt hd
  have hc9 : firstFree d ≤ 258 := by
    have := clearCode_bounds hd
    unfold firstFree eofCode
    omega
  have hnv : (BitVec.ofNat 13 (firstFree d)).toNat = firstFree d := by
    simp only [BitVec.toNat_ofNat]; omega
  generalize hx : ({ openCall d s with
    sink := (openCall d s).sink ++ [BitVec.ofNat 8 (initSize d)]
    answers := (openCall d s).answers.drop 1 } : State) = x at hu
  have x1 : x.depth = d := by rw [← hx]; rfl
  have x2 : x.codeWidth.toNat = initWidth d := by rw [← hx]; exact hw
  have x3 : x.nextCode.toNat = firstFree d := by rw [← hx]; exact hnv
  have x4 : x.hkey = [] := by rw [← hx]; rfl
  have x5 : x.phase = .empty := by rw [← hx]; rfl
  have x6 : EmitReady x := by
    rw [← hx]; refine ⟨⟨by show (0:Nat) ≤ _; omega, by show 0 < _; exact Nat.one_pos⟩, by show 0 ≤ _; omega, ?_⟩
    show (BitVec.ofNat 4 (initWidth d)).toNat ≤ 12
    rw [hw]; unfold initWidth; omega
  have x7 : blkWritten x := by rw [← hx]; intro j hj; exact absurd hj (Nat.not_lt_zero j)
  have hfit : (clearWord d).toNat < 2 ^ x.codeWidth.toNat := by
    have := (controls_fit (s := x) (by rw [x1]; exact hd) (by rw [x1, x2])).1
    rwa [x1] at this
  have hne : clearWord d ≠ eofWord x.depth := by rw [x1]; exact clear_ne_eof hd
  have hF := emitCode_next hu
  have hD : DictOk t := DictOk.empty (hF.hkey.trans x4) (by rw [hF.nextCode, hF.depth, x3, x1])
  have hwt : t.codeWidth.toNat = initWidth d := by
    rw [emitCode_width hu, widthStep_clear (by rw [x1]) (by rw [x1]; exact hd), x1]
  refine ⟨BetweenCommands.of_parts (by rw [hF.depth, x1]; exact hd) (x6.emit hfit hne (by rw [x1]; exact hd) hu)
    (by rw [hF.depth, x1, hwt]) hD (by rw [hF.nextCode, x3]; omega) (by rw [hF.nextCode, x3, hwt]; omega) ?_,
    (emitCode_buf hu).written x7, hD.find⟩
  intro hp
  rw [hF.phase, x5] at hp
  cases hp

theorem firstSymbol_keeps {c : BitVec 8} {s : State} (h : OpenInv s) (hc : symbolLegal s.depth c = true) :
    OpenInv (firstSymbol c s) := by
  obtain ⟨hB, hW, hF⟩ := h
  exact ⟨{ hB with prev_code := fun _ => literal_code hB.depth_legal hc hB.next_low }, hW, hF⟩

theorem nextSymbol_keeps {c : BitVec 8} {s t : State} (h : OpenInv s) (hw : Memory.wf Config.hsize s.hkey = true)
    (hp : s.phase = .active) (hc : symbolLegal s.depth c = true) (hg : nextSymbol c s = .go t) : OpenInv t := by
  obtain ⟨hB, hW, hF⟩ := h
  have hd := hB.depth_legal
  have hpc := hB.prev_code hp
  have hE := hB.emitReady
  have hD := hB.dict hw hF
  have hfit : s.prevCode.toNat < 2 ^ s.codeWidth.toNat := Nat.lt_of_lt_of_le hpc.1 hB.next_fits
  cases hl : lookup s.hkey s.prevCode c with
  | hit slot =>
    rw [nextSymbol_hit hl] at hg
    obtain rfl := Flow.go.inj hg
    obtain ⟨k, hk1, hk2, hk3, hk4, -⟩ := hB.entry_code slot _ (lookup_hit hl)
    refine ⟨{ hB with prev_code := fun _ => ?_ }, hW, hF⟩
    show (hcodeAt s slot).toNat < _ ∧ hcodeAt s slot ≠ clearWord s.depth ∧ hcodeAt s slot ≠ eofWord s.depth
    rw [hcodeAt_of_read hk1]
    have h1 := clearWord_toNat hd
    have h2 := eofWord_toNat hd
    unfold firstFree eofCode at hk2
    refine ⟨hk3, ?_, ?_⟩ <;> rintro rfl <;> omega
  | endless => simp [nextSymbol, hl] at hg
  | miss slot =>
    by_cases hn : s.nextCode.toNat < 4096
    · obtain ⟨s1, h1, rfl⟩ := (nextSymbol_insert hl hn).mp hg
      have e1 := emitCode_next h1
      have eE := hE.emit hfit hpc.2.2 hd h1
      have eW := emitCode_width h1
      have hl1 : lookup (startString c s1).hkey s.prevCode c = .miss slot := by
        show lookup s1.hkey _ _ = _
        rw [e1.hkey]; exact hl
      have hD1 : DictOk (startString c s1) := hD.congr e1.hkey e1.hcode e1.nextCode e1.depth e1.draws
      have hn1 : (startString c s1).nextCode.toNat = s.nextCode.toNat := by rw [startString_nextCode, e1.nextCode]
      have hd1 : (startString c s1).depth = s.depth := e1.depth
      have hD2 := hD1.insert hl1 (by rw [hn1]; exact hn) (by rw [hn1]; exact hpc.1) (by rw [hd1]; exact hpc.2.1)
        (by rw [hd1]; exact hpc.2.2)
      have hnn : (insertEntry slot s.prevCode c (startString c s1)).nextCode.toNat = s.nextCode.toNat + 1 := by
        have : (insertEntry slot s.prevCode c (startString c s1)).nextCode = s1.nextCode + 1#13 := rfl
        rw [this, e1.nextCode, BitVec.toNat_add]
        simp only [BitVec.toNat_ofNat]
        omega
      have hww : s1.codeWidth.toNat = grownWidth s := by rw [eW, widthStep_grown hpc.2.1]
      have hpw := hB.next_fits
      have hwl := hB.width_low
      refine ⟨BetweenCommands.of_parts (by show legalDepth s1.depth = true; rw [e1.depth]; exact hd)
        ⟨eE.packable, eE.accBits, eE.codeWidth⟩ ?_ hD2 (by rw [hnn]; omega) ?_ ?_,
        (emitCode_buf h1).written hW, hD2.find⟩
      · show initWidth s1.depth ≤ s1.codeWidth.toNat
        rw [e1.depth, hww]
        unfold grownWidth
        split <;> omega
      · rw [hnn]
        show _ ≤ 2 ^ s1.codeWidth.toNat
        rw [hww]
        unfold grownWidth
        split
        · rw [Nat.pow_succ]; omega
        · next hg' =>
          by_cases h12 : s.codeWidth.toNat < 12
          · omega
          · have : s.codeWidth.toNat = 12 := by have := hB.width_high; omega
            rw [this]; omega
      · intro _
        show (c.setWidth 12).toNat < _ ∧ c.setWidth 12 ≠ clearWord s1.depth ∧ c.setWidth 12 ≠ eofWord s1.depth
        rw [e1.depth]
        exact literal_code hd hc (by rw [hnn]; have := hB.next_low; omega)
    · obtain ⟨s1, h1, h2⟩ := (nextSymbol_clear hl hn).mp hg
      have e1 := emitCode_next h1
      have eE := hE.emit hfit hpc.2.2 hd h1
      have eW := emitCode_width h1
      generalize hx : restartCodes (clearTable (startString c s1)) = x at h2
      have hc9 : firstFree s.depth ≤ 258 := by
        have := clearCode_bounds hd
        unfold firstFree eofCode
        omega
      have x1 : x.depth = s.depth := by rw [← hx]; exact e1.depth
      have x2 : x.codeWidth = s1.codeWidth := by rw [← hx]; rfl
      have x3 : x.nextCode.toNat = firstFree s.depth := by
        rw [← hx]
        show (BitVec.ofNat 13 (firstFree s1.depth)).toNat = _
        rw [e1.depth]
        simp only [BitVec.toNat_ofNat]
        omega
      have x4 : x.hkey = [] := by rw [← hx]; rfl
      have x5 : x.prevCode = c.setWidth 12 := by rw [← hx]; rfl
      have x6 : EmitReady x := by rw [← hx]; exact ⟨eE.packable, eE.accBits, eE.codeWidth⟩
      have x7 : blkWritten x := by rw [← hx]; exact (emitCode_buf h1).written hW
      have hdx : legalDepth x.depth = true := by rw [x1]; exact hd
      have hwx : initWidth x.depth ≤ x.codeWidth.toNat := by
        rw [x1, x2, eW, widthStep_grown hpc.2.1]
        have := hB.width_low
        unfold grownWidth
        split <;> omega
      have hfx := (controls_fit hdx hwx).1
      rw [x1] at hfx
      have hne : clearWord s.depth ≠ eofWord x.depth := by rw [x1]; exact clear_ne_eof hd
      have e2 := emitCode_next h2
      have hD2 : DictOk t := DictOk.empty (e2.hkey.trans x4) (by rw [e2.nextCode, e2.depth, x3, x1])
      have hwt : t.codeWidth.toNat = initWidth s.depth := by
        rw [emitCode_width h2, widthStep_clear (by rw [x1]) hdx, x1]
      have hff : firstFree s.depth < 2 ^ initWidth s.depth := firstFree_lt hd
      refine ⟨BetweenCommands.of_parts (by rw [e2.depth]; exact hdx) (x6.emit hfx hne hdx h2)
        (by rw [e2.depth, x1, hwt]) hD2 (by rw [e2.nextCode, x3]; omega) (by rw [e2.nextCode, x3, hwt]; omega) ?_,
        (emitCode_buf h2).written x7, hD2.find⟩
      intro _
      rw [e2.prevCode, x5, e2.depth, x1]
      exact literal_code hd hc (by rw [e2.nextCode, x3])

/-- `Inv` reads no channel and no input. -/
theorem Inv.congr {s t : State} (h : Inv s) (h1 : callOpen t → callOpen s) (h2 : OpenInv s → OpenInv t)
    (h3 : t.hkey = s.hkey) (h4 : t.hcode = s.hcode) (h5 : t.blkBuf = s.blkBuf) : Inv t := by
  refine ⟨?_, fun ho => h2 (h.2 (h1 ho))⟩
  have := h.1
  simpa only [memoryWf, h3, h4, h5] using this

theorem exec_inv {i : Instr} {s t : State} (hI : Inv s) (h : exec i s = .next t) : Inv t := by
  refine ⟨exec_wf hI.1 h, ?_⟩
  have opn : ∀ {x : State}, OpenInv x → OpenInv (respond .eNone x) := fun hx =>
    ⟨{ hx.1 with }, hx.2.1, hx.2.2⟩
  have ref : ∀ e, callOpen (refuse e s) → OpenInv (refuse e s) := fun e ho => by
    have hx := hI.2 ho
    exact ⟨{ hx.1 with }, hx.2.1, hx.2.2⟩
  rcases exec_shape i s with ⟨e, _, h1, -⟩ | ⟨rfl, _, h1, -⟩ | ⟨c, rfl, _, _, h1, -⟩ | ⟨F, hR⟩
  · rw [h1] at h; cases h; exact ref e
  · rw [h1] at h; cases h
    rintro (h | h) <;> cases h
  · rw [h1] at h; cases h
  · have fin : ∀ F, RunsAs i s F → (∀ u, F s = .go u → callOpen u → OpenInv u) → callOpen t → OpenInv t := by
      intro F hR hF ho
      rcases hR.next h with ⟨u, hu, rfl⟩ | ⟨u, _, rfl⟩
      · exact opn (hF u hu ho)
      · rcases ho with h | h <;> cases h
    have idle : i = .finish → callOpen t → OpenInv t := by
      rintro rfl ho
      rcases hR.next h with ⟨u, hu, rfl⟩ | ⟨u, _, rfl⟩
      · have := hR.phase u hu
        rcases ho with h | h <;> (have h' : u.phase = _ := h; rw [this] at h'; cases h')
      · rcases ho with h | h <;> cases h
    cases i with
    | start d =>
      by_cases hd : legalDepth d = true
      · exact fin _ (start_runs hd s) fun u hu _ => start_keeps hd hu
      · simp only [exec, execStart, hd, Bool.false_eq_true, if_false] at h
        cases h; exact ref _
    | put c =>
      cases hp : s.phase with
      | idle => simp only [exec, execPut, hp] at h; cases h; exact ref _
      | failed => simp only [exec, execPut, hp] at h; cases h; exact ref _
      | empty =>
        by_cases hc : symbolLegal s.depth c = true
        · refine fin _ (put_empty_runs hp hc) fun u hu _ => ?_
          obtain rfl := Flow.go.inj hu
          exact firstSymbol_keeps (hI.2 (.inl hp)) hc
        · simp only [exec, execPut, hp, hc, Bool.false_eq_true, if_false] at h; cases h
      | active =>
        by_cases hc : symbolLegal s.depth c = true
        · exact fin _ (put_active_runs hp hc) fun u hu _ => nextSymbol_keeps (hI.2 (.inr hp)) (memoryWf_iff.mp hI.1).1 hp hc hu
        · simp only [exec, execPut, hp, hc, Bool.false_eq_true, if_false] at h; cases h
    | finish => exact idle rfl
    | _ => cases h; exact ref _

theorem resetCore_inv (s : State) : Inv (resetCore s) := by
  refine ⟨forgetWorking_wf _, ?_⟩
  rintro (h | h) <;> cases h

theorem takeCommand_inv {s t : State} (hI : Inv s) (h : takeCommand s = .next t) : Inv t := by
  unfold takeCommand at h
  split at h
  · obtain rfl := Host.Outcome.next.inj h
    exact hI
  · next w ws _ =>
    exact exec_inv (s := { s with cmd := ws })
      (hI.congr id (fun hx => ⟨{ hx.1 with }, hx.2.1, hx.2.2⟩) rfl rfl rfl) h

theorem resetDuring_inv {k : Nat} {i : Instr} {s t : State} (h : resetDuring k i s = .next t) : Inv t := by
  unfold resetDuring at h
  split at h
  · obtain rfl := Host.Outcome.next.inj h; exact resetCore_inv _
  · obtain rfl := Host.Outcome.next.inj h; exact resetCore_inv _
  · cases h


/-! ### `RESET` in the middle of a command -/

/-- What a command has written when it ends: no more bytes than the sink accepts before the first it fails. -/
theorem exec_wrote {i : Instr} {s t : State} (h : exec i s = .next t) :
    ∃ bs : List Byte, t.sink = s.sink ++ bs ∧ ∀ j, s.answers[j]? = some .fail → bs.length ≤ j := by
  rcases exec_shape i s with ⟨e, he, h1, -⟩ | ⟨rfl, hp', h1, -⟩ | ⟨c, rfl, _, _, h1, -⟩ | ⟨F, hR⟩
  · rw [h1] at h; cases h
    exact ⟨[], by simp [refuse, respond], by simp⟩
  · rw [h1] at h; cases h
    exact ⟨[], by simp [closeFailed, refuse, respond], by simp⟩
  · rw [h1] at h; cases h
  · have he := hR.ends
    rcases hR.next h with ⟨u, hu, rfl⟩ | ⟨u, hu, rfl⟩
    · rw [hu] at he
      obtain ⟨-, bs, hb, ha, -⟩ := he
      refine ⟨bs, hb, fun j hj => ?_⟩
      by_contra hlt
      have : SinkAnswer.fail ∈ s.answers.take bs.length := by
        refine List.mem_of_getElem? (i := j) ?_
        rw [List.getElem?_take_of_lt (by omega), hj]
      cases ha _ this
    · rw [hu] at he
      obtain ⟨-, bs, hb, ha⟩ := he
      refine ⟨bs, hb, fun j hj => ?_⟩
      by_contra hlt
      rw [ha, List.getElem?_append_left (by simp; omega)] at hj
      have := List.mem_of_getElem? hj
      cases (List.mem_replicate.mp this).2

/-- A cut comes after at most `k` bytes. -/
theorem cutAnswers_fail (k : Nat) (l : List SinkAnswer) : ∃ j, j ≤ k ∧ (cutAnswers k l)[j]? = some .fail := by
  induction k generalizing l with
  | zero => exact ⟨0, Nat.le_refl 0, rfl⟩
  | succ k ih =>
    cases l with
    | nil => obtain ⟨j, h1, h2⟩ := ih []; exact ⟨j + 1, by omega, h2⟩
    | cons a l =>
      cases a with
      | ack => obtain ⟨j, h1, h2⟩ := ih l; exact ⟨j + 1, by omega, h2⟩
      | fail => exact ⟨0, by omega, rfl⟩
      | silent => exact ⟨0, by omega, rfl⟩

end Sys2Proof.Machine
end

