-- ==== Sys2Proof/Laws/PerInstr.lean ====
section
/-! SUPPORT. A statement about every instruction as syntax, made constructor by constructor. -/

namespace Sys2Proof.Laws.RowWord

open Sys2Proof

/-- The word of a well-formed instruction has the fixed bits of the row of the opcode table its constructor stands for,
and that row says whether it is reserved (30_encoding.md rules R72 to R75, R87). -/
def Statement (i : Instr) : Prop :=
  i.wellFormed = true → i.row ∈ rowsOf (encode i) ∧ (i.isReserved = true ↔ 3 ≤ i.row)

theorem put (s : BitVec 8) : Statement (.put s) := by revert s; unfold Statement; decide
theorem start (d : BitVec 4) : Statement (.start d) := by revert d; unfold Statement; decide
theorem finish : Statement .finish := by unfold Statement; decide
theorem rsvdOp3 (a : BitVec 8) : Statement (.rsvdOp3 a) := by revert a; unfold Statement; decide
theorem rsvdStartD0 : Statement .rsvdStartD0 := by unfold Statement; decide
theorem rsvdStartD9 : Statement .rsvdStartD9 := by unfold Statement; decide
theorem rsvdStartD10to11 (x : BitVec 1) : Statement (.rsvdStartD10to11 x) := by revert x; unfold Statement; decide
theorem rsvdStartD12to15 (x : BitVec 2) : Statement (.rsvdStartD12to15 x) := by revert x; unfold Statement; decide
theorem rsvdStartHi1 (x : BitVec 4) : Statement (.rsvdStartHi1 x) := by revert x; unfold Statement; decide
theorem rsvdStartHi2 (x : BitVec 5) : Statement (.rsvdStartHi2 x) := by revert x; unfold Statement; decide
theorem rsvdStartHi3 (x : BitVec 6) : Statement (.rsvdStartHi3 x) := by revert x; unfold Statement; decide
theorem rsvdStartHi4 (x : BitVec 7) : Statement (.rsvdStartHi4 x) := by revert x; unfold Statement; decide
theorem rsvdFinishArg1 : Statement .rsvdFinishArg1 := by unfold Statement; decide
theorem rsvdFinishArg2 (x : BitVec 1) : Statement (.rsvdFinishArg2 x) := by revert x; unfold Statement; decide
theorem rsvdFinishArg3 (x : BitVec 2) : Statement (.rsvdFinishArg3 x) := by revert x; unfold Statement; decide
theorem rsvdFinishArg4 (x : BitVec 3) : Statement (.rsvdFinishArg4 x) := by revert x; unfold Statement; decide
theorem rsvdFinishArg5 (x : BitVec 4) : Statement (.rsvdFinishArg5 x) := by revert x; unfold Statement; decide
theorem rsvdFinishArg6 (x : BitVec 5) : Statement (.rsvdFinishArg6 x) := by revert x; unfold Statement; decide
theorem rsvdFinishArg7 (x : BitVec 6) : Statement (.rsvdFinishArg7 x) := by revert x; unfold Statement; decide
theorem rsvdFinishArg8 (x : BitVec 7) : Statement (.rsvdFinishArg8 x) := by revert x; unfold Statement; decide

end Sys2Proof.Laws.RowWord
end

