-- ==== Sys2Proof/Laws/Reader.lean ====
section
/-! SUPPORT. A reader beside the block: the bits of the code stream as the yardstick decoder of 95_test_vectors.md section
1 reads them, and what the reader knows of the block's dictionary after each symbol. -/

namespace Sys2Proof.Machine

/-! ### Bits -/

theorem bitsValue_lowBits {w : Nat} (v : BitVec w) (n : Nat) (h : v.toNat < 2 ^ n) : bitsValue (lowBits v n) = v.toNat := by
  induction n generalizing v with
  | zero =>
    have : v.toNat = 0 := by simpa using h
    rw [this]; rfl
  | succ n ih =>
    have hs : lowBits v (n + 1) = v.getLsbD 0 :: lowBits (v >>> 1) n := by
      rw [Nat.add_comm, lowBits_add]; rfl
    have h1 : (v >>> 1).toNat < 2 ^ n := by
      rw [BitVec.toNat_ushiftRight, Nat.shiftRight_eq_div_pow]
      rw [Nat.pow_succ] at h
      omega
    rw [hs, bitsValue, ih _ h1, BitVec.toNat_ushiftRight, Nat.shiftRight_eq_div_pow, BitVec.getLsbD, Nat.testBit_zero]
    rcases Nat.mod_two_eq_zero_or_one v.toNat with h0 | h0 <;> simp [h0] <;> omega

/-! ### Reading codes -/

/-- The reader `r` reads the bits `bits`, whatever follows them, and is `r'` afterwards. -/
def Reads (n : Nat) (r : Reader) (bits : List Bool) (r' : Reader) : Prop :=
  ∃ j, j ≤ bits.length ∧ ∀ k rest, readCodes n (k + j) r (bits ++ rest) = readCodes n k r' rest

theorem Reads.refl (n : Nat) (r : Reader) : Reads n r [] r := ⟨0, Nat.le_refl 0, fun _ _ => rfl⟩

theorem Reads.trans {n : Nat} {r r1 r2 : Reader} {a b : List Bool} (h1 : Reads n r a r1) (h2 : Reads n r1 b r2) :
    Reads n r (a ++ b) r2 := by
  obtain ⟨j2, l2, e2⟩ := h2
  obtain ⟨j1, l1, e1⟩ := h1
  refine ⟨j2 + j1, by rw [List.length_append]; omega, fun k rest => ?_⟩
  rw [List.append_assoc, ← Nat.add_assoc, e1, e2]

/-- One code of the reader's width. -/
theorem readCodes_code {n k : Nat} {r : Reader} {c : Code} {rest : List Bool} (hc : c.toNat < 2 ^ r.width) :
    readCodes n (k + 1) r (lowBits c r.width ++ rest) =
      if c.toNat = 2 ^ n then readCodes n k (freshReader n r.out) rest
      else if c.toNat = 2 ^ n + 1 then some (r.out, rest)
      else match readerStep r c.toNat with
        | none => none
        | some r1 => readCodes n k r1 rest := by
  have hl := lowBits_length c r.width
  have h1 : ¬ (lowBits c r.width ++ rest).length < r.width := by rw [List.length_append, hl]; omega
  have h2 : (lowBits c r.width ++ rest).take r.width = lowBits c r.width := by
    rw [List.take_append_of_le_length (by omega), List.take_of_length_le (by omega)]
  have h3 : (lowBits c r.width ++ rest).drop r.width = rest := by
    rw [List.drop_append_of_le_length (by omega), List.drop_of_length_le (by omega), List.nil_append]
  simp only [readCodes, if_neg h1, h2, h3, bitsValue_lowBits c _ hc]
  all_goals rfl

theorem Reads.data {n : Nat} {r r' : Reader} {c : Code} (hw : 1 ≤ r.width) (hc : c.toNat < 2 ^ r.width)
    (h1 : c.toNat ≠ 2 ^ n) (h2 : c.toNat ≠ 2 ^ n + 1) (h : readerStep r c.toNat = some r') :
    Reads n r (lowBits c r.width) r' := by
  refine ⟨1, by rw [lowBits_length]; exact hw, fun k rest => ?_⟩
  rw [readCodes_code hc, if_neg h1, if_neg h2, h]

theorem Reads.clear {n : Nat} {r : Reader} {c : Code} (hw : 1 ≤ r.width) (hc : c.toNat < 2 ^ r.width)
    (h1 : c.toNat = 2 ^ n) : Reads n r (lowBits c r.width) (freshReader n r.out) := by
  refine ⟨1, by rw [lowBits_length]; exact hw, fun k rest => ?_⟩
  rw [readCodes_code hc, if_pos h1]

/-! ### The reader beside the block -/

/-- The reader `r`, which has read all codes emitted so far, beside the block's state `s`: `T` gives the string of every
code in use, and `syms` are the symbols the block has taken. -/
structure Coupled (s : State) (r : Reader) (T : List (List Byte)) (syms : List Byte) : Prop where
  width : r.width = s.codeWidth.toNat
  length : T.length = s.nextCode.toNat
  literal : ∀ b, b < clearCode s.depth → T[b]? = some [BitVec.ofNat 8 b]
  entry : ∀ slot k, Memory.read s.hkey slot = some k → ∃ c e, Memory.read s.hcode slot = some c ∧
    T[(keyPrefix k).toNat]? = some e ∧ T[c.toNat]? = some (e ++ [keyByte k])
  fresh : s.phase = .empty → r.table = T ∧ r.prev = none ∧ s.nextCode.toNat = firstFree s.depth ∧ r.out = syms
  pending : s.phase = .active → ∃ e, T[s.prevCode.toNat]? = some e ∧ e ≠ [] ∧ r.out ++ e = syms ∧
    ((r.prev = none ∧ r.table = T ∧ s.nextCode.toNat = firstFree s.depth) ∨
      ∃ p, r.prev = some p ∧ p ≠ [] ∧ T = r.table ++ [p ++ e.take 1])

theorem freshTable_length (n : Nat) : (freshTable n).length = 2 ^ n + 2 := by simp [freshTable]

theorem freshTable_literal {n b : Nat} (h : b < 2 ^ n) : (freshTable n)[b]? = some [BitVec.ofNat 8 b] := by
  unfold freshTable
  rw [List.getElem?_append_left (by simpa using h)]
  simp [h]

/-- The reader reads the pending prefix code: it puts out its string, and its table holds the string of every code. -/
theorem Coupled.emit {s s1 : State} {r : Reader} {T : List (List Byte)} {syms : List Byte} (h : Coupled s r T syms)
    (hB : BetweenCommands s) (hp : s.phase = .active) (hg : emitCode s.prevCode s = .go s1) :
    ∃ e r1, T[s.prevCode.toNat]? = some e ∧ e ≠ [] ∧
      Reads (initSize s.depth) r (lowBits s.prevCode s.codeWidth.toNat) r1 ∧ r1.width = s1.codeWidth.toNat ∧
      r1.table = T ∧ r1.prev = some e ∧ r1.out = syms := by
  obtain ⟨e, he, hne, ho, hcase⟩ := h.pending hp
  obtain ⟨q1, q2, q3⟩ := hB.prev_code hp
  have hd := hB.depth_legal
  have hi := initSize_bounds hd
  have hwl := hB.width_low
  have hnf := hB.next_fits
  have hnh := hB.next_high
  have hw1 : s1.codeWidth.toNat = grownWidth s := by rw [emitCode_width hg, widthStep_grown q2]
  have hc1 : s.prevCode.toNat ≠ 2 ^ initSize s.depth := fun hx => q2 (BitVec.eq_of_toNat_eq (by
    rw [clearWord_toNat hd]; exact hx))
  have hc2 : s.prevCode.toNat ≠ 2 ^ initSize s.depth + 1 := fun hx => q3 (BitVec.eq_of_toNat_eq (by
    rw [eofWord_toNat hd]; exact hx))
  have hfit : s.prevCode.toNat < 2 ^ s.codeWidth.toNat := by omega
  have hlen := h.length
  have key : ∃ r1, readerStep r s.prevCode.toNat = some r1 ∧ r1.width = s1.codeWidth.toNat ∧ r1.table = T ∧
      r1.prev = some e ∧ r1.out = syms := by
    rcases hcase with ⟨h1, h2, h3⟩ | ⟨p, h1, h2, h3⟩
    · refine ⟨{ r with out := r.out ++ e, prev := some e }, ?_, ?_, h2, rfl, ho⟩
      · unfold readerStep
        rw [h1]
        simp only [h2, he, Option.map_some]
      · show r.width = _
        have hlt : s.nextCode.toNat < 2 ^ s.codeWidth.toNat := by
          rw [h3]
          exact Nat.lt_of_lt_of_le (firstFree_lt hd) (Nat.pow_le_pow_right (by omega) hwl)
        rw [hw1, h.width]
        unfold grownWidth
        rw [if_neg (by omega)]
    · have hl : r.table.length + 1 = s.nextCode.toNat := by rw [← hlen, h3]; simp
      have hent : readerEntry r p s.prevCode.toNat = some e := by
        unfold readerEntry
        by_cases hlt : s.prevCode.toNat < r.table.length
        · rw [if_pos hlt, ← he, h3, List.getElem?_append_left hlt]
        · have heq : s.prevCode.toNat = r.table.length := by omega
          rw [if_neg hlt, if_pos heq]
          rw [h3, heq, List.getElem?_append_right (Nat.le_refl _)] at he
          simp only [Nat.sub_self, List.getElem?_cons_zero, Option.some.injEq] at he
          have : e.take 1 = p.take 1 := by
            cases p with
            | nil => exact absurd rfl h2
            | cons x p => rw [← he]; simp
          rw [← he, this]
      refine ⟨{ readerGrow r p e with out := r.out ++ e, prev := some e }, ?_, ?_, ?_, rfl, ho⟩
      · unfold readerStep
        rw [h1]
        simp only [hent, Option.map_some]
      · show (readerGrow r p e).width = _
        unfold readerGrow
        rw [if_pos (show r.table.length < Config.maxCodes from (by show _ < 4096; omega))]
        show (if (r.table ++ [p ++ e.take 1]).length = 2 ^ r.width ∧ r.width < 12 then r.width + 1 else r.width) = _
        rw [← h3, hlen, h.width, hw1]
        unfold grownWidth
        by_cases hgw : s.nextCode.toNat = 2 ^ s.codeWidth.toNat ∧ s.codeWidth.toNat < 12
        · rw [if_pos hgw, if_pos ⟨by omega, hgw.2⟩]
        · rw [if_neg hgw, if_neg (fun hx => hgw ⟨by omega, hx.2⟩)]
      · show (readerGrow r p e).table = T
        unfold readerGrow
        rw [if_pos (show r.table.length < Config.maxCodes from (by show _ < 4096; omega)), h3]
  obtain ⟨r1, k1, k2, k3, k4, k5⟩ := key
  refine ⟨e, r1, he, hne, ?_, k2, k3, k4, k5⟩
  have := Reads.data (n := initSize s.depth) (r := r) (c := s.prevCode) (r' := r1)
    (by rw [h.width]; unfold initWidth at hwl; omega) (by rw [h.width]; exact hfit) hc1 hc2 k1
  rwa [h.width] at this

/-! ### A whole call -/

/-- Since `s0` a call of depth `d` has written its first byte and whole sub-blocks, and `bits` are the bits of its code
stream so far. -/
def Made (s0 : State) (d : BitVec 4) (s : State) (bits : List Bool) : Prop :=
  ∃ blocks : List (List Byte), (∀ k ∈ blocks, k.length = 254) ∧
    s.sink = s0.sink ++ BitVec.ofNat 8 (initSize d) :: blocks.flatMap (fun k => 254#8 :: k) ∧
    bytesBits blocks.flatten ++ waitingBits s = bits

theorem Made.packed {s0 s t : State} {d : BitVec 4} {a b : List Bool} (h : Made s0 d s a) (hp : Packed s t b) :
    Made s0 d t (a ++ b) := by
  obtain ⟨k1, l1, s1, b1⟩ := h
  obtain ⟨k2, l2, s2, b2⟩ := hp
  refine ⟨k1 ++ k2, ?_, ?_, ?_⟩
  · intro k hk
    rcases List.mem_append.mp hk with hk | hk
    · exact l1 k hk
    · exact l2 k hk
  · rw [s2, s1]; simp
  · rw [List.flatten_append, bytesBits_append, List.append_assoc, b2, ← b1, List.append_assoc]

/-- The block in a call of depth `d` opened in `s0`, having taken `syms`: rule R41 holds, and a reader of its stream so
far knows what it knows. -/
structure Tracks (s0 : State) (d : BitVec 4) (syms : List Byte) (s : State) : Prop where
  inv : OpenInv s
  wf : Memory.wf Config.hsize s.hkey = true
  depth : s.depth = d
  stream : ∃ bits r T, Made s0 d s bits ∧ Reads (initSize d) (freshReader (initSize d) []) bits r ∧ Coupled s r T syms

theorem emitCode_packed {c : Code} {s t : State} (h : EmitReady s) (hc : c.toNat < 2 ^ s.codeWidth.toNat)
    (he : c ≠ eofWord s.depth) (hg : emitCode c s = .go t) : Packed s t (lowBits c s.codeWidth.toNat) := by
  obtain ⟨_, _, _, _, _, bs, _, e7, e8⟩ := emitCode_spec h hc he hg
  exact e7.packed e8

theorem tracks_start {s t : State} {d : BitVec 4} (hd : legalDepth d = true)
    (h : (sinkWrite (BitVec.ofNat 8 (initSize d)) (openCall d s)).andThen (emitCode (clearWord d)) = .go t) :
    Tracks s d [] t := by
  have hopen := start_keeps hd h
  obtain ⟨v, hv, hu⟩ := Flow.andThen_go.mp h
  obtain ⟨-, rfl⟩ := sinkWrite_go.mp hv
  have hb := initSize_bounds hd
  have hwv : (BitVec.ofNat 4 (initWidth d)).toNat = initWidth d := by
    simp only [BitVec.toNat_ofNat, initWidth]; omega
  have hcb := clearCode_bounds hd
  have hnv : (BitVec.ofNat 13 (firstFree d)).toNat = firstFree d := by
    simp only [BitVec.toNat_ofNat, firstFree, eofCode]; omega
  refine ⟨hopen, by rw [(emitCode_next hu).hkey]; rfl, (emitCode_next hu).depth, ?_⟩
  generalize hx : ({ openCall d s with
    sink := (openCall d s).sink ++ [BitVec.ofNat 8 (initSize d)]
    answers := (openCall d s).answers.drop 1 } : State) = x at hu
  have x1 : x.depth = d := by rw [← hx]; rfl
  have x2 : x.codeWidth.toNat = initWidth d := by rw [← hx]; exact hwv
  have x3 : x.nextCode.toNat = firstFree d := by rw [← hx]; exact hnv
  have x4 : x.hkey = [] := by rw [← hx]; rfl
  have x5 : x.phase = .empty := by rw [← hx]; rfl
  have x6 : EmitReady x := by
    rw [← hx]; refine ⟨⟨by show (0:Nat) ≤ _; omega, by show 0 < _; exact Nat.one_pos⟩, by show 0 ≤ _; omega, ?_⟩
    show (BitVec.ofNat 4 (initWidth d)).toNat ≤ 12
    rw [hwv]; unfold initWidth; omega
  have x7 : Made s d x [] := by
    rw [← hx]; exact ⟨[], by simp, by simp [openCall, clearTable], by simp [waitingBits, openCall, clearTable, blkBytes, lowBits, bytesBits]⟩
  have hfit : (clearWord d).toNat < 2 ^ x.codeWidth.toNat := by
    have := (controls_fit (s := x) (by rw [x1]; exact hd) (by rw [x1, x2])).1
    rwa [x1] at this
  have hne : clearWord d ≠ eofWord x.depth := by rw [x1]; exact clear_ne_eof hd
  have hF := emitCode_next hu
  have hwt : t.codeWidth.toNat = initWidth d := by
    rw [emitCode_width hu, widthStep_clear (by rw [x1]) (by rw [x1]; exact hd), x1]
  have hR : Reads (initSize d) (freshReader (initSize d) []) (lowBits (clearWord d) x.codeWidth.toNat)
      (freshReader (initSize d) []) := by
    rw [x2] at hfit ⊢
    exact Reads.clear (r := freshReader (initSize d) []) (by show 1 ≤ initSize d + 1; omega) hfit (clearWord_toNat hd)
  refine ⟨_, _, freshTable (initSize d), x7.packed (emitCode_packed x6 hfit hne hu), hR, ?_⟩
  · refine ⟨by rw [hwt]; rfl, ?_, ?_, ?_, ?_, ?_⟩
    · rw [freshTable_length, hF.nextCode, x3]; rfl
    · intro b hb; rw [hF.depth, x1] at hb; exact freshTable_literal hb
    · intro slot k hk; rw [hF.hkey, x4] at hk; cases hk
    · intro _; exact ⟨rfl, rfl, by rw [hF.nextCode, hF.depth, x3, x1], rfl⟩
    · intro hp; rw [hF.phase, x5] at hp; cases hp

theorem ofNat_toNat_byte (c : BitVec 8) : BitVec.ofNat 8 c.toNat = c := by simp

theorem literal_toNat (c : BitVec 8) : (c.setWidth 12).toNat = c.toNat := by
  simp only [BitVec.toNat_setWidth]; have := c.isLt; omega

theorem tracks_first {s0 s : State} {d : BitVec 4} {syms : List Byte} {c : BitVec 8} (h : Tracks s0 d syms s)
    (hp : s.phase = .empty) (hc : symbolLegal d c = true) : Tracks s0 d (syms ++ [c]) (firstSymbol c s) := by
  obtain ⟨hI, hw, hd, bits, r, T, hM, hR, hC⟩ := h
  obtain ⟨f1, f2, f3, f4⟩ := hC.fresh hp
  refine ⟨firstSymbol_keeps hI (by rw [hd]; exact hc), hw, hd, bits, r, T, hM, hR,
    ⟨hC.width, hC.length, hC.literal, hC.entry, fun hx => (by cases hx), fun _ => ?_⟩⟩
  refine ⟨[c], ?_, by simp, by rw [f4], .inl ⟨f2, f1, f3⟩⟩
  show T[(c.setWidth 12).toNat]? = _
  rw [literal_toNat, hC.literal _ (by rw [hd]; simpa [symbolLegal] using hc), ofNat_toNat_byte]

theorem tracks_next {s0 s t : State} {d : BitVec 4} {syms : List Byte} {c : BitVec 8} (h : Tracks s0 d syms s)
    (hp : s.phase = .active) (hc : symbolLegal d c = true) (hg : nextSymbol c s = .go t) :
    Tracks s0 d (syms ++ [c]) t := by
  obtain ⟨hI, hw, rfl, bits, r, T, hM, hR, hC⟩ := h
  have hI' := nextSymbol_keeps hI hw hp hc hg
  obtain ⟨hB, hW, hF⟩ := hI
  have hd := hB.depth_legal
  obtain ⟨q1, q2, q3⟩ := hB.prev_code hp
  have hE := hB.emitReady
  have hfit : s.prevCode.toNat < 2 ^ s.codeWidth.toNat := Nat.lt_of_lt_of_le q1 hB.next_fits
  have hlit : c.toNat < clearCode s.depth := by simpa [symbolLegal] using hc
  cases hl : lookup s.hkey s.prevCode c with
  | hit slot =>
    rw [nextSymbol_hit hl] at hg
    obtain rfl := Flow.go.inj hg
    obtain ⟨e, he, hne, ho, hcase⟩ := hC.pending hp
    obtain ⟨k, e', k1, k2, k3⟩ := hC.entry slot _ (lookup_hit hl)
    rw [keyPrefix_keyOf, he] at k2
    obtain rfl := Option.some.inj k2
    rw [keyByte_keyOf] at k3
    refine ⟨hI', hw, rfl, bits, r, T, hM, hR, ⟨hC.width, hC.length, hC.literal, hC.entry, ?_, fun _ => ?_⟩⟩
    · intro hx; have hx : s.phase = .empty := hx; rw [hp] at hx; cases hx
    · refine ⟨e ++ [c], ?_, by simp, by rw [← ho, List.append_assoc], ?_⟩
      · show T[(hcodeAt s slot).toNat]? = _
        rw [hcodeAt_of_read k1]; exact k3
      · have ht : (e ++ [c]).take 1 = e.take 1 := by
          cases e with
          | nil => exact absurd rfl hne
          | cons x e => simp
        rw [ht]
        exact hcase
  | endless => simp [nextSymbol, hl] at hg
  | miss slot =>
    by_cases hn : s.nextCode.toNat < 4096
    · obtain ⟨s1, h1, rfl⟩ := (nextSymbol_insert hl hn).mp hg
      have e1 := emitCode_next h1
      obtain ⟨e, r1, he, hne, hR1, w1, t1, p1, o1⟩ := hC.emit hB hp h1
      have hslot := (lookup_miss hl).1
      have hlen := hC.length
      have hff := hB.next_low
      unfold firstFree eofCode at hff
      have hcv : (s1.nextCode.extractLsb' 0 12).toNat = s.nextCode.toNat := by
        rw [e1.nextCode]; simp only [BitVec.extractLsb'_toNat, Nat.shiftRight_zero]; omega
      have hold : ∀ {i : Nat} {x}, T[i]? = some x → (T ++ [e ++ [c]])[i]? = some x := by
        intro i x hx
        rw [List.getElem?_append_left (List.getElem?_eq_some_iff.mp hx).1]; exact hx
      have hP1 := emitCode_packed hE hfit q3 h1
      have hP2 : Packed s (insertEntry slot s.prevCode c (startString c s1)) (lowBits s.prevCode s.codeWidth.toNat) := hP1
      have hw' : Memory.wf Config.hsize (Memory.write s1.hkey slot (keyOf s.prevCode c)) = true := by
        rw [e1.hkey]
        exact Memory.wf_write _ _ hw (lookup_miss hl).2
      refine ⟨hI', hw', e1.depth, bits ++ lowBits s.prevCode s.codeWidth.toNat, r1, T ++ [e ++ [c]],
        hM.packed hP2, hR.trans hR1, ⟨w1, ?_, ?_, ?_, ?_, fun _ => ?_⟩⟩
      · show _ = (s1.nextCode + 1#13).toNat
        rw [e1.nextCode, BitVec.toNat_add, List.length_append, hlen]
        simp only [BitVec.toNat_ofNat, List.length_cons, List.length_nil]
        omega
      · intro b hb
        have hb : b < clearCode s1.depth := hb
        rw [e1.depth] at hb
        exact hold (hC.literal b hb)
      · intro j k hj
        have hj : Memory.read (Memory.write s1.hkey slot (keyOf s.prevCode c)) j = some k := hj
        show ∃ c' e', Memory.read (Memory.write s1.hcode slot (s1.nextCode.extractLsb' 0 12)) j = some c' ∧ _
        rw [Memory.read_write] at hj ⊢
        split at hj
        · next hjs =>
          obtain rfl := Option.some.inj hj
          refine ⟨_, e, by rw [if_pos hjs], ?_, ?_⟩
          · rw [keyPrefix_keyOf]; exact hold he
          · rw [keyByte_keyOf, hcv, ← hlen, List.getElem?_append_right (Nat.le_refl _)]
            simp
        · next hjs =>
          rw [e1.hkey] at hj
          obtain ⟨c', e', a1, a2, a3⟩ := hC.entry j k hj
          exact ⟨c', e', by rw [if_neg hjs, e1.hcode]; exact a1, hold a2, hold a3⟩
      · intro hx
        have hx : s1.phase = .empty := hx
        rw [e1.phase, hp] at hx
        cases hx
      · refine ⟨[c], ?_, by simp, by rw [o1], .inr ⟨e, p1, hne, by rw [t1]; simp⟩⟩
        show (T ++ [e ++ [c]])[(c.setWidth 12).toNat]? = _
        rw [literal_toNat]
        apply hold
        rw [hC.literal _ hlit, ofNat_toNat_byte]
    · obtain ⟨s1, h1, h2⟩ := (nextSymbol_clear hl hn).mp hg
      have e1 := emitCode_next h1
      have eE := hE.emit hfit q3 hd h1
      obtain ⟨e, r1, he, hne, hR1, w1, t1, p1, o1⟩ := hC.emit hB hp h1
      have hP1 := emitCode_packed hE hfit q3 h1
      generalize hx : restartCodes (clearTable (startString c s1)) = x at h2
      have hcb := clearCode_bounds hd
      have x1 : x.depth = s.depth := by rw [← hx]; exact e1.depth
      have x2 : x.codeWidth = s1.codeWidth := by rw [← hx]; rfl
      have x3 : x.nextCode.toNat = firstFree s.depth := by
        rw [← hx]
        show (BitVec.ofNat 13 (firstFree s1.depth)).toNat = _
        rw [e1.depth]
        simp only [BitVec.toNat_ofNat, firstFree, eofCode]
        omega
      have x4 : x.hkey = [] := by rw [← hx]; rfl
      have x5 : x.prevCode = c.setWidth 12 := by rw [← hx]; rfl
      have x6 : EmitReady x := by rw [← hx]; exact ⟨eE.packable, eE.accBits, eE.codeWidth⟩
      have x7 : Packed s x (lowBits s.prevCode s.codeWidth.toNat) := by rw [← hx]; exact hP1
      have x8 : x.phase = .active := by rw [← hx]; exact e1.phase.trans hp
      have hdx : legalDepth x.depth = true := by rw [x1]; exact hd
      have hib := initSize_bounds hd
      have hwx : initWidth x.depth ≤ x.codeWidth.toNat := by
        rw [x1, x2, emitCode_width h1, widthStep_grown q2]
        have := hB.width_low
        unfold grownWidth
        split <;> omega
      have hfx := (controls_fit hdx hwx).1
      rw [x1] at hfx hwx
      have hnx : clearWord s.depth ≠ eofWord x.depth := by rw [x1]; exact clear_ne_eof hd
      have e2 := emitCode_next h2
      have hwt : t.codeWidth.toNat = initWidth s.depth := by
        rw [emitCode_width h2, widthStep_clear (by rw [x1]) hdx, x1]
      have hR2 : Reads (initSize s.depth) r1 (lowBits (clearWord s.depth) x.codeWidth.toNat)
          (freshReader (initSize s.depth) r1.out) := by
        have hw1 : r1.width = x.codeWidth.toNat := by rw [x2]; exact w1
        have := Reads.clear (n := initSize s.depth) (r := r1) (c := clearWord s.depth)
          (by rw [hw1]; unfold initWidth at hwx; omega) (by rw [hw1]; exact hfx) (clearWord_toNat hd)
        rwa [hw1] at this
      refine ⟨hI', by rw [e2.hkey, x4]; rfl, e2.depth.trans x1, _, _, freshTable (initSize s.depth),
        (hM.packed x7).packed (emitCode_packed x6 hfx hnx h2), (hR.trans hR1).trans hR2, ⟨?_, ?_, ?_, ?_, ?_, fun _ => ?_⟩⟩
      · rw [hwt]; rfl
      · rw [freshTable_length, e2.nextCode, x3]; rfl
      · intro b hb; rw [e2.depth, x1] at hb; exact freshTable_literal hb
      · intro j k hj; rw [e2.hkey, x4] at hj; cases hj
      · intro hy; rw [e2.phase, x8] at hy; cases hy
      · refine ⟨[c], ?_, by simp, ?_, .inl ⟨rfl, rfl, by rw [e2.nextCode, e2.depth, x3, x1]⟩⟩
        · rw [e2.prevCode, x5, literal_toNat, freshTable_literal hlit, ofNat_toNat_byte]
        · show r1.out ++ [c] = _
          rw [o1]


/-- Up to the end code: what is left is the padding. -/
theorem readCodes_end {n m : Nat} {r r1 : Reader} {bits pad : List Bool} {c : Code} (h : Reads n r bits r1)
    (hw : c.toNat < 2 ^ r1.width) (hc : c.toNat = 2 ^ n + 1) (hm : bits.length + 1 ≤ m) :
    readCodes n m r (bits ++ (lowBits c r1.width ++ pad)) = some (r1.out, pad) := by
  obtain ⟨j, hj, he⟩ := h
  obtain ⟨k, rfl⟩ : ∃ k, m = k + 1 + j := ⟨m - 1 - j, by omega⟩
  rw [he, readCodes_code hw, if_neg (by omega), if_pos hc]

/-- A command that runs before a sink that accepts everything. -/
theorem RunsAs.acked {i : Instr} {s p : State} {F : State → Flow} (h : RunsAs i s F) (hp : F (Machine.calm s) = .go p)
    (ha : ∀ a ∈ s.answers, a = SinkAnswer.ack) :
    ∃ u, F s = .go u ∧ Machine.exec i s = .next (respond .eNone u) ∧ u.cmd = s.cmd ∧ u.resetPin = s.resetPin ∧
      u.rsp = s.rsp ∧ ∀ a ∈ u.answers, a = SinkAnswer.ack := by
  have hf := h.follows
  rw [hp] at hf
  have he := h.ends
  rcases hf.ends with ⟨u, hu⟩ | ⟨u, hu⟩ | ⟨-, hr⟩
  · rw [hu] at he
    obtain ⟨hfr, bs, -, -, hb⟩ := he
    refine ⟨u, hu, by rw [h.exec, hu]; rfl, hfr.cmd, hfr.resetPin, hfr.rsp, fun a hA => ?_⟩
    rw [hb] at hA
    exact ha a (List.mem_of_mem_drop hA)
  · rw [hu] at he
    obtain ⟨-, bs, -, hb⟩ := he
    have := ha .fail (by rw [hb]; simp)
    cases this
  · exact absurd (fun a hA hx => by rw [ha a hA] at hx; cases hx) hr

/-- `Tracks` reads no channel. -/
theorem Tracks.cmd {s0 s : State} {d : BitVec 4} {syms : List Byte} (h : Tracks s0 d syms s) (ws : List CmdWord) :
    Tracks s0 d syms { s with cmd := ws } := by
  obtain ⟨hI, hw, hd, bits, r, T, hM, hR, hC⟩ := h
  exact ⟨⟨{ hI.1 with }, hI.2.1, hI.2.2⟩, hw, hd, bits, r, T, hM, hR, { hC with }⟩

theorem Tracks.respond {s0 s : State} {d : BitVec 4} {syms : List Byte} (h : Tracks s0 d syms s) (e : ErrCode) :
    Tracks s0 d syms (Machine.respond e s) := by
  obtain ⟨hI, hw, hd, bits, r, T, hM, hR, hC⟩ := h
  exact ⟨⟨{ hI.1 with }, hI.2.1, hI.2.2⟩, hw, hd, bits, r, T, hM, hR, { hC with }⟩

end Sys2Proof.Machine
end

