-- ==== Sys2Proof/Tests/Slice0.lean ====
section
/-! SUPPORT. Small tests of the model, each expected value from spec/ (the source is named in the docstring), and for
every statement with hypotheses a concrete state and operands that meet them all together. -/

namespace Sys2Proof.Tests

open Sys2Proof Sys2Proof.Machine

/-! ### Small states -/

/-- The state after `START 2` (95_test_vectors.md V19): a call open in phase `EMPTY`. -/
def emptyTwo : State :=
  { State.reset with phase := .empty, depth := 2#4, codeWidth := 3#4, nextCode := 6#13, acc := 4#19, accBits := 3#5 }

/-- 95_test_vectors.md P1 row 1: `PUT 1` after `START 2`. -/
def activeTwo : State := { emptyTwo with phase := .active, prevCode := 1#12 }

/-- 95_test_vectors.md P1 row 2: the pair (1, 1) has code 6 in slot 17. -/
def onePair : State :=
  { activeTwo with nextCode := 7#13, acc := 0xC#19, accBits := 6#5, hkey := [(17, 0x01001#20)], hcode := [(17, 6#12)] }

/-- 40_commands.md R92, example: depth 8, `PREV_CODE = 65`. -/
def activeEight : State :=
  { State.reset with
    phase := .active, depth := 8#4, codeWidth := 9#4, prevCode := 65#12, nextCode := 258#13, acc := 1#19, accBits := 1#5
    blkCount := 1#8, blkBuf := [(0, 0x00#8)] }

/-- 40_commands.md R93, example: depth 2, `PREV_CODE = 9`, two bytes waiting. -/
def endingTwo : State :=
  { State.reset with
    phase := .active, depth := 2#4, codeWidth := 4#4, prevCode := 9#12, nextCode := 10#13, blkCount := 2#8
    blkBuf := [(0, 0x8C#8), (1, 0x2D#8)] }

/-- A call with the code space exhausted, written down with empty tables. -/
def exhausted : State := { activeEight with codeWidth := 12#4, nextCode := 4096#13 }

/-- A call the sink has failed. -/
def failedCall : State := { State.reset with phase := .failed, lastErr := .eSink }

/-! ### Well-formed terms -/

/-- R73: the depths 0, 9 and 15 are ill formed. -/
theorem test_wellFormed_refuses_depth :
    (Instr.start 0#4).wellFormed = false ∧ (Instr.start 9#4).wellFormed = false ∧
      (Instr.start 15#4).wellFormed = false := by decide

/-- R73: the depths 1 and 8 are well formed; R72: a PUT is for every symbol. -/
theorem test_wellFormed_accepts :
    (Instr.start 1#4).wellFormed = true ∧ (Instr.start 8#4).wellFormed = true ∧
      (Instr.put 255#8).wellFormed = true := by decide

/-! ### Decoding: words written out bit by bit from the `encoding` column of the opcode table and R72 to R75 -/

theorem test_decode_put : decode 0b0001000001#10 = .put 0x41#8 ∧ decode 0b0000000000#10 = .put 0#8 := by decide
theorem test_decode_start : decode 0b0100000001#10 = .start 1#4 ∧ decode 0b0100001000#10 = .start 8#4 := by decide
theorem test_decode_finish : decode 0b1000000000#10 = .finish := by decide
theorem test_decode_rsvdOp3 : decode 0b1100000000#10 = .rsvdOp3 0#8 ∧ decode 0b1111111111#10 = .rsvdOp3 0xFF#8 := by
  decide
theorem test_decode_rsvdStartD0 : decode 0b0100000000#10 = .rsvdStartD0 := by decide
theorem test_decode_rsvdStartD9 : decode 0b0100001001#10 = .rsvdStartD9 := by decide
theorem test_decode_rsvdStartD10to11 :
    decode 0b0100001010#10 = .rsvdStartD10to11 0#1 ∧ decode 0b0100001011#10 = .rsvdStartD10to11 1#1 := by decide
theorem test_decode_rsvdStartD12to15 :
    decode 0b0100001100#10 = .rsvdStartD12to15 0#2 ∧ decode 0b0100001111#10 = .rsvdStartD12to15 3#2 := by decide
theorem test_decode_rsvdStartHi1 :
    decode 0b0100010000#10 = .rsvdStartHi1 0#4 ∧ decode 0b0100011000#10 = .rsvdStartHi1 8#4 := by decide
theorem test_decode_rsvdStartHi2 :
    decode 0b0100100000#10 = .rsvdStartHi2 0#5 ∧ decode 0b0100111111#10 = .rsvdStartHi2 31#5 := by decide
theorem test_decode_rsvdStartHi3 :
    decode 0b0101000000#10 = .rsvdStartHi3 0#6 ∧ decode 0b0101111111#10 = .rsvdStartHi3 63#6 := by decide
theorem test_decode_rsvdStartHi4 :
    decode 0b0110000000#10 = .rsvdStartHi4 0#7 ∧ decode 0b0111111111#10 = .rsvdStartHi4 127#7 := by decide
theorem test_decode_rsvdFinishArg1 : decode 0b1000000001#10 = .rsvdFinishArg1 := by decide
theorem test_decode_rsvdFinishArg2 :
    decode 0b1000000010#10 = .rsvdFinishArg2 0#1 ∧ decode 0b1000000011#10 = .rsvdFinishArg2 1#1 := by decide
theorem test_decode_rsvdFinishArg3 :
    decode 0b1000000100#10 = .rsvdFinishArg3 0#2 ∧ decode 0b1000000111#10 = .rsvdFinishArg3 3#2 := by decide
theorem test_decode_rsvdFinishArg4 :
    decode 0b1000001000#10 = .rsvdFinishArg4 0#3 ∧ decode 0b1000001111#10 = .rsvdFinishArg4 7#3 := by decide
theorem test_decode_rsvdFinishArg5 :
    decode 0b1000010000#10 = .rsvdFinishArg5 0#4 ∧ decode 0b1000011111#10 = .rsvdFinishArg5 15#4 := by decide
theorem test_decode_rsvdFinishArg6 :
    decode 0b1000100000#10 = .rsvdFinishArg6 0#5 ∧ decode 0b1000111111#10 = .rsvdFinishArg6 31#5 := by decide
theorem test_decode_rsvdFinishArg7 :
    decode 0b1001000000#10 = .rsvdFinishArg7 0#6 ∧ decode 0b1001111111#10 = .rsvdFinishArg7 63#6 := by decide
theorem test_decode_rsvdFinishArg8 :
    decode 0b1010000000#10 = .rsvdFinishArg8 0#7 ∧ decode 0b1011111111#10 = .rsvdFinishArg8 127#7 := by decide

/-- R70: a number with a bit above bit 9 is no command word. -/
theorem test_decode_rejects_wide : decodeTableWord 16 1024 = none ∧ decodeTableWord 16 1023 = some (.rsvdOp3 0xFF#8) := by
  decide

/-! ### Single steps -/

/-- R91, example, and V19: `START 8` from reset. -/
theorem test_start_eight : ∃ t, step (State.reset.withFetchWord 16 0x108) = .next t ∧
    (t.phase, t.codeWidth, t.nextCode, t.acc, t.accBits) = (.empty, 9#4, 258#13, 1#19, 1#5) ∧
    (t.blkCount, t.blkBuf, t.sink, t.rsp) = (1#8, [(0, 0x00#8)], [0x08#8], [0x1#4]) :=
  ⟨_, rfl, rfl, rfl⟩

/-- V19, row 7: the clear code of depth 7 fills one byte. -/
theorem test_start_seven : ∃ t, exec (.start 7#4) State.reset = .next t ∧
    (t.codeWidth, t.nextCode, t.acc, t.accBits, t.blkCount) = (8#4, 130#13, 0#19, 0#5, 1#8) ∧
    (t.blkBuf, t.sink) = ([(0, 0x80#8)], [0x07#8]) :=
  ⟨_, rfl, rfl, rfl⟩

/-- R92, example: `PUT 66` misses at slot 1121. -/
theorem test_put_miss : ∃ t, exec (.put 66#8) activeEight = .next t ∧
    (t.prevCode, t.nextCode, t.acc, t.accBits, t.blkBuf) = (66#12, 259#13, 0#19, 2#5, [(0, 0x00#8), (1, 0x83#8)]) ∧
    (t.hkey, t.hcode, t.sink, t.rsp) = ([(1121, 0x42041#20)], [(1121, 258#12)], [], [0x1#4]) :=
  ⟨_, rfl, rfl, rfl⟩

/-- P1, row 3: a hit at slot 17. -/
theorem test_put_hit : exec (.put 1#8) onePair = .next { onePair with prevCode := 6#12, rsp := [0x1#4] } := rfl

/-- R93, example: codes 9 and 5 of 4 bits each in the byte 0x59. -/
theorem test_finish : ∃ t, exec .finish endingTwo = .next t ∧
    (t.phase, t.acc, t.accBits, t.blkCount) = (.idle, 0#19, 0#5, 0#8) ∧
    (t.sink, t.rsp) = ([0x03#8, 0x8C#8, 0x2D#8, 0x59#8, 0x00#8], [0x1#4]) :=
  ⟨_, rfl, rfl, rfl⟩

/-- V3, row 2: `START 2`, `FINISH`; the bytes FINISH writes. -/
theorem test_finish_empty : ∃ t, exec .finish emptyTwo = .next t ∧ t.sink = [0x01#8, 0x2C#8, 0x00#8] := ⟨_, rfl, rfl⟩

/-- V16: a reserved word in mid-call (0x3FF), `STATUS = 0b01110`. -/
theorem test_reserved : ∃ t, step (activeTwo.withFetchWord 16 0x3FF) = .next t ∧ t.rsp = [0x6#4] ∧
    statusPort t = 0b01110#5 ∧ t.sink = [] := ⟨_, rfl, rfl, rfl, rfl⟩

/-- V17, row `k = 1`: the sink fails the length byte that FINISH offers. -/
theorem test_sink_failure : ∃ t, exec .finish { activeEight with answers := [.fail] } = .next t ∧
    (t.phase, t.lastErr, t.sink, t.rsp) = (.failed, .eSink, [], [0x4#4]) := ⟨_, rfl, rfl⟩

/-- R112, R113, R114: the examples for the first slot, the probe step and a search that passes over a slot. -/
theorem test_lookup : hashIndex 65#12 66#8 = 1121 ∧ hashIndex 16#12 1#8 = 0 ∧ probeStep 16 = 4987 ∧
    probeStep 0 = 1 ∧ probeStep 4095 = 908 ∧ lookup [(16, 0x01000#20)] 16#12 0#8 = .miss 32 := by decide

/-- R111: the example for the key. -/
theorem test_key : keyOf 65#12 66#8 = 0x42041#20 := by decide

/-- R125: the example for a code of 9 bits. -/
theorem test_emitCode : ∃ t, emitCode 65#12 { activeEight with blkCount := 0#8, blkBuf := [] } = .go t ∧
    (t.acc, t.accBits, t.codeWidth, t.blkBuf) = (0#19, 2#5, 9#4, [(0, 0x83#8)]) := ⟨_, rfl, rfl⟩

/-- V6 and the yardstick decoder (95_test_vectors.md section 1): the stream of `0,1,2,3` three times at depth 2. -/
theorem test_yardstick :
    decodeStream [0x02#8, 0x05#8, 0x44#8, 0x34#8, 0x86#8, 0x3A#8, 0x05#8, 0x00#8] =
      some [0#8, 1#8, 2#8, 3#8, 0#8, 1#8, 2#8, 3#8, 0#8, 1#8, 2#8, 3#8] := by decide

/-- R86: the words of `COMPRESS 2: 3`, as in P3 (b). -/
theorem test_script : scriptWords [.compress 2#4 [3#8], .range 0#8 2#8, .rep 2 1#8, .word 0x300#10] =
    [0x102#10, 0x003#10, 0x200#10, 0x000#10, 0x001#10, 0x002#10, 0x001#10, 0x001#10, 0x300#10] := by decide

/-! ### Invariants of the small states -/

/-- A state with an empty dictionary meets rule R41 if its registers do. -/
theorem between_of_empty {s : State} (hk : s.hkey = []) (hn : s.nextCode.toNat = firstFree s.depth)
    (hd : legalDepth s.depth = true) (hw : initWidth s.depth ≤ s.codeWidth.toNat) (hw' : s.codeWidth.toNat ≤ 12)
    (hf : s.nextCode.toNat ≤ 2 ^ s.codeWidth.toNat) (hf' : s.nextCode.toNat ≤ 4096) (ha : s.accBits.toNat ≤ 7)
    (hl : s.acc.toNat < 2 ^ s.accBits.toNat) (hb : s.blkCount.toNat ≤ 253)
    (hp : s.prevCode.toNat < s.nextCode.toNat ∧ s.prevCode ≠ clearWord s.depth ∧ s.prevCode ≠ eofWord s.depth) :
    BetweenCommands s := by
  refine ⟨hd, hw, hw', hn.ge, hf', hf, by simp [hk, hn], ?_, ?_, ?_, ha, hl, hb, fun _ => hp⟩
  · intro slot k h; rw [hk] at h; cases h
  · intro n h h'; omega
  · intro i j k h; rw [hk] at h; cases h

theorem inv_emptyTwo : Inv emptyTwo := by
  refine ⟨by decide, fun _ => ⟨between_of_empty rfl (by decide) (by decide) (by decide) (by decide) (by decide)
    (by decide) (by decide) (by decide) (by decide) (by decide), ?_, ?_⟩⟩
  · intro j h; cases h
  · intro slot k h; cases h

theorem inv_activeTwo : Inv activeTwo := by
  refine ⟨by decide, fun _ => ⟨between_of_empty rfl (by decide) (by decide) (by decide) (by decide) (by decide)
    (by decide) (by decide) (by decide) (by decide) (by decide), ?_, ?_⟩⟩
  · intro j h; cases h
  · intro slot k h; cases h

theorem inv_reset : Inv State.reset := by
  refine ⟨rfl, fun h => ?_⟩
  rcases h with h | h <;> cases h

/-! ### Witnesses: the hypotheses of each statement, met together -/

theorem witness_DecodeOfEncode : (Instr.start 8#4).wellFormed = true ∧ (Instr.start 1#4).wellFormed = true := by decide

theorem witness_StepRunsDecodedCommand :
    ({ State.reset with cmd := [0x108#10] } : State).cmd = 0x108#10 :: [] ∧
      ({ State.reset with cmd := [0x108#10] } : State).resetPin = [] ∧
      ({ State.reset with cmd := [0x108#10], resetPin := [.off] } : State).resetPin = .off :: [] := by decide

theorem witness_StepWaitsForAWord :
    State.reset.cmd = [] ∧ State.reset.resetPin = [] ∧
      ({ State.reset with resetPin := [.off] } : State).resetPin = .off :: [] := by decide

theorem witness_ResetBetweenCommands : ({ activeTwo with resetPin := [.between] } : State).resetPin = .between :: [] := rfl

theorem witness_ResetDuringCommand :
    ∃ s : State, s.cmd = 0x200#10 :: [] ∧ s.resetPin = .during 1 :: [] ∧ ∀ q, step s ≠ .refused q :=
  ⟨{ activeEight with cmd := [0x200#10], resetPin := [.during 1] }, rfl, rfl, fun _ h => nomatch h⟩

theorem witness_ReservedWordRefused : (Instr.rsvdOp3 0#8).isReserved = true := by decide

theorem witness_OutOfSequenceRefused :
    State.reset.phase = .idle ∧ ∃ t, exec (.start 8#4) State.reset = .next t := ⟨rfl, _, rfl⟩

theorem witness_FailedCallRefused : failedCall.phase = .failed := by decide

theorem witness_StartIllegalDepthRefused : (0#4 = 0#4 ∨ 9 ≤ (0#4).toNat) ∧ (9#4 = 0#4 ∨ 9 ≤ (9#4).toNat) := by decide

theorem witness_SymbolOutOfRangeRefused :
    callOpen emptyTwo ∧ 2 ^ max 2 emptyTwo.depth.toNat ≤ (4#8).toNat := ⟨.inl rfl, by decide⟩

theorem witness_StartOpensCall :
    (1 ≤ (1#4).toNat ∧ (1#4).toNat ≤ 8) ∧ (1 ≤ (7#4).toNat ∧ (7#4).toNat ≤ 8) ∧ (1 ≤ (8#4).toNat ∧ (8#4).toNat ≤ 8) ∧
      sinkAccepts 1 State.reset := ⟨by decide, by decide, by decide, sinkAccepts_of_nil rfl _⟩

theorem witness_StartSinkFailure :
    (1 ≤ (1#4).toNat ∧ (1#4).toNat ≤ 8) ∧ ({ State.reset with answers := [.fail] } : State).answers = .fail :: [] := by
  decide

theorem witness_SilentSinkHangsStart :
    (1 ≤ (8#4).toNat ∧ (8#4).toNat ≤ 8) ∧
      ({ State.reset with answers := [.silent] } : State).answers = .silent :: [] := by decide

theorem witness_PutFirstSymbol : emptyTwo.phase = .empty ∧ (3#8).toNat < 2 ^ max 2 emptyTwo.depth.toNat := by decide

theorem witness_PutHitExtendsMatch : onePair.phase = .active ∧ (1#8).toNat < 2 ^ max 2 onePair.depth.toNat ∧
    lookup onePair.hkey onePair.prevCode 1#8 = .hit 17 := by decide

theorem witness_PutMissInserts : activeTwo.phase = .active ∧ (1#8).toNat < 2 ^ max 2 activeTwo.depth.toNat ∧
    packerReady activeTwo = true ∧ prevReady activeTwo = true ∧ sinkAccepts 255 activeTwo ∧
    lookup activeTwo.hkey activeTwo.prevCode 1#8 = .miss 17 ∧ activeTwo.nextCode.toNat < 4096 :=
  ⟨by decide, by decide, by decide, by decide, sinkAccepts_of_nil rfl _, by decide, by decide⟩

theorem witness_PutMissClearsWhenExhausted : exhausted.phase = .active ∧
    (66#8).toNat < 2 ^ max 2 exhausted.depth.toNat ∧ packerReady exhausted = true ∧ prevReady exhausted = true ∧
    sinkAccepts 255 exhausted ∧ exhausted.codeWidth = 12#4 ∧
    lookup exhausted.hkey exhausted.prevCode 66#8 = .miss 1121 ∧ exhausted.nextCode.toNat = 4096 :=
  ⟨by decide, by decide, by decide, by decide, sinkAccepts_of_nil rfl _, by decide, by decide, by decide⟩

theorem witness_PutWritesZeroOr255 :
    Inv activeTwo ∧ ∃ t, exec (.put 1#8) activeTwo = .next t ∧ t.phase ≠ .failed :=
  ⟨inv_activeTwo, _, rfl, by decide⟩

theorem witness_FinishCompletesStream : callOpen activeTwo ∧ packerReady activeTwo = true ∧
    (activeTwo.phase = .active → prevReady activeTwo = true) ∧ sinkAccepts 260 activeTwo ∧
    callOpen emptyTwo ∧ packerReady emptyTwo = true ∧ (emptyTwo.phase = .active → prevReady emptyTwo = true) ∧
    sinkAccepts 260 emptyTwo :=
  ⟨.inr rfl, by decide, by decide, sinkAccepts_of_nil rfl _, .inl rfl, by decide, by decide, sinkAccepts_of_nil rfl _⟩

theorem witness_FinishWritesThreeTo260 :
    callOpen emptyTwo ∧ Inv emptyTwo ∧ ∃ t, exec .finish emptyTwo = .next t ∧ t.phase = .idle :=
  ⟨.inl rfl, inv_emptyTwo, _, rfl, rfl⟩

theorem witness_SinkFailureEndsCommand : ∃ s t : State,
    (s.phase ≠ .failed ∨ ∃ d, Instr.finish = .start d ∧ legalDepth d = true) ∧ exec .finish s = .next t ∧
      t.phase = .failed :=
  ⟨{ activeEight with answers := [.ack, .fail] }, _, .inl (by decide), rfl, rfl⟩

theorem witness_SinkAnswersOnlyCutShort : ∃ s t u : State,
    exec .finish s = .next t ∧ exec .finish { s with answers := [] } = .next u :=
  ⟨{ activeEight with answers := [.ack, .fail] }, _, _, rfl, rfl⟩

theorem witness_EveryCommandIsAnswered : Inv activeTwo ∧ sinkResponds activeTwo ∧
    (∀ c, Instr.put 3#8 = .put c → callOpen activeTwo → symbolLegal activeTwo.depth c = true) := by
  refine ⟨inv_activeTwo, ?_, ?_⟩
  · intro a h; cases h
  · intro c h _
    cases h
    decide

theorem witness_OneResponsePerCommand : ∃ t, exec .finish activeEight = .next t := ⟨_, rfl⟩

theorem witness_LastErrIsSticky :
    (∃ t, exec (.put 3#8) emptyTwo = .next t ∧ t.rsp = emptyTwo.rsp ++ [0x1#4]) ∧
      (∃ t, exec .finish State.reset = .next t ∧ ErrCode.eSeq ≠ .eNone ∧
        t.rsp = State.reset.rsp ++ [responseWord .eSeq]) :=
  ⟨⟨_, rfl, rfl⟩, ⟨_, rfl, by decide, rfl⟩⟩

theorem witness_PhaseTable :
    (legalDepth 8#4 = true ∧ ∃ t, exec (.start 8#4) activeTwo = .next t) ∧ (∃ t, exec (.put 1#8) activeTwo = .next t) ∧
      (∃ t, exec .finish activeTwo = .next t) ∧
      (Instr.rsvdStartD9.isReserved = true ∧ ∃ t, exec .rsvdStartD9 activeTwo = .next t) :=
  ⟨⟨rfl, _, rfl⟩, ⟨_, rfl⟩, ⟨_, rfl⟩, ⟨rfl, _, rfl⟩⟩

theorem witness_OutputIsAppendOnly : ∃ t, step { activeEight with cmd := [0x200#10] } = .next t := ⟨_, rfl⟩

theorem witness_DepthConstantInCall :
    (∀ d, Instr.finish ≠ .start d) ∧ ∃ t, exec .finish activeEight = .next t ∧ t.phase ≠ .failed :=
  ⟨(by intro d h; cases h), _, rfl, by decide⟩

theorem witness_KeyIsInjective : keyOf 65#12 66#8 = keyOf 65#12 66#8 := rfl

theorem witness_ProbeStepIsNeverZero : (0 ≤ 5002 ∧ 0 = 0) ∧ (1 ≤ 5002 ∧ 1 ≠ 0) ∧ (5002 ≤ 5002 ∧ 5002 ≠ 0) := by decide

theorem witness_LookupEnds : Memory.wf 5003 onePair.hkey = true ∧ onePair.hkey.length < 5003 := by decide

theorem witness_LookupFindsExactlyTheDictionary : Inv activeTwo ∧ callOpen activeTwo := ⟨inv_activeTwo, .inr rfl⟩

theorem witness_InsertThenLookup : lookup onePair.hkey 6#12 1#8 = .miss 22 ∧ onePair.nextCode.toNat < 4096 ∧
    lookup onePair.hkey 1#12 1#8 = .hit 17 := by decide

theorem witness_EmitCodePacksLsbFirst : packerReady activeEight = true ∧
    (65#12).toNat < 2 ^ activeEight.codeWidth.toNat ∧ 65#12 ≠ eofWord activeEight.depth ∧
    ∃ t, emitCode 65#12 activeEight = .go t := ⟨by decide, by decide, by decide, _, rfl⟩

theorem witness_CodeWidthSchedule :
    (∃ t, emitCode 4#12 activeTwo = .go t ∧ 4#12 = clearWord activeTwo.depth) ∧
      (∃ t, emitCode 1#12 activeTwo = .go t ∧ 1#12 ≠ clearWord activeTwo.depth) :=
  ⟨⟨_, rfl, by decide⟩, ⟨_, rfl, by decide⟩⟩

theorem witness_EveryCodeFits : Inv activeTwo ∧ callOpen activeTwo ∧ activeTwo.phase = .active ∧
    ∃ t, emitCode activeTwo.prevCode activeTwo = .go t := ⟨inv_activeTwo, .inr rfl, rfl, _, rfl⟩

theorem witness_EndCodeFlushesEverything :
    packerReady activeEight = true ∧ ∃ t, emitCode (eofWord activeEight.depth) activeEight = .go t :=
  ⟨by decide, _, rfl⟩

theorem witness_ByteOutCutsAt254 :
    (({ activeEight with blkCount := 252#8 } : State).blkCount.toNat ≤ 253 ∧
      ({ activeEight with blkCount := 252#8 } : State).blkCount.toNat < 253) ∧
    (({ activeEight with blkCount := 253#8 } : State).blkCount.toNat ≤ 253 ∧
      ({ activeEight with blkCount := 253#8 } : State).blkCount.toNat = 253 ∧
      sinkAccepts 255 { activeEight with blkCount := 253#8 }) :=
  ⟨by decide, by decide, by decide, sinkAccepts_of_nil rfl _⟩

theorem witness_FlushBlockWritesWhatWaits :
    (emptyTwo.blkCount.toNat ≤ 254 ∧ emptyTwo.blkCount = 0#8) ∧
    (({ activeEight with blkCount := 254#8 } : State).blkCount.toNat ≤ 254 ∧
      ({ activeEight with blkCount := 254#8 } : State).blkCount ≠ 0#8 ∧
      sinkAccepts 255 { activeEight with blkCount := 254#8 }) ∧
    (∃ t, flushBlock { activeEight with answers := [.ack, .fail] } = .sinkFail t) :=
  ⟨by decide, ⟨by decide, by decide, sinkAccepts_of_nil rfl _⟩, _, rfl⟩

theorem witness_FramingReadsBack : [0x59#8].length < 2 := by decide

theorem witness_StepKeepsTablesCanonical :
    memoryWf onePair = true ∧ ∃ t, step (onePair.withFetchWord 16 0x001) = .next t := ⟨by decide, _, rfl⟩

theorem witness_StepKeepsInvariant : Inv activeTwo ∧ ∃ t, step (activeTwo.withFetchWord 16 0x001) = .next t :=
  ⟨inv_activeTwo, _, rfl⟩

theorem witness_StartErasesHistory : legalDepth 8#4 = true ∧ State.reset.answers = onePair.answers := by decide

theorem witness_CallSeesNoHistory :
    SameCall emptyTwo { emptyTwo with prevCode := 7#12, hcode := [(17, 6#12)] } := by
  refine ⟨rfl, rfl, rfl, fun _ => ⟨rfl, rfl, ?_, rfl, rfl, rfl, rfl, ?_, rfl, ?_⟩⟩
  · intro h; cases h
  · intro j h; cases h
  · intro slot h; cases h

theorem witness_RoundTripIsLossless : ∃ s : State, legalDepth 2#4 = true ∧
    (∀ c ∈ [3#8, 0#8], symbolLegal 2#4 c = true) ∧ s.cmd = callWords 2#4 [3#8, 0#8] ++ [] ∧ s.resetPin = [] ∧
    ∀ a ∈ s.answers, a = SinkAnswer.ack :=
  ⟨{ State.reset with cmd := callWords 2#4 [3#8, 0#8] ++ [] }, rfl, by decide, rfl, rfl, by decide⟩

end Sys2Proof.Tests
end

section
/-! SUPPORT. The family 10_state.md: one step taken apart into its three kinds, the registers START leaves, and the
settled statements. -/

namespace Sys2Proof.Machine

/-! ### One step -/

theorem step_of_pin_nil {s : State} (h : s.resetPin = []) : step s = takeCommand s := by
  simp only [step, stepInput, h]

theorem step_of_pin_off {s : State} {r : List ResetDraw} (h : s.resetPin = .off :: r) :
    step s = takeCommand { s with resetPin := r } := by
  simp only [step, stepInput, h]

theorem step_of_pin_between {s : State} {r : List ResetDraw} (h : s.resetPin = .between :: r) :
    step s = .next (resetCore { s with resetPin := r }) := by
  simp only [step, stepInput, h]

theorem step_of_pin_during {s : State} {k : Nat} {r : List ResetDraw} (h : s.resetPin = .during k :: r) :
    step s = cutCommand k { s with resetPin := r } := by
  simp only [step, stepInput, h]

theorem takeCommand_of_cmd_nil {s : State} (h : s.cmd = []) : takeCommand s = .next s := by
  simp only [takeCommand, h]

theorem takeCommand_of_cmd_cons {s : State} {w : CmdWord} {ws : List CmdWord} (h : s.cmd = w :: ws) :
    takeCommand s = exec (decode w) { s with cmd := ws } := by
  simp only [takeCommand, h]

/-- The channels a step may move without running a command to its end: words taken, the `RESET` input used up, bytes
accepted before a cut (rules R36, R39, R170). -/
def afterCut (s : State) (ws : List CmdWord) (r : List ResetDraw) (bs : List Byte) (as : List SinkAnswer) : State :=
  { s with cmd := ws, resetPin := r, sink := s.sink ++ bs, answers := as }

/-- What a step can do, once for all steps: it waits, or it runs the oldest word, or it ends in a reset that keeps what
the sink has accepted (rules R36, R90, R170). -/
def StepKind (s t : State) : Prop :=
  (∃ r, s.cmd = [] ∧ t = { s with resetPin := r }) ∨
  (∃ w ws r, s.cmd = w :: ws ∧ exec (decode w) { s with cmd := ws, resetPin := r } = .next t) ∨
  (∃ ws r bs as, t = resetCore (afterCut s ws r bs as))

theorem takeCommand_kind {s t : State} (h : takeCommand s = .next t) :
    (s.cmd = [] ∧ t = s) ∨ ∃ w ws, s.cmd = w :: ws ∧ exec (decode w) { s with cmd := ws } = .next t := by
  cases hc : s.cmd with
  | nil =>
    rw [takeCommand_of_cmd_nil hc] at h
    exact .inl ⟨rfl, (Host.Outcome.next.inj h).symm⟩
  | cons w ws =>
    rw [takeCommand_of_cmd_cons hc] at h
    exact .inr ⟨w, ws, rfl, h⟩

/-- A command that `RESET` cuts short ends in a reset (rule R170). -/
theorem resetDuring_kind {k : Nat} {i : Instr} {s t : State} (h : resetDuring k i s = .next t) :
    ∃ bs as, t = resetCore (afterCut s s.cmd s.resetPin bs as) := by
  unfold resetDuring at h
  split at h
  · next v hv =>
    obtain ⟨bs, hbs, -⟩ := exec_wrote hv
    refine ⟨bs, s.answers.drop (v.sink.length - s.sink.length), ?_⟩
    rw [← Host.Outcome.next.inj h, hbs]
    rfl
  · refine ⟨[], s.answers, ?_⟩
    rw [← Host.Outcome.next.inj h, afterCut, List.append_nil]
  · cases h

theorem cutCommand_kind {k : Nat} {s t : State} (h : cutCommand k s = .next t) :
    ∃ ws bs as, t = resetCore (afterCut s ws s.resetPin bs as) := by
  unfold cutCommand at h
  split at h
  · refine ⟨s.cmd, [], s.answers, ?_⟩
    rw [← Host.Outcome.next.inj h, afterCut, List.append_nil]
  · next w ws _ =>
    obtain ⟨bs, as, rfl⟩ := resetDuring_kind h
    exact ⟨ws, bs, as, rfl⟩

theorem step_kind {s t : State} (h : step s = .next t) : StepKind s t := by
  have taken : ∀ r, takeCommand { s with resetPin := r } = .next t → StepKind s t := by
    intro r hr
    rcases takeCommand_kind hr with ⟨hc, rfl⟩ | ⟨w, ws, hc, hx⟩
    · exact .inl ⟨r, hc, rfl⟩
    · exact .inr (.inl ⟨w, ws, r, hc, hx⟩)
  cases hp : s.resetPin with
  | nil =>
    rw [step_of_pin_nil hp] at h
    exact taken [] (by rwa [← hp])
  | cons a r =>
    cases a with
    | off =>
      rw [step_of_pin_off hp] at h
      exact taken r h
    | between =>
      rw [step_of_pin_between hp] at h
      refine .inr (.inr ⟨s.cmd, r, [], s.answers, ?_⟩)
      rw [← Host.Outcome.next.inj h, afterCut, List.append_nil]
    | during k =>
      rw [step_of_pin_during hp] at h
      obtain ⟨ws, bs, as, rfl⟩ := cutCommand_kind h
      exact .inr (.inr ⟨ws, r, bs, as, rfl⟩)

/-- The invariant reads neither the words offered nor the `RESET` input. -/
theorem Inv.of_channels {s : State} (h : Inv s) (ws : List CmdWord) (r : List ResetDraw) :
    Inv { s with cmd := ws, resetPin := r } :=
  h.congr id (fun ⟨hb, hw, hf⟩ => ⟨{ hb with }, hw, hf⟩) rfl rfl rfl

theorem step_inv {s t : State} (hI : Inv s) (h : step s = .next t) : Inv t := by
  rcases step_kind h with ⟨r, -, rfl⟩ | ⟨w, ws, r, -, hx⟩ | ⟨ws, r, bs, as, rfl⟩
  · exact hI.of_channels s.cmd r
  · exact exec_inv (hI.of_channels ws r) hx
  · exact resetCore_inv _

theorem step_append {s t : State} (h : step s = .next t) : s.sink <+: t.sink ∧ s.rsp <+: t.rsp := by
  rcases step_kind h with ⟨r, -, rfl⟩ | ⟨w, ws, r, -, hx⟩ | ⟨ws, r, bs, as, rfl⟩
  · exact ⟨List.prefix_refl _, List.prefix_refl _⟩
  · exact exec_append (s := { s with cmd := ws, resetPin := r }) hx
  · exact ⟨List.prefix_append _ _, List.prefix_refl _⟩

/-! ### The responses and `DEPTH` -/

theorem responseWord_mem (e : ErrCode) : responseWord e ∈ [0x1#4, 0x2#4, 0x4#4, 0x6#4] := by
  cases e <;> decide

theorem exec_depth {i : Instr} {s t : State} (hi : ∀ d, i ≠ .start d) (h : exec i s = .next t)
    (hp : t.phase ≠ .failed) : t.depth = s.depth := by
  rcases exec_shape i s with ⟨e, -, hx, -⟩ | ⟨-, -, hx, -⟩ | ⟨c, -, -, -, hx, -⟩ | ⟨F, hR⟩
  · rw [hx] at h; cases h; rfl
  · rw [hx] at h; cases h; rfl
  · rw [hx] at h; cases h
  · rcases hR.next h with ⟨u, hu, rfl⟩ | ⟨u, -, rfl⟩
    · have hframe := hR.ends
      rw [hu] at hframe
      rw [respond_depth, hframe.1.depth]
      cases i with
      | start d => exact absurd rfl (hi d)
      | _ => rfl
    · exact absurd rfl hp

/-! ### What START leaves (rule R43) -/

theorem opened_depth (d : BitVec 4) (s : State) : (opened d s).depth = d := rfl

theorem opened_emitReady {d : BitVec 4} (hd : legalDepth d = true) (s : State) : EmitReady (opened d s) := by
  have hb := initSize_bounds hd
  refine ⟨⟨Nat.zero_le _, Nat.one_pos⟩, Nat.zero_le _, ?_⟩
  show (BitVec.ofNat 4 (initWidth d)).toNat ≤ 12
  rw [BitVec.toNat_ofNat, initWidth]
  omega

theorem opened_codeWidth {d : BitVec 4} (hd : legalDepth d = true) (s : State) :
    (opened d s).codeWidth.toNat = initWidth d := by
  have hb := initSize_bounds hd
  show (BitVec.ofNat 4 (initWidth d)).toNat = _
  rw [BitVec.toNat_ofNat, initWidth]
  omega

theorem opened_nextCode {d : BitVec 4} (hd : legalDepth d = true) (s : State) :
    (opened d s).nextCode.toNat = firstFree d := by
  have hb := clearCode_bounds hd
  show (BitVec.ofNat 13 (firstFree d)).toNat = _
  rw [BitVec.toNat_ofNat, firstFree, eofCode]
  omega

/-- The registers after the opening clear code, whose `INIT_WIDTH` bits are the first of the stream. -/
theorem emitCode_opened_registers {d : BitVec 4} {s u : State} (hd : legalDepth d = true)
    (h : emitCode (clearWord d) (opened d s) = .go u) :
    u.codeWidth.toNat = initWidth d ∧ u.accBits.toNat = initWidth d % 8 ∧ u.blkCount.toNat = initWidth d / 8 := by
  have hb := initSize_bounds hd
  have hw := opened_codeWidth hd s
  have hfit := (controls_fit (s := opened d s) hd hw.ge).1
  rw [opened_depth] at hfit
  obtain ⟨-, -, hbits, hcount, -⟩ := emitCode_spec (opened_emitReady hd s) hfit (clear_ne_eof hd) h
  rw [hw] at hbits hcount
  refine ⟨?_, ?_, ?_⟩
  · rw [emitCode_width h, widthStep_clear (c := clearWord d) (s := opened d s) rfl hd, opened_depth]
  · rw [hbits]
    show (0 + initWidth d) % 8 = _
    rw [Nat.zero_add]
  · rw [hcount]
    show (0 + (0 + initWidth d) / 8) % 254 = _
    rw [initWidth]
    omega

/-- The opening clear code as `ACC` takes it in, with nothing waiting below it. -/
def openingBits (d : BitVec 4) : BitVec 19 := (clearWord d).setWidth 19

theorem pack_opened_acc (d : BitVec 4) (s : State) : (pack (clearWord d) (opened d s)).acc = openingBits d := by
  simp [opened, openingBits]

/-- Fewer than 8 bits wait in `ACC`; 8 or more give up one byte to `BLK_BUF` (rule R127). -/
theorem emitCode_opened_bits {d : BitVec 4} {s u : State} (hd : legalDepth d = true)
    (h : emitCode (clearWord d) (opened d s) = .go u) :
    u.acc = (if initWidth d < 8 then openingBits d else openingBits d >>> 8) ∧
      u.blkBuf = (if initWidth d < 8 then s.blkBuf
        else Memory.write s.blkBuf 0 ((openingBits d).extractLsb' 0 8)) ∧
      u.sink = s.sink ++ [BitVec.ofNat 8 (initSize d)] ∧ u.answers = s.answers.drop 1 := by
  rw [emitCode_opened hd, pack_opened_acc] at h
  obtain rfl := Flow.go.inj h
  rw [widthStep_acc, widthStep_blkBuf, widthStep_sink, widthStep_answers]
  split
  · exact ⟨pack_opened_acc d s, rfl, rfl, rfl⟩
  · refine ⟨?_, rfl, rfl, rfl⟩
    rw [dropByte_acc, storeByte_acc, pack_opened_acc]

/-- `ACC` after START holds the bits of `CLEAR_CODE` above those that have left, by the legal depths. -/
theorem openingBits_left {d : BitVec 4} (hd : legalDepth d = true) :
    (if initWidth d < 8 then openingBits d else openingBits d >>> 8).toNat =
      2 ^ initSize d / 2 ^ (initWidth d - initWidth d % 8) := by
  revert d
  decide

/-- START of a legal depth before a sink that takes the initial-code-size byte runs to its end. -/
theorem execStart_next {d : BitVec 4} {s : State} (hd : legalDepth d = true) (ha : sinkAccepts 1 s) :
    ∃ u, emitCode (clearWord d) (opened d s) = .go u ∧ exec (.start d) s = .next (respond .eNone u) := by
  refine ⟨_, emitCode_opened hd, ?_⟩
  rw [execStart_eq hd ha, emitCode_opened hd]
  rfl

end Sys2Proof.Machine

namespace Sys2Proof.Proofs

open Sys2Proof Sys2Proof.Machine

/-- Settles O51: a step waits, runs a command, or resets, and each of the three keeps rule R41's invariant. -/
theorem stepKeepsInvariant : Obligations.StepKeepsInvariant :=
  fun _ _ hI h => step_inv hI h

/-- Settles O16: the frame of code output gives the items START sets up before the opening clear code, and the packer's
part follows from the number of bits that code has. -/
theorem startOpensCall : Obligations.StartOpensCall := by
  intro d s h1 h8 ha
  have hd : legalDepth d = true := by simp [legalDepth, h1, h8]
  obtain ⟨u, hu, hx⟩ := execStart_next hd ha
  have hF := emitCode_next hu
  obtain ⟨hwidth, hbits, hcount⟩ := emitCode_opened_registers hd hu
  obtain ⟨hacc, hbuf, hsink, hans⟩ := emitCode_opened_bits hd hu
  have hnext : u.nextCode.toNat = firstFree d := by rw [hF.nextCode, opened_nextCode hd]
  have hbyte : ¬ initWidth d < 8 → blkByte u 0 = (openingBits d).extractLsb' 0 8 := by
    intro hlong
    rw [blkByte, hbuf, if_neg hlong, Memory.read_write_same, Option.getD_some]
  refine ⟨respond .eNone u, hx, hF.phase, hF.lastErr, hF.depth, hwidth, hnext, hbits, ?_, ?_, ?_, ?_, ?_,
    hF.prevCode, hF.hcode, ?_, hsink, ?_, hans, hF.cmd, hF.resetPin⟩
  · show u.acc.toNat = 2 ^ initSize d / 2 ^ (initWidth d - u.accBits.toNat)
    rw [hacc, hbits]
    exact openingBits_left hd
  · rw [respond_blkCount, hcount, initWidth, initSize, Config.minSize]
    split <;> omega
  · rintro rfl
    exact (hbyte (by decide)).trans (by decide)
  · rintro rfl
    exact (hbyte (by decide)).trans (by decide)
  · intro slot
    rw [respond_hkey, hF.hkey]
    rfl
  · intro j hj
    rw [respond_blkBuf, hbuf]
    split
    · rfl
    · next hlong =>
      rw [initWidth, initSize, Config.minSize] at hlong
      exact Memory.read_write_other _ _ (by omega)
  · rw [respond_rsp, hF.rsp]
    rfl

/-- Settles O29: the response is the word of some error code. -/
theorem oneResponsePerCommand : Obligations.OneResponsePerCommand := by
  intro i s t h
  obtain ⟨e, hrsp, -⟩ := exec_rsp h
  exact ⟨responseWord e, responseWord_mem e, hrsp⟩

/-- Settles O30: the one response tells which of the two clauses of `exec_rsp` the command ended by. -/
theorem lastErrIsSticky : Obligations.LastErrIsSticky := by
  intro i s t h
  obtain ⟨e, hrsp, hfail, hok⟩ := exec_rsp h
  have same : ∀ e', t.rsp = s.rsp ++ [responseWord e'] → e = e' := by
    intro e' h'
    rw [hrsp] at h'
    exact responseWord_inj (by simpa using h')
  refine ⟨fun h1 => hok (same .eNone h1), fun e' he' h' => ?_⟩
  obtain rfl := same e' h'
  exact hfail he'

/-- Settles O32: of the three kinds of step none shortens a channel. -/
theorem outputIsAppendOnly : Obligations.OutputIsAppendOnly :=
  fun _ _ h => step_append h

/-- Settles O33, by the frame of a command that runs. -/
theorem depthConstantInCall : Obligations.DepthConstantInCall :=
  fun _ _ _ hi h hp => exec_depth hi h hp

/-- Settles O52: the registers START writes are the same in both, so the two runs are alike. -/
theorem startErasesHistory : Obligations.StartErasesHistory :=
  fun d s u hd ha => (start_runs hd s).sameEffect (start_runs hd u) (.inr ⟨d, rfl⟩) (start_alike ha)

/-- Settles O5: in both forms `RESET` is not asserted, and the oldest word is taken. -/
theorem stepRunsDecodedCommand : Obligations.StepRunsDecodedCommand := by
  intro s w ws hc
  exact ⟨fun hp => (step_of_pin_nil hp).trans (takeCommand_of_cmd_cons hc),
    fun r hp => (step_of_pin_off hp).trans (takeCommand_of_cmd_cons (s := { s with resetPin := r }) hc)⟩

/-- Settles O6: in both forms `RESET` is not asserted, and there is no word to take. -/
theorem stepWaitsForAWord : Obligations.StepWaitsForAWord := by
  intro s hc
  exact ⟨fun hp => (step_of_pin_nil hp).trans (takeCommand_of_cmd_nil hc),
    fun r hp => (step_of_pin_off hp).trans (takeCommand_of_cmd_nil (s := { s with resetPin := r }) hc)⟩

/-- Settles O8, by evaluating `State.reset`. -/
theorem resetState : Obligations.ResetState := ⟨rfl, rfl, rfl, rfl, rfl, rfl⟩

/-- Settles O34: `STATUS` is the two encodings side by side. -/
theorem statusShowsPhaseAndError : Obligations.StatusShowsPhaseAndError := by
  intro s
  refine ⟨?_, ?_⟩
  · exact BitVec.extractLsb'_append_eq_right
  · exact BitVec.extractLsb'_append_eq_left

/-- Settles O49: no call is open in `State.reset`, and its empty tables are canonical. -/
theorem resetMeetsInvariant : Obligations.ResetMeetsInvariant := by
  refine ⟨rfl, ?_⟩
  rintro (h | h) <;> cases h

end Sys2Proof.Proofs
end

section
/-! SUPPORT. The family 20_memory.md: what a search that never ends would have to meet, how a run before any sink
compares with the run before one that accepts everything, and the settled statements. -/

namespace Sys2Proof.Machine

/-! ### Searches (rule R118) -/

/-- A search goes round for ever only where no slot is empty: its looks cover all 5003 slots. -/
theorem lookup_endless {m : Memory 20} {p : Code} {b : BitVec 8} (h : lookup m p b = .endless) {x : Nat}
    (hx : x < 5003) : Memory.read m x ≠ none := by
  have hi := hashIndex_lt p b
  obtain ⟨h1, h2⟩ := probeStep_bounds hi
  obtain ⟨n, hn, rfl⟩ := walk_covers (i := hashIndex p b) (by omega) h1 h2 hx
  exact probe_endless h hn

/-! ### A run and the run before a sink that accepts everything (rule R140) -/

/-- A run ends where the calm run does, or fails with at least one of the calm run's bytes unwritten, or hangs. -/
theorem Follows.cases {s p : State} {run : Flow} (h : Follows s (.go p) run) :
    (∃ as, run = .go { p with answers := as }) ∨
    (∃ v b bs, run = .sinkFail v ∧ p.sink = v.sink ++ b :: bs) ∨
    run = .stuck .sinkNeverAnswers := by
  obtain ⟨B, hp, -, hgo, hfail, hstuck⟩ := h
  rcases first_refusal B.length s with ha | ⟨n, hn, ha, hr | hr⟩
  · exact .inl ⟨_, hgo ha⟩
  · obtain ⟨v, hv, hs, -⟩ := hfail n hn ha hr
    refine .inr (.inl ⟨v, B[n], B.drop (n + 1), hv, ?_⟩)
    rw [hp, hs, List.append_assoc, List.cons_getElem_drop_succ, List.take_append_drop]
  · exact .inr (.inr (hstuck n hn ha hr))

/-- A command answered before a sink that accepts everything has run to its end. -/
theorem RunsAs.calm_next {i : Instr} {s u : State} {F : State → Flow} (h : RunsAs i s F)
    (hu : Machine.exec i (Machine.calm s) = .next u) :
    ∃ p, F (Machine.calm s) = .go p ∧ u = respond .eNone p ∧ p.rsp = s.rsp := by
  have hfollows := h.follows
  have hends := h.calmEnds
  rw [h.calm] at hu
  cases hF : F (Machine.calm s) with
  | go p =>
    rw [hF] at hu hends
    exact ⟨p, rfl, (Host.Outcome.next.inj hu).symm, hends.1.rsp⟩
  | sinkFail p => rw [hF] at hfollows; exact hfollows.elim
  | stuck r => rw [hF] at hu; cases hu

/-- Two answers to one command, `t` before any sink and `u` before a sink that accepts everything: the same bytes and
the same response, or fewer bytes, another response and `FAILED`. -/
def CutShort (t u : State) : Prop :=
  (t.sink = u.sink ∧ t.rsp = u.rsp) ∨
  ((∃ b bs, u.sink = t.sink ++ b :: bs) ∧ t.rsp ≠ u.rsp ∧ t.phase = .failed)

theorem RunsAs.cutShort {i : Instr} {s t u : State} {F : State → Flow} (h : RunsAs i s F)
    (ht : Machine.exec i s = .next t) (hu : Machine.exec i (Machine.calm s) = .next u) : CutShort t u := by
  obtain ⟨p, hp, rfl, hprsp⟩ := h.calm_next hu
  have hfollows := h.follows
  have hends := h.ends
  rw [hp] at hfollows
  rw [h.exec] at ht
  rcases hfollows.cases with ⟨as, hrun⟩ | ⟨v, b, bs, hrun, hbytes⟩ | hrun
  · rw [hrun] at ht
    obtain rfl := Host.Outcome.next.inj ht
    exact .inl ⟨rfl, rfl⟩
  · rw [hrun] at ht hends
    obtain rfl := Host.Outcome.next.inj ht
    refine .inr ⟨⟨b, bs, hbytes⟩, ?_, rfl⟩
    rw [takeSinkFail_rsp, respond_rsp, hends.1.rsp, hprsp]
    intro hrsp
    cases responseWord_inj (List.singleton_inj.mp (List.append_cancel_left hrsp))
  · rw [hrun] at ht
    cases ht

theorem exec_cutShort {i : Instr} {s t u : State} (ht : exec i s = .next t) (hu : exec i (calm s) = .next u) :
    CutShort t u := by
  rcases exec_shape i s with ⟨e, -, h1, h2⟩ | ⟨-, -, h1, h2⟩ | ⟨c, -, -, -, h1, -⟩ | ⟨F, hR⟩
  · obtain rfl := Host.Outcome.next.inj (h1.symm.trans ht)
    obtain rfl := Host.Outcome.next.inj (h2.symm.trans hu)
    exact .inl ⟨rfl, rfl⟩
  · obtain rfl := Host.Outcome.next.inj (h1.symm.trans ht)
    obtain rfl := Host.Outcome.next.inj (h2.symm.trans hu)
    exact .inl ⟨rfl, rfl⟩
  · rw [h1] at ht; cases ht
  · exact hR.cutShort ht hu

/-! ### Steps -/

theorem step_offerWord (w : CmdWord) (s : State) : step (offerWord w s) = exec (decode w) s :=
  (step_of_pin_off (offerWord_resetPin s w)).trans
    (takeCommand_of_cmd_cons (s := { offerWord w s with resetPin := s.resetPin }) rfl)

theorem step_wf {s t : State} (hw : memoryWf s = true) (h : step s = .next t) : memoryWf t = true := by
  rcases step_kind h with ⟨r, -, rfl⟩ | ⟨w, ws, r, -, hx⟩ | ⟨ws, r, bs, as, rfl⟩
  · exact hw
  · exact exec_wf (s := { s with cmd := ws, resetPin := r }) hw hx
  · exact forgetWorking_wf _

end Sys2Proof.Machine

namespace Sys2Proof.Proofs

open Sys2Proof Sys2Proof.Machine

/-- Settles O27: in both of `CutShort`'s cases the calm run's bytes begin with the other run's, and the responses tell
the cases apart. -/
theorem sinkAnswersOnlyCutShort : Obligations.SinkAnswersOnlyCutShort := by
  intro i s t u ht hu
  rcases exec_cutShort ht hu with ⟨hsink, hrsp⟩ | ⟨⟨b, bs, hsink⟩, hrsp, hphase⟩
  · exact ⟨hsink ▸ List.prefix_refl _, fun _ => hsink, fun hne => absurd hrsp hne⟩
  · refine ⟨⟨b :: bs, hsink.symm⟩, fun heq => absurd heq hrsp, fun _ => ⟨fun heq => ?_, hphase⟩⟩
    rw [hsink] at heq
    simp at heq

/-- Settles O38: an endless search would have met the empty slot, since 5003 is prime (`walk_covers`). -/
theorem lookupEnds : Obligations.LookupEnds := by
  intro m p b hw hlen
  cases hl : lookup m p b with
  | hit slot => exact ⟨slot, Memory.read_lt hw (lookup_hit hl), .inl rfl⟩
  | miss slot => exact ⟨slot, (lookup_miss hl).2, .inr rfl⟩
  | endless =>
    obtain ⟨x, -, hx, hnone⟩ := Memory.exists_unlisted hw (by omega)
    exact absurd hnone (lookup_endless hl hx)

/-- Settles O42: the code's bits follow the waiting ones, and what stays in `ACC` is the remainder of whole bytes. -/
theorem emitCodePacksLsbFirst : Obligations.EmitCodePacksLsbFirst := by
  intro c s t hs hfit hne hg
  obtain ⟨hE, -, -⟩ := packerReady_iff hs
  obtain ⟨-, ⟨hcount, hacc⟩, hbits, -⟩ := emitCode_spec hE hfit hne hg
  exact ⟨emitCode_packed hE hfit hne hg, by omega, hacc, hcount⟩

/-- Settles O50: a step waits, runs a command, or resets, and each of the three keeps the tables canonical. -/
theorem stepKeepsTablesCanonical : Obligations.StepKeepsTablesCanonical :=
  fun _ _ hw h => step_wf hw h

/-- Settles O7: the host's form of the word is the word itself, and the next step takes it off `CMD` again. -/
theorem fetchWordRunsNext : Obligations.FetchWordRunsNext := by
  intro s w
  have hword : BitVec.ofNat 10 (w.toNat % 2 ^ 16) = w := by
    apply BitVec.eq_of_toNat_eq
    rw [BitVec.toNat_ofNat]
    omega
  rw [State.withFetchWord, hword]
  exact step_offerWord w s

end Sys2Proof.Proofs
end

section
/-! SUPPORT. The family 30_encoding.md: the fields of a command word and its row, the sub-blocks and the code stream read
back, a whole call before a sink that accepts everything, and the settled statements. -/

namespace Sys2Proof

/-! ### The fields of a command word (rules R70 to R75) -/

theorem opField_append (op : BitVec 2) (arg : BitVec 8) : opField (op ++ arg) = op :=
  BitVec.extractLsb'_append_eq_left

theorem argField_append (op : BitVec 2) (arg : BitVec 8) : argField (op ++ arg) = arg :=
  BitVec.extractLsb'_append_eq_right

theorem opField_append_argField (w : CmdWord) : opField w ++ argField w = w := by
  rw [opField, argField, BitVec.extractLsb'_append_extractLsb'_eq_extractLsb' (by decide)]
  exact BitVec.extractLsb'_eq_self

/-- The words by their `OP`, as the decoder takes them apart. -/
theorem cmdWord_cases {P : CmdWord → Prop} (put : ∀ arg : BitVec 8, P (0#2 ++ arg))
    (start : ∀ arg : BitVec 8, P (1#2 ++ arg)) (finish : ∀ arg : BitVec 8, P (2#2 ++ arg))
    (op3 : ∀ arg : BitVec 8, P (3#2 ++ arg)) (w : CmdWord) : P w := by
  have hop : ∀ op : BitVec 2, op = 0#2 ∨ op = 1#2 ∨ op = 2#2 ∨ op = 3#2 := by decide
  rw [← opField_append_argField w]
  rcases hop (opField w) with h | h | h | h <;> rw [h]
  · exact put _
  · exact start _
  · exact finish _
  · exact op3 _

theorem decode_op0 (arg : BitVec 8) : decode (0#2 ++ arg) = .put arg := by
  rw [decode, opField_append, argField_append]; rfl

theorem decode_op1 (arg : BitVec 8) : decode (1#2 ++ arg) = decodeStart arg := by
  rw [decode, opField_append, argField_append]; rfl

theorem decode_op2 (arg : BitVec 8) : decode (2#2 ++ arg) = decodeFinish arg := by
  rw [decode, opField_append, argField_append]; rfl

theorem decode_op3 (arg : BitVec 8) : decode (3#2 ++ arg) = .rsvdOp3 arg := by
  rw [decode, opField_append, argField_append]; rfl

theorem encode_decodeStart :
    ∀ arg : BitVec 8, (decodeStart arg).wellFormed = true ∧ encode (decodeStart arg) = 1#2 ++ arg := by decide

theorem encode_decodeFinish :
    ∀ arg : BitVec 8, (decodeFinish arg).wellFormed = true ∧ encode (decodeFinish arg) = 2#2 ++ arg := by decide

/-- Only `PUT` and `RSVD_OP3` leave 8 bits open; the other rows are checked word by word. -/
theorem decode_encode {i : Instr} (h : i.wellFormed = true) : decode (encode i) = i := by
  revert h
  cases i with
  | put s => exact fun _ => decode_op0 s
  | start d => revert d; decide
  | finish => decide
  | rsvdOp3 a => exact fun _ => decode_op3 a
  | rsvdStartD0 => decide
  | rsvdStartD9 => decide
  | rsvdStartD10to11 x => revert x; decide
  | rsvdStartD12to15 x => revert x; decide
  | rsvdStartHi1 x => revert x; decide
  | rsvdStartHi2 x => revert x; decide
  | rsvdStartHi3 x => revert x; decide
  | rsvdStartHi4 x => revert x; decide
  | rsvdFinishArg1 => decide
  | rsvdFinishArg2 x => revert x; decide
  | rsvdFinishArg3 x => revert x; decide
  | rsvdFinishArg4 x => revert x; decide
  | rsvdFinishArg5 x => revert x; decide
  | rsvdFinishArg6 x => revert x; decide
  | rsvdFinishArg7 x => revert x; decide
  | rsvdFinishArg8 x => revert x; decide

/-! ### The rows a word matches (rule R87) -/

theorem rowsOf_op0 : ∀ arg : BitVec 8, rowsOf (0#2 ++ arg) = [0] := by decide

theorem rowsOf_op2 : ∀ arg : BitVec 8, rowsOf (2#2 ++ arg) = [(decodeFinish arg).row] := by decide

theorem rowsOf_op3 : ∀ arg : BitVec 8, rowsOf (3#2 ++ arg) = [3] := by decide

/-- The eight words that match START's row and a reserved row. -/
abbrev sharedWords : List CmdWord := [0x100#10, 0x109#10, 0x10A#10, 0x10B#10, 0x10C#10, 0x10D#10, 0x10E#10, 0x10F#10]

/-- They have `OP = 0b01`. -/
theorem not_mem_sharedWords {op : BitVec 2} (h : op ≠ 1#2) (arg : BitVec 8) : op ++ arg ∉ sharedWords := by
  have hop : ∀ w ∈ sharedWords, opField w = 1#2 := by decide
  intro hmem
  exact h ((opField_append op arg).symm.trans (hop _ hmem))

theorem rowsOf_op1 : ∀ arg : BitVec 8,
    (1#2 ++ arg ∈ sharedWords ∧ (decodeStart arg).isReserved = true ∧
      rowsOf (1#2 ++ arg) = [1, (decodeStart arg).row]) ∨
    (1#2 ++ arg ∉ sharedWords ∧ rowsOf (1#2 ++ arg) = [(decodeStart arg).row]) := by decide

end Sys2Proof

namespace Sys2Proof.Machine

/-! ### Sub-blocks read back (rules R79, R84, R145) -/

theorem frame_succ (n : Nat) {data : List Byte} (h : data ≠ []) :
    frame (n + 1) data =
      BitVec.ofNat 8 (data.take 254).length :: (data.take 254 ++ frame n (data.drop 254)) := by
  cases data with
  | nil => exact absurd rfl h
  | cons b l => rfl

/-- A length byte holds the number of data bytes of its sub-block. -/
theorem blockLength_toNat {blk : List Byte} (h : blk.length ≤ 254) :
    (BitVec.ofNat 8 blk.length).toNat = blk.length := by
  rw [BitVec.toNat_ofNat]
  omega

/-- One sub-block read back. -/
theorem unframe_block {n : Nat} {blk l data rest : List Byte} (h1 : 1 ≤ blk.length) (h2 : blk.length ≤ 254)
    (h : unframe n l = some (data, rest)) :
    unframe (n + 1) (BitVec.ofNat 8 blk.length :: (blk ++ l)) = some (blk ++ data, rest) := by
  have hlen := blockLength_toNat h2
  have hne : BitVec.ofNat 8 blk.length ≠ 0#8 := by
    intro h0
    rw [h0] at hlen
    exact absurd hlen (by simp; omega)
  rw [unframe, if_neg hne, if_neg (by rw [hlen, List.length_append]; omega), hlen, List.drop_left, List.take_left, h]

theorem unframe_frame {m n : Nat} {data : List Byte} (rest : List Byte) (hm : data.length ≤ m) (hn : data.length < n) :
    unframe n (frame m data ++ 0x00#8 :: rest) = some (data, rest) := by
  induction m generalizing n data with
  | zero =>
    obtain rfl := List.length_eq_zero_iff.mp (Nat.le_zero.mp hm)
    cases n with
    | zero => cases hn
    | succ n => rfl
  | succ m ih =>
    cases n with
    | zero => cases hn
    | succ n =>
      by_cases h0 : data = []
      · subst h0; rfl
      · have hpos := List.length_pos_iff.mpr h0
        have hrec := ih (n := n) (data := data.drop 254) (by rw [List.length_drop]; omega)
          (by rw [List.length_drop]; omega)
        have hblk := unframe_block (blk := data.take 254) (by rw [List.length_take]; omega)
          (List.length_take_le _ _) hrec
        rw [frame_succ m h0, List.cons_append, List.append_assoc, hblk, List.take_append_drop]

theorem length_le_frame {m : Nat} {data : List Byte} (hm : data.length ≤ m) : data.length ≤ (frame m data).length := by
  induction m generalizing data with
  | zero => omega
  | succ m ih =>
    by_cases h0 : data = []
    · simp [h0]
    · have hrec := ih (data := data.drop 254) (by rw [List.length_drop]; omega)
      have hsplit := congrArg List.length (List.take_append_drop 254 data)
      rw [List.length_append] at hsplit
      rw [frame_succ m h0, List.length_cons, List.length_append]
      omega

/-! ### The code stream read back (95_test_vectors.md section 1) -/

/-- A stream decodes to what a reader of its codes has put out at the end code. -/
theorem decodeStream_of_reads {n : Nat} {r : Reader} {c : Code} {data : List Byte} {bits pad : List Bool}
    (hn : n < 256) (h : Reads n (freshReader n []) bits r) (hw : c.toNat < 2 ^ r.width) (hc : c.toNat = 2 ^ n + 1)
    (hp : pad.length < 8) (hb : bytesBits data = bits ++ (lowBits c r.width ++ pad)) :
    decodeStream (BitVec.ofNat 8 n :: (subBlocks data ++ [0x00#8])) = some r.out := by
  have hnv : (BitVec.ofNat 8 n).toNat = n := by rw [BitVec.toNat_ofNat]; omega
  have hframe : unframe ((subBlocks data ++ [0x00#8]).length + 1) (subBlocks data ++ [0x00#8]) = some (data, []) := by
    have hlen : data.length ≤ (subBlocks data).length := length_le_frame (Nat.le_refl _)
    exact unframe_frame [] (Nat.le_refl _) (by rw [List.length_append]; omega)
  have hcodes := readCodes_end (m := (bytesBits data).length + 1) (pad := pad) h hw hc
    (by rw [hb, List.length_append]; omega)
  rw [← hb] at hcodes
  rw [decodeStream, hframe, hnv]
  simp only [hcodes, if_pos hp]

/-- FINISH emits the pending code, if there is one, and then the end code: the reader reads the first and has put out
every symbol, and the second is a code of its width. -/
theorem Coupled.finish {s t : State} {r : Reader} {T : List (List Byte)} {syms : List Byte} (h : Coupled s r T syms)
    (hB : BetweenCommands s) (ho : callOpen s) {F : State → Flow}
    (hF : ∀ s', F s' = if s.phase = .active then (emitCode s'.prevCode s').andThen closeStream else closeStream s')
    (hg : F s = .go t) :
    ∃ codes r1, Reads (initSize s.depth) r codes r1 ∧ r1.out = syms ∧ (eofWord s.depth).toNat < 2 ^ r1.width ∧
      (if s.phase = .active then lowBits s.prevCode s.codeWidth.toNat ++ lowBits (eofWord s.depth) (grownWidth s)
        else lowBits (eofWord s.depth) s.codeWidth.toNat) = codes ++ lowBits (eofWord s.depth) r1.width := by
  have hfit := (controls_fit hB.depth_legal hB.width_low).2
  rcases ho with hp | hp
  · obtain ⟨-, -, -, hsyms⟩ := h.fresh hp
    refine ⟨[], r, Reads.refl _ r, hsyms, by rw [h.width]; exact hfit, ?_⟩
    rw [if_neg (by rw [hp]; decide), h.width, List.nil_append]
  · rw [hF, if_pos hp] at hg
    obtain ⟨s1, h1, -⟩ := Flow.andThen_go.mp hg
    obtain ⟨-, r1, -, -, hR, hw, -, -, hsyms⟩ := h.emit hB hp h1
    have hgrown : r1.width = grownWidth s := by
      rw [hw, emitCode_width h1, widthStep_grown (hB.prev_code hp).2.1]
    have hle : s.codeWidth.toNat ≤ grownWidth s := by
      rw [grownWidth]
      split <;> omega
    refine ⟨_, r1, hR, hsyms, ?_, by rw [if_pos hp, hgrown]⟩
    rw [hgrown]
    exact Nat.lt_of_lt_of_le hfit (Nat.pow_le_pow_right (by omega) hle)

/-- FINISH completes a stream that decodes to the symbols of the call. -/
theorem Tracks.finish {s0 s t : State} {d : BitVec 4} {syms : List Byte} (h : Tracks s0 d syms s) (ho : callOpen s)
    {F : State → Flow} (hF : ∀ s', F s' = if s.phase = .active then (emitCode s'.prevCode s').andThen closeStream
      else closeStream s') (hg : F s = .go t) :
    ∃ out, t.sink = s0.sink ++ out ∧ decodeStream out = some syms := by
  obtain ⟨⟨hB, -, -⟩, -, rfl, bits, r, T, ⟨blocks, hlen, hsink, hbits⟩, hR, hC⟩ := h
  have hi := initSize_bounds hB.depth_legal
  obtain ⟨codes, r1, hR1, rfl, hfit, hcodes⟩ := hC.finish hB ho hF hg
  obtain ⟨-, -, -, -, -, -, -, -, data, pad, hout, hpad, -, -, -, -, hdata⟩ :=
    finish_spec hB.packerReady hB.prevReady hF hg
  refine ⟨BitVec.ofNat 8 (initSize s.depth) :: (subBlocks (blocks.flatten ++ data) ++ [0x00#8]), ?_, ?_⟩
  · rw [hout, hsink, subBlocks_blocks hlen]
    simp only [List.append_assoc, List.cons_append]
  · refine decodeStream_of_reads (pad := List.replicate pad false) (by omega) (hR.trans hR1) hfit
      (eofWord_toNat hB.depth_legal) (by rwa [List.length_replicate]) ?_
    rw [bytesBits_append, hdata, hcodes, ← hbits]
    simp only [List.append_assoc]

/-- PUT of a legal symbol, in either open phase, as one run. -/
theorem Tracks.put {s0 s : State} {d : BitVec 4} {c : BitVec 8} {syms : List Byte} (h : Tracks s0 d syms s)
    (ho : callOpen s) (hc : symbolLegal d c = true) :
    ∃ F p, RunsAs (.put c) s F ∧ F (calm s) = .go p ∧ ∀ u, F s = .go u → Tracks s0 d (syms ++ [c]) u := by
  obtain ⟨hB, -, -⟩ := h.inv
  have hlegal : symbolLegal s.depth c = true := by rw [h.depth]; exact hc
  rcases ho with hp | hp
  · refine ⟨_, _, put_empty_runs hp hlegal, rfl, fun u hu => ?_⟩
    obtain rfl := Flow.go.inj hu
    exact tracks_first h hp hc
  · obtain ⟨p, hcalm⟩ := nextSymbol_calm hB.blk_count (lookup_not_endless hB h.wf s.prevCode c)
    exact ⟨_, p, put_active_runs hp hlegal, hcalm, fun u hu => tracks_next h hp hc hu⟩

/-! ### A whole call before a sink that accepts everything (rules R86, R173, R181) -/

/-- The channels since `s0`, after `n` commands that all ran to their end: `ws` are the words still offered, and the sink
goes on accepting. -/
structure Undisturbed (s0 : State) (n : Nat) (ws : List CmdWord) (s : State) : Prop where
  cmd : s.cmd = ws
  resetPin : s.resetPin = []
  answers : ∀ a ∈ s.answers, a = SinkAnswer.ack
  rsp : s.rsp = s0.rsp ++ List.replicate n 0x1#4

/-- The next command of the host runs to its end. -/
theorem Undisturbed.step {s0 s p : State} {n : Nat} {i : Instr} {ws : List CmdWord} {F : State → Flow}
    (h : Undisturbed s0 n (encode i :: ws) s) (hi : i.wellFormed = true) (hR : RunsAs i { s with cmd := ws } F)
    (hp : F (calm { s with cmd := ws }) = .go p) :
    ∃ u, F { s with cmd := ws } = .go u ∧ Machine.step s = .next (respond .eNone u) ∧
      Undisturbed s0 (n + 1) ws (respond .eNone u) := by
  obtain ⟨u, hu, hx, hcmd, hpin, hrsp, hans⟩ := hR.acked hp h.answers
  refine ⟨u, hu, ?_, hcmd, hpin.trans h.resetPin, hans, ?_⟩
  · rw [step_of_pin_nil h.resetPin, takeCommand_of_cmd_cons h.cmd, decode_encode hi, hx]
  · rw [respond_rsp, hrsp, List.replicate_succ', ← List.append_assoc]
    exact congrArg (· ++ [0x1#4]) h.rsp

/-- In a call of depth `d` opened in `s0`, with `syms` taken and `ws` still offered. -/
structure Calling (s0 : State) (d : BitVec 4) (syms : List Byte) (ws : List CmdWord) (s : State) : Prop where
  tracks : Tracks s0 d syms s
  callOpen : callOpen s
  channels : Undisturbed s0 (syms.length + 1) ws s

/-- `Tracks` reads nothing of the state before the call but its sink, so START's word need not be taken off there. -/
theorem calling_start {s : State} {d : BitVec 4} {ws : List CmdWord} (hd : legalDepth d = true)
    (h : Undisturbed s 0 (encode (.start d) :: ws) s) : ∃ t, Machine.step s = .next t ∧ Calling s d [] ws t := by
  have hcalm : (sinkWrite (BitVec.ofNat 8 (initSize d)) (openCall d (calm { s with cmd := ws }))).andThen
      (emitCode (clearWord d)) = .go _ := emitCode_opened (s := calm { s with cmd := ws }) hd
  obtain ⟨u, hu, hstep, hch⟩ := h.step hd (start_runs hd _) hcalm
  have hphase := (start_runs hd _).phase u hu
  obtain ⟨hI, hw, hdep, hstream⟩ := (tracks_start hd hu).respond .eNone
  exact ⟨_, hstep, ⟨hI, hw, hdep, hstream⟩, .inl hphase, hch⟩

theorem Calling.put {s0 s : State} {d : BitVec 4} {c : BitVec 8} {syms : List Byte} {ws : List CmdWord}
    (h : Calling s0 d syms (encode (.put c) :: ws) s) (hc : symbolLegal d c = true) :
    ∃ t, Machine.step s = .next t ∧ Calling s0 d (syms ++ [c]) ws t := by
  obtain ⟨hT, ho, hch⟩ := h
  obtain ⟨F, p, hR, hcalm, hnext⟩ := (hT.cmd ws).put ho hc
  obtain ⟨u, hu, hstep, hch'⟩ := hch.step rfl hR hcalm
  exact ⟨_, hstep, (hnext u hu).respond .eNone, .inr (hR.phase u hu), by rw [List.length_append]; exact hch'⟩

/-- What a call opened in `s0` leaves: the stream of its symbols, one `0x1` per command, `IDLE`. -/
structure Called (s0 : State) (syms : List Byte) (ws : List CmdWord) (t : State) : Prop where
  stream : ∃ out, t.sink = s0.sink ++ out ∧ decodeStream out = some syms
  phase : t.phase = .idle
  channels : Undisturbed s0 (syms.length + 2) ws t

theorem Calling.finish {s0 s : State} {d : BitVec 4} {syms : List Byte} {ws : List CmdWord}
    (h : Calling s0 d syms (encode .finish :: ws) s) : ∃ t, Machine.step s = .next t ∧ Called s0 syms ws t := by
  obtain ⟨hT, ho, hch⟩ := h
  have hT' := hT.cmd ws
  obtain ⟨hB, -, -⟩ := hT'.inv
  obtain ⟨F, hR, hF, hcalm⟩ := finish_runs (s := { s with cmd := ws }) ho
  obtain ⟨p, hp⟩ := hcalm hB.blk_count
  obtain ⟨u, hu, hstep, hch'⟩ := hch.step rfl hR hp
  obtain ⟨out, hsink, hdec⟩ := hT'.finish ho hF hu
  exact ⟨_, hstep, ⟨out, hsink, hdec⟩, hR.phase u hu, hch'⟩

/-- One step of a run, by `step`. -/
theorem core_run_succ {k : Nat} {s t : State} (h : Machine.step s = .next t) :
    Host.Core.run core (k + 1) s = Host.Core.run core k t := by
  have hcore : core.step s = .next t := h
  simp only [Host.Core.run, hcore]

/-- The rest of a call: the PUTs still offered, then FINISH. -/
theorem Calling.run {s0 s : State} {d : BitVec 4} {syms more : List Byte} {ws : List CmdWord}
    (h : Calling s0 d syms (putWords more ++ encode .finish :: ws) s) (hc : ∀ c ∈ more, symbolLegal d c = true) :
    ∃ t, Host.Core.run core (more.length + 1) s = .next t ∧ Called s0 (syms ++ more) ws t := by
  induction more generalizing s syms with
  | nil =>
    obtain ⟨t, hstep, hend⟩ := h.finish
    exact ⟨t, core_run_succ hstep, by rwa [List.append_nil]⟩
  | cons c more ih =>
    obtain ⟨u, hstep, hu⟩ := h.put (hc c (by simp))
    obtain ⟨t, hrun, hend⟩ := ih hu fun x hx => hc x (by simp [hx])
    exact ⟨t, (core_run_succ hstep).trans hrun, by simpa using hend⟩

end Sys2Proof.Machine

namespace Sys2Proof.Proofs

open Sys2Proof Sys2Proof.Machine

/-- Settles O54: a reader of the stream keeps step with the block from START on (`Tracks`), through each PUT, and FINISH
completes the stream for it. -/
theorem roundTripIsLossless : Obligations.RoundTripIsLossless := by
  intro d syms s rest hd hc hcmd hpin hans
  have hch : Undisturbed s 0 (encode (.start d) :: (putWords syms ++ encode .finish :: rest)) s :=
    ⟨by rw [hcmd, callWords]; simp, hpin, hans, by simp⟩
  obtain ⟨u, hstep, hu⟩ := calling_start hd hch
  obtain ⟨t, hrun, ⟨out, hsink, hdec⟩, hphase, hend⟩ := hu.run hc
  exact ⟨t, out, (core_run_succ hstep).trans hrun, hsink, hdec, hend.rsp, hphase, hend.cmd⟩

/-- Settles O1, row by row. -/
theorem decodeOfEncode : Obligations.DecodeOfEncode := fun _ h => decode_encode h

/-- Settles O48, by induction on the cuts of the frame. -/
theorem framingReadsBack : Obligations.FramingReadsBack :=
  fun _ rest _ h => unframe_frame rest (Nat.le_refl _) h

/-- Settles O2, for each value of `OP`. -/
theorem encodeOfDecode : Obligations.EncodeOfDecode := by
  intro w
  induction w using cmdWord_cases with
  | put arg => rw [decode_op0]; exact ⟨rfl, rfl⟩
  | start arg => rw [decode_op1]; exact encode_decodeStart arg
  | finish arg => rw [decode_op2]; exact encode_decodeFinish arg
  | op3 arg => rw [decode_op3]; exact ⟨rfl, rfl⟩

/-- Settles O3: the words that match two rows have START's `OP`. -/
theorem everyWordMatchesItsRow : Obligations.EveryWordMatchesItsRow := by
  intro w
  induction w using cmdWord_cases with
  | put arg => exact .inr ⟨not_mem_sharedWords (by decide) arg, by rw [decode_op0]; exact rowsOf_op0 arg⟩
  | start arg => rw [decode_op1]; exact rowsOf_op1 arg
  | finish arg => exact .inr ⟨not_mem_sharedWords (by decide) arg, by rw [decode_op2]; exact rowsOf_op2 arg⟩
  | op3 arg => exact .inr ⟨not_mem_sharedWords (by decide) arg, by rw [decode_op3]; exact rowsOf_op3 arg⟩

/-- Settles O4, by decoding the ten words. -/
theorem specWordsDecode : Obligations.SpecWordsDecode := by
  unfold Obligations.SpecWordsDecode
  decide

end Sys2Proof.Proofs
end

section
/-! SUPPORT. The family 40_commands.md: what each command does in each phase, the bits a PUT puts into the stream, a
command run before a sink that accepts as many bytes as it writes, and the settled statements. -/

namespace Sys2Proof.Machine

/-! ### The commands, phase by phase (rules R90 to R95) -/

theorem exec_reserved {i : Instr} (hi : i.isReserved = true) (s : State) : exec i s = .next (refuse .eReserved s) := by
  cases i with
  | put c => cases hi
  | start d => cases hi
  | finish => cases hi
  | _ => rfl

theorem legalDepth_of_bounds {d : BitVec 4} (h1 : 1 ≤ d.toNat) (h8 : d.toNat ≤ 8) : legalDepth d = true := by
  simp [legalDepth, h1, h8]

theorem legalDepth_eq_false {d : BitVec 4} (h : d = 0#4 ∨ 9 ≤ d.toNat) : legalDepth d = false := by
  rcases h with rfl | h
  · rfl
  · simp only [legalDepth, Bool.and_eq_false_iff, decide_eq_false_iff_not]
    omega

theorem exec_start_illegal {d : BitVec 4} (hd : legalDepth d = false) (s : State) :
    exec (.start d) s = .next (refuse .eReserved s) := by
  simp only [exec, execStart, hd, Bool.false_eq_true, if_false]

theorem symbolLegal_of_lt {d : BitVec 4} {c : BitVec 8} (h : c.toNat < 2 ^ max 2 d.toNat) : symbolLegal d c = true :=
  decide_eq_true h

/-- What a PUT that is answered has done, by the phase it came in (rule R92). -/
theorem exec_put_next {c : BitVec 8} {s t : State} (h : exec (.put c) s = .next t) :
    (s.phase = .idle ∧ t = refuse .eSeq s) ∨
    (s.phase = .empty ∧ t = respond .eNone (firstSymbol c s)) ∨
    (s.phase = .active ∧ ((∃ u, nextSymbol c s = .go u ∧ t = respond .eNone u) ∨
      ∃ u, nextSymbol c s = .sinkFail u ∧ t = takeSinkFail u)) ∨
    (s.phase = .failed ∧ t = refuse .eSink s) := by
  cases hp : s.phase with
  | idle =>
    simp only [exec, execPut, hp, Host.Outcome.next.injEq] at h
    exact .inl ⟨rfl, h.symm⟩
  | failed =>
    simp only [exec, execPut, hp, Host.Outcome.next.injEq] at h
    exact .inr (.inr (.inr ⟨rfl, h.symm⟩))
  | empty =>
    by_cases hc : symbolLegal s.depth c = true
    · rw [(put_empty_runs hp hc).exec] at h
      exact .inr (.inl ⟨rfl, (Host.Outcome.next.inj h).symm⟩)
    · simp only [exec, execPut, hp, if_neg hc, reduceCtorEq] at h
  | active =>
    by_cases hc : symbolLegal s.depth c = true
    · exact .inr (.inr (.inl ⟨rfl, (put_active_runs hp hc).next h⟩))
    · simp only [exec, execPut, hp, if_neg hc, reduceCtorEq] at h

theorem exec_finish_of_idle {s : State} (hp : s.phase = .idle) : exec .finish s = .next (refuse .eSeq s) := by
  simp only [exec, execFinish, hp]

theorem exec_finish_of_failed {s : State} (hp : s.phase = .failed) : exec .finish s = .next (closeFailed s) := by
  simp only [exec, execFinish, hp]

theorem RunsAs.phase_next {i : Instr} {s t : State} {F : State → Flow} (h : RunsAs i s F)
    (ht : Machine.exec i s = .next t) : t.phase = endPhase i ∨ t.phase = .failed := by
  rcases h.next ht with ⟨u, hu, rfl⟩ | ⟨u, -, rfl⟩
  · exact .inl (h.phase u hu)
  · exact .inr rfl

/-- A command that runs, before a sink that accepts as many bytes as it writes to a sink that accepts everything. -/
theorem RunsAs.accepted {i : Instr} {s p : State} {F : State → Flow} {n : Nat} (h : RunsAs i s F)
    (hp : F (Machine.calm s) = .go p) (hn : p.sink.length ≤ s.sink.length + n) (ha : sinkAccepts n s) :
    ∃ u, F s = .go u ∧ Machine.exec i s = .next (respond .eNone u) ∧ RunFrame i s u := by
  have hfollows := h.follows
  rw [hp] at hfollows
  have hgo := hfollows.go hn ha
  have hends := h.ends
  rw [hgo] at hends
  exact ⟨_, hgo, by rw [h.exec, hgo]; rfl, hends.1⟩

/-! ### Codes put into the stream (rules R126, R127, R141) -/

/-- From `s` to `t` the bits `bits` have gone into the code stream: `n` whole data bytes have left `ACC`, each stored
where `BLK_COUNT` stood, and the rest of the bits waits in `ACC`. -/
structure Emitted (s t : State) (n : Nat) (bits : List Bool) : Prop where
  count : t.blkCount.toNat = (s.blkCount.toNat + n) % 254
  kept : Kept s t n
  bytes : ∃ bs, bs.length = n ∧ PutOut s t bs ∧
    bytesBits bs ++ lowBits t.acc t.accBits.toNat = lowBits s.acc s.accBits.toNat ++ bits

theorem Emitted.trans {s t u : State} {m n : Nat} {a b : List Bool} (h : Emitted s t m a) (h' : Emitted t u n b) :
    Emitted s u (m + n) (a ++ b) := by
  obtain ⟨bs, hlen, hout, hbits⟩ := h.bytes
  obtain ⟨bs', hlen', hout', hbits'⟩ := h'.bytes
  refine ⟨?_, h.kept.trans h'.kept h.count, bs ++ bs', by rw [List.length_append, hlen, hlen'], hout.trans hout', ?_⟩
  · rw [h'.count, h.count]
    omega
  · rw [bytesBits_append, List.append_assoc, hbits', ← List.append_assoc, hbits, List.append_assoc]

theorem Emitted.packed {s t : State} {n : Nat} {bits : List Bool} (h : Emitted s t n bits) : Packed s t bits := by
  obtain ⟨bs, -, hout, hbits⟩ := h.bytes
  exact hout.packed hbits

/-- The sink gets nothing or one whole sub-block (rule R96). -/
theorem Emitted.zero_or_one {s t : State} {n : Nat} {bits : List Bool} (h : Emitted s t n bits)
    (hs : s.blkCount.toNat ≤ 253) (hn : n ≤ 254) :
    t.sink = s.sink ∨ ∃ blk : List Byte, blk.length = 254 ∧ t.sink = s.sink ++ 254#8 :: blk := by
  obtain ⟨bs, hlen, hout, -⟩ := h.bytes
  exact hout.zero_or_one hs (by omega)

theorem emitCode_emitted {c : Code} {s t : State} (h : EmitReady s) (hc : c.toNat < 2 ^ s.codeWidth.toNat)
    (he : c ≠ eofWord s.depth) (hg : emitCode c s = .go t) :
    Emitted s t ((s.accBits.toNat + s.codeWidth.toNat) / 8) (lowBits c s.codeWidth.toNat) := by
  obtain ⟨-, -, -, hcount, -, hbytes⟩ := emitCode_spec h hc he hg
  exact ⟨hcount, emitCode_kept h he hg, hbytes⟩

/-! ### PUT of a pair that is not coded (rule R92) -/

/-- With room: the new string started and the pair inserted, after the pending code `p`. -/
def inserted (slot : Nat) (p : Code) (c : BitVec 8) (s : State) : State := insertEntry slot p c (startString c s)

/-- Without room: the new string started and the dictionary emptied, before the clear code. -/
def restarted (c : BitVec 8) (s : State) : State := restartCodes (clearTable (startString c s))

theorem Emitted.inserted {s s1 : State} {n : Nat} {bits : List Bool} (h : Emitted s s1 n bits) (slot : Nat) (p : Code)
    (c : BitVec 8) : Emitted s (Machine.inserted slot p c s1) n bits :=
  ⟨h.count, h.kept, h.bytes⟩

theorem Emitted.restarted {s s1 : State} {n : Nat} {bits : List Bool} (h : Emitted s s1 n bits) (c : BitVec 8) :
    Emitted s (Machine.restarted c s1) n bits :=
  ⟨h.count, h.kept, h.bytes⟩

theorem insertEntry_nextCode_toNat {s : State} (hn : s.nextCode.toNat < 4096) (slot : Nat) (p : Code) (c : BitVec 8) :
    (insertEntry slot p c s).nextCode.toNat = s.nextCode.toNat + 1 := by
  rw [insertEntry_nextCode, BitVec.toNat_add, BitVec.toNat_ofNat]
  omega

theorem insertEntry_read_hcode (s : State) (slot : Nat) (p : Code) (c : BitVec 8) :
    Memory.read (insertEntry slot p c s).hcode slot = some (BitVec.ofNat 12 s.nextCode.toNat) := by
  rw [insertEntry_hcode, Memory.read_write_same]
  rfl

theorem restarted_nextCode_toNat {s : State} (hd : legalDepth s.depth = true) (c : BitVec 8) :
    (restarted c s).nextCode.toNat = firstFree s.depth := by
  have hb := clearCode_bounds hd
  show (BitVec.ofNat 13 (firstFree s.depth)).toNat = _
  rw [BitVec.toNat_ofNat, firstFree, eofCode]
  omega

/-- The two codes of a PUT at exhaustion: the width stays 12 after the pending code, and starts again after the clear
code (rules R128, R130). -/
theorem clear_emitted {c : BitVec 8} {s s1 t : State} (hs : packerReady s = true) (hq : prevReady s = true)
    (hw : s.codeWidth = 12#4) (h1 : emitCode s.prevCode s = .go s1)
    (h2 : emitCode (clearWord s.depth) (restarted c s1) = .go t) :
    Emitted s t ((s.accBits.toNat + 24) / 8) (lowBits s.prevCode 12 ++ lowBits (clearWord s.depth) 12) ∧
      t.codeWidth.toNat = initWidth s.depth := by
  obtain ⟨hE, hd, hlow⟩ := packerReady_iff hs
  obtain ⟨hfit, hclear, heof⟩ := prevReady_iff.mp hq
  have hw12 : s.codeWidth.toNat = 12 := by rw [hw]; rfl
  obtain ⟨hF, -, hbits, -⟩ := emitCode_spec hE hfit heof h1
  have hE1 := hE.emit hfit heof hd h1
  have hready : EmitReady (restarted c s1) := ⟨hE1.packable, hE1.accBits, hE1.codeWidth⟩
  have hdepth : (restarted c s1).depth = s.depth := hF.depth
  have hwidth : (restarted c s1).codeWidth.toNat = 12 := by
    show s1.codeWidth.toNat = 12
    rw [emitCode_width h1, widthStep_grown hclear, grownWidth, hw12, if_neg (by omega)]
  have hbits' : (restarted c s1).accBits.toNat = (s.accBits.toNat + 12) % 8 := by rw [← hw12]; exact hbits
  have hfit' : (clearWord s.depth).toNat < 2 ^ (restarted c s1).codeWidth.toNat := by
    rw [hwidth.trans hw12.symm]
    exact (controls_fit hd hlow).1
  have e1 := (emitCode_emitted hE hfit heof h1).restarted c
  have e2 := emitCode_emitted hready hfit' (by rw [hdepth]; exact clear_ne_eof hd) h2
  rw [hw12] at e1
  rw [hwidth, hbits'] at e2
  refine ⟨?_, ?_⟩
  · rw [show (s.accBits.toNat + 24) / 8 = (s.accBits.toNat + 12) / 8 + ((s.accBits.toNat + 12) % 8 + 12) / 8 by omega]
    exact e1.trans e2
  · rw [emitCode_width h2, widthStep_clear (by rw [hdepth]) (by rw [hdepth]; exact hd), hdepth]

/-- Where the code space is exhausted, codes have their full width (rule R41 item 3). -/
def FullWidthAtEnd (s : State) : Prop := ¬ s.nextCode.toNat < 4096 → s.codeWidth = 12#4

theorem BetweenCommands.fullWidthAtEnd {s : State} (h : BetweenCommands s) : FullWidthAtEnd s := by
  intro hn
  have hhigh := h.width_high
  have hfits := h.next_fits
  apply BitVec.eq_of_toNat_eq
  show s.codeWidth.toNat = 12
  by_contra hne
  have hpow : 2 ^ s.codeWidth.toNat ≤ 2 ^ 11 := Nat.pow_le_pow_right (by omega) (by omega)
  omega

/-- A PUT in `ACTIVE` puts no code, one code or two codes into the stream: at most four whole bytes. -/
theorem nextSymbol_emitted {c : BitVec 8} {s t : State} (hs : packerReady s = true) (hq : prevReady s = true)
    (hend : FullWidthAtEnd s) (hg : nextSymbol c s = .go t) : ∃ n bits, n ≤ 4 ∧ Emitted s t n bits := by
  obtain ⟨hE, -, -⟩ := packerReady_iff hs
  have hA := hE.accBits
  have hW := hE.codeWidth
  have hC := hE.packable.1
  obtain ⟨hfit, -, heof⟩ := prevReady_iff.mp hq
  cases hl : lookup s.hkey s.prevCode c with
  | hit slot =>
    rw [nextSymbol_hit hl] at hg
    obtain rfl := Flow.go.inj hg
    refine ⟨0, [], by omega, ?_, Kept.refl s 0, [], rfl, PutOut.refl s, ?_⟩
    · show s.blkCount.toNat = _
      omega
    · exact (List.append_nil _).symm
  | endless => simp [nextSymbol, hl] at hg
  | miss slot =>
    by_cases hn : s.nextCode.toNat < 4096
    · obtain ⟨s1, h1, rfl⟩ := (nextSymbol_insert hl hn).mp hg
      exact ⟨_, _, by omega, (emitCode_emitted hE hfit heof h1).inserted slot s.prevCode c⟩
    · obtain ⟨s1, h1, h2⟩ := (nextSymbol_clear hl hn).mp hg
      exact ⟨_, _, by omega, (clear_emitted hs hq (hend hn) h1 h2).1⟩

theorem nextSymbol_zero_or_one {c : BitVec 8} {s t : State} (hs : packerReady s = true) (hq : prevReady s = true)
    (hend : FullWidthAtEnd s) (hg : nextSymbol c s = .go t) :
    t.sink = s.sink ∨ ∃ blk : List Byte, blk.length = 254 ∧ t.sink = s.sink ++ 254#8 :: blk := by
  obtain ⟨n, bits, hn, he⟩ := nextSymbol_emitted hs hq hend hg
  exact he.zero_or_one (packerReady_iff hs).1.packable.1 (by omega)

/-- A PUT in `ACTIVE` whose search ends goes on before a sink that accepts one whole sub-block. -/
theorem exec_put_accepted {c : BitVec 8} {s : State} (hp : s.phase = .active) (hc : symbolLegal s.depth c = true)
    (hs : packerReady s = true) (hq : prevReady s = true) (hend : FullWidthAtEnd s)
    (hl : lookup s.hkey s.prevCode c ≠ .endless) (ha : sinkAccepts 255 s) :
    ∃ u, nextSymbol c s = .go u ∧ exec (.put c) s = .next (respond .eNone u) ∧ RunFrame (.put c) s u := by
  obtain ⟨p, hcalm⟩ := nextSymbol_calm (packerReady_iff hs).1.packable.1 hl
  refine (put_active_runs hp hc).accepted hcalm ?_ ha
  rcases nextSymbol_zero_or_one (s := calm s) hs hq hend hcalm with h | ⟨blk, hblk, h⟩
  · rw [h]
    exact Nat.le_add_right _ _
  · rw [h, List.length_append, List.length_cons, hblk]
    exact Nat.le_refl _

/-! ### FINISH (rule R93) -/

/-- `F` is the procedure of FINISH in the phase of `s`. -/
def FinishProcedure (s : State) (F : State → Flow) : Prop :=
  ∀ s', F s' = if s.phase = .active then (emitCode s'.prevCode s').andThen closeStream else closeStream s'

/-- The bytes of a FINISH that runs to its end (rule R96): at most 253 bytes waited, and at most 4 came to them. -/
theorem finish_bytes {s t : State} {F : State → Flow} (hs : packerReady s = true)
    (hq : s.phase = .active → prevReady s = true) (hF : FinishProcedure s F) (hg : F s = .go t) :
    ∃ bytes : List Byte, t.sink = s.sink ++ bytes ∧ 3 ≤ bytes.length ∧ bytes.length ≤ 260 := by
  have hC := (packerReady_iff hs).1.packable.1
  obtain ⟨-, -, -, -, -, -, -, -, data, pad, hsink, -, hone, -, hfour, -, -⟩ := finish_spec hs hq hF hg
  refine ⟨subBlocks data ++ [0x00#8], by rw [hsink, List.append_assoc], ?_, ?_⟩
  · rw [List.length_append, subBlocks_length, List.length_singleton]
    omega
  · rw [List.length_append, subBlocks_length, List.length_singleton]
    omega

/-- FINISH in an open call goes on before a sink that accepts 260 bytes. -/
theorem exec_finish_accepted {s : State} (ho : callOpen s) (hs : packerReady s = true)
    (hq : s.phase = .active → prevReady s = true) (ha : sinkAccepts 260 s) :
    ∃ F u, FinishProcedure s F ∧ F s = .go u ∧ exec .finish s = .next (respond .eNone u) ∧ RunFrame .finish s u ∧
      u.phase = .idle := by
  obtain ⟨F, hR, hF, hcalm⟩ := finish_runs ho
  obtain ⟨p, hp⟩ := hcalm (packerReady_iff hs).1.packable.1
  obtain ⟨bytes, hbytes, -, hlen⟩ := finish_bytes (s := calm s) hs hq hF hp
  have hn : p.sink.length ≤ s.sink.length + 260 := by
    rw [hbytes, List.length_append]
    exact Nat.add_le_add_left hlen _
  obtain ⟨u, hu, hx, hframe⟩ := hR.accepted hp hn ha
  exact ⟨F, u, hF, hu, hx, hframe, hR.phase u hu⟩

/-! ### START before a sink that fails the first byte (rule R91) -/

theorem exec_start_sinkFail {d : BitVec 4} {s : State} {r : List SinkAnswer} (hd : legalDepth d = true)
    (ha : s.answers = .fail :: r) :
    exec (.start d) s = .next (takeSinkFail { openCall d s with answers := r }) := by
  have hfail : sinkWrite (BitVec.ofNat 8 (initSize d)) (openCall d s) =
      .sinkFail { openCall d s with answers := r } := by
    simp only [sinkWrite, openCall_answers, ha]
  rw [(start_runs hd s).exec, hfail]
  rfl

end Sys2Proof.Machine

namespace Sys2Proof.Proofs

open Sys2Proof Sys2Proof.Machine

/-- Settles O21: a PUT with room goes on, having emitted the pending code, and then inserts; code output leaves the
tables and the other registers alone. -/
theorem putMissInserts : Obligations.PutMissInserts := by
  intro c s slot hp hc hs hq ha hl hn
  obtain ⟨hE, -, -⟩ := packerReady_iff hs
  obtain ⟨hfit, hclear, heof⟩ := prevReady_iff.mp hq
  obtain ⟨u, hu, hx, -⟩ := exec_put_accepted hp (symbolLegal_of_lt hc) hs hq (fun h => absurd hn h)
    (by rw [hl]; exact Found.noConfusion) ha
  obtain ⟨s1, h1, rfl⟩ := (nextSymbol_insert hl hn).mp hu
  have hF := emitCode_next h1
  have hnext : (startString c s1).nextCode = s.nextCode := hF.nextCode
  have he := (emitCode_emitted hE hfit heof h1).inserted slot s.prevCode c
  refine ⟨_, hx, he.packed, ?_, rfl, ?_, Memory.read_write_same _ _ _, fun j hj => ?_, ?_, fun j hj => ?_, he.kept,
    hF.phase.trans hp, hF.depth, hF.lastErr, ?_, hF.cmd, hF.resetPin⟩
  · show s1.codeWidth.toNat = _
    rw [emitCode_width h1, widthStep_grown hclear]
  · rw [respond_nextCode, insertEntry_nextCode_toNat (by rw [hnext]; exact hn), hnext]
  · rw [respond_hkey, insertEntry_hkey, Memory.read_write_other _ _ hj, ← hF.hkey]
    rfl
  · rw [respond_hcode, insertEntry_read_hcode, hnext]
  · rw [respond_hcode, insertEntry_hcode, Memory.read_write_other _ _ hj, ← hF.hcode]
    rfl
  · rw [respond_rsp, insertEntry_rsp, ← hF.rsp]
    rfl

/-- Settles O22: a PUT without room goes on, having emitted the pending code and, from the emptied dictionary, the clear
code. -/
theorem putMissClearsWhenExhausted : Obligations.PutMissClearsWhenExhausted := by
  intro c s slot hp hc hs hq ha hw hl hn
  obtain ⟨-, hd, -⟩ := packerReady_iff hs
  obtain ⟨u, hu, hx, hframe⟩ := exec_put_accepted hp (symbolLegal_of_lt hc) hs hq (fun _ => hw)
    (by rw [hl]; exact Found.noConfusion) ha
  obtain ⟨s1, h1, h2⟩ := (nextSymbol_clear hl (by omega)).mp hu
  obtain ⟨he, hwidth⟩ := clear_emitted hs hq hw h1 h2
  have hF1 := emitCode_next h1
  have hF2 := emitCode_next h2
  refine ⟨_, hx, he.packed, hwidth, hF2.prevCode, ?_, fun j => ?_, hF2.hcode.trans hF1.hcode, he.kept,
    (nextSymbol_phase hu).trans hp, hframe.depth, hframe.lastErr, ?_, hframe.cmd, hframe.resetPin⟩
  · rw [respond_nextCode, hF2.nextCode, ← hF1.depth]
    exact restarted_nextCode_toNat (by rw [hF1.depth]; exact hd) c
  · rw [respond_hkey, hF2.hkey]
    rfl
  · rw [respond_rsp, hframe.rsp]
    rfl

/-- Settles O23: only a PUT in `ACTIVE` writes, and it puts out at most four data bytes. -/
theorem putWritesZeroOr255 : Obligations.PutWritesZeroOr255 := by
  intro c s t hI h hfail
  rcases exec_put_next h with ⟨-, rfl⟩ | ⟨-, rfl⟩ | ⟨hp, ⟨u, hu, rfl⟩ | ⟨u, -, rfl⟩⟩ | ⟨-, rfl⟩
  · exact .inl rfl
  · exact .inl rfl
  · obtain ⟨hB, -, -⟩ := hI.2 (.inr hp)
    rw [respond_sink]
    exact nextSymbol_zero_or_one hB.packerReady (hB.prevReady hp) hB.fullWidthAtEnd hu
  · exact absurd rfl hfail
  · exact .inl rfl

/-- Settles O24: FINISH goes on, and `finish_spec` says what it leaves. -/
theorem finishCompletesStream : Obligations.FinishCompletesStream := by
  intro s ho hs hq ha
  obtain ⟨F, u, hF, hu, hx, hframe, hidle⟩ := exec_finish_accepted ho hs hq ha
  obtain ⟨hacc, hbits, hcount, hdepth, hprev, hnext, hkey, hcode, data, pad, hsink, hpad, -, -, -, hkept, hdata⟩ :=
    finish_spec hs hq hF hu
  refine ⟨_, data, pad, hx, hsink, hpad, hdata, hidle, hacc, hbits, hcount, ?_, hdepth, hprev, hnext, hkey, hcode,
    hkept, hframe.lastErr, hframe.cmd, hframe.resetPin⟩
  rw [respond_rsp, hframe.rsp]
  rfl

/-- Settles O25: a FINISH that ends in `IDLE` has not met a sink failure. -/
theorem finishWritesThreeTo260 : Obligations.FinishWritesThreeTo260 := by
  intro s t ho hI h hidle
  obtain ⟨hB, -, -⟩ := hI.2 ho
  obtain ⟨F, hR, hF, -⟩ := finish_runs ho
  rcases hR.next h with ⟨u, hu, rfl⟩ | ⟨u, -, rfl⟩
  · rw [respond_sink]
    exact finish_bytes hB.packerReady hB.prevReady hF hu
  · cases hidle

/-- Settles O31, command by command and phase by phase. -/
theorem phaseTable : Obligations.PhaseTable := by
  intro s t
  refine ⟨fun d hd h => (start_runs hd s).phase_next h, fun c h => ?_, fun h => ?_, fun i hi h => ?_⟩
  · rcases exec_put_next h with ⟨hp, rfl⟩ | ⟨hp, rfl⟩ | ⟨hp, ⟨u, hu, rfl⟩ | ⟨u, -, rfl⟩⟩ | ⟨hp, rfl⟩
    · exact .inl ⟨hp, hp⟩
    · exact .inr (.inl ⟨hp, rfl⟩)
    · exact .inr (.inr (.inl ⟨hp, .inl ((nextSymbol_phase hu).trans hp)⟩))
    · exact .inr (.inr (.inl ⟨hp, .inr rfl⟩))
    · exact .inr (.inr (.inr ⟨hp, hp⟩))
  · have running : callOpen s → t.phase = .idle ∨ t.phase = .failed := by
      intro ho
      obtain ⟨F, hR, -⟩ := finish_runs ho
      exact hR.phase_next h
    cases hp : s.phase with
    | idle =>
      obtain rfl := Host.Outcome.next.inj ((exec_finish_of_idle hp).symm.trans h)
      exact .inl ⟨rfl, hp⟩
    | empty => exact .inr (.inl ⟨.inl hp, running (.inl hp)⟩)
    | active => exact .inr (.inl ⟨.inr hp, running (.inr hp)⟩)
    | failed =>
      obtain rfl := Host.Outcome.next.inj ((exec_finish_of_failed hp).symm.trans h)
      exact .inr (.inr ⟨rfl, rfl⟩)
  · obtain rfl := Host.Outcome.next.inj ((exec_reserved hi s).symm.trans h)
    rfl

/-- Settles O11: the refusal is the row's whole effect. -/
theorem reservedWordRefused : Obligations.ReservedWordRefused :=
  fun _ s hi => exec_reserved hi s

/-- Settles O14: such a depth is not legal, and START tests that first. -/
theorem startIllegalDepthRefused : Obligations.StartIllegalDepthRefused :=
  fun _ s h => exec_start_illegal (legalDepth_eq_false h) s

/-- Settles O17: START's first byte is the one the sink fails. -/
theorem startSinkFailure : Obligations.StartSinkFailure :=
  fun _ _ _ h1 h8 ha => ⟨_, exec_start_sinkFail (legalDepth_of_bounds h1 h8) ha, rfl, rfl, rfl, rfl, rfl, rfl⟩

/-- Settles O19: in `EMPTY` a legal symbol is the first of the call. -/
theorem putFirstSymbol : Obligations.PutFirstSymbol :=
  fun _ _ hp hc => (put_empty_runs hp (symbolLegal_of_lt hc)).exec

/-- Settles O20: in `ACTIVE` a search that hits writes nothing and only moves to the pair's code. -/
theorem putHitExtendsMatch : Obligations.PutHitExtendsMatch := by
  intro c s slot hp hc hl
  rw [(put_active_runs hp (symbolLegal_of_lt hc)).exec, nextSymbol_hit hl]
  rfl

end Sys2Proof.Proofs
end

section
/-! SUPPORT. The family 41_dictionary.md: keys, first slots and probe steps as numbers, what an insertion leaves of the
stored codes, that every command that runs is answered before a sink that answers every byte, and the settled
statements. -/

namespace Sys2Proof.Machine

/-! ### Keys and slots as numbers (rules R111 to R113) -/

/-- A key is the byte above the code it extends (rule R111). -/
theorem keyOf_eq_append (p : Code) (b : BitVec 8) : keyOf p b = b ++ p := by
  apply BitVec.eq_of_getLsbD_eq
  intro i hi
  rw [keyOf_getLsbD p b i hi, BitVec.getLsbD_append]

theorem keyOf_toNat (p : Code) (b : BitVec 8) : (keyOf p b).toNat = b.toNat * 4096 + p.toNat := by
  rw [keyOf_eq_append, BitVec.toNat_append, ← Nat.shiftLeft_add_eq_or_of_lt p.isLt, Nat.shiftLeft_eq]

/-- The shifted byte has 12 bits, so the hash loses none of them (rule R112). -/
theorem hashIndex_eq (p : Code) (b : BitVec 8) : hashIndex p b = (b.toNat * 16) ^^^ p.toNat := by
  have hb := b.isLt
  have hwide : (b.setWidth 12 <<< Config.hshift).toNat = b.toNat * 16 := by
    rw [BitVec.toNat_shiftLeft, BitVec.toNat_setWidth, Nat.shiftLeft_eq, Config.hshift]
    omega
  rw [hashIndex, BitVec.toNat_xor, hwide]

@[simp] theorem probeStep_zero : probeStep 0 = 1 := rfl

theorem probeStep_of_ne {h : Nat} (h0 : h ≠ 0) : probeStep h = 5003 - h := if_neg h0

/-! ### Searches and insertions (rules R115, R116) -/

theorem lookup_nil (p : Code) (b : BitVec 8) : lookup [] p b = .miss (hashIndex p b) := rfl

/-- The inserted pair has the next code, in 12 bits (rule R115). -/
theorem hcodeAt_insertEntry_self {s : State} (hn : s.nextCode.toNat < 4096) (slot : Nat) (p : Code) (b : BitVec 8) :
    (hcodeAt (insertEntry slot p b s) slot).toNat = s.nextCode.toNat := by
  rw [hcodeAt_of_read (insertEntry_read_hcode s slot p b), BitVec.toNat_ofNat, Nat.mod_eq_of_lt hn]

theorem hcodeAt_insertEntry_other (s : State) {slot j : Nat} (hj : j ≠ slot) (p : Code) (b : BitVec 8) :
    hcodeAt (insertEntry slot p b s) j = hcodeAt s j := by
  rw [hcodeAt, insertEntry_hcode, insertEntry_draws, Memory.read_write_other _ _ hj, hcodeAt]

/-! ### Commands before a sink that answers every byte (rules R150, R180) -/

/-- A command that runs to its end before a sink that accepts everything is answered by any sink that answers. -/
theorem RunsAs.answered {i : Instr} {s p : State} {F : State → Flow} (h : RunsAs i s F)
    (hp : F (Machine.calm s) = .go p) (hs : sinkResponds s) : ∃ t, Machine.exec i s = .next t := by
  have hfollows := h.follows
  rw [hp] at hfollows
  rw [h.exec]
  rcases hfollows.ends with ⟨t, ht⟩ | ⟨t, ht⟩ | ⟨-, hsilent⟩
  · exact ⟨_, by rw [ht]; rfl⟩
  · exact ⟨_, by rw [ht]; rfl⟩
  · exact absurd hs hsilent

theorem exec_start_answered (d : BitVec 4) {s : State} (hs : sinkResponds s) : ∃ t, exec (.start d) s = .next t := by
  cases hd : legalDepth d with
  | false => exact ⟨_, exec_start_illegal hd s⟩
  | true =>
    obtain ⟨p, hp⟩ := emitCode_calm (c := clearWord d) (s := opened d s) (Nat.zero_le 253)
    exact (start_runs hd s).answered hp hs

theorem exec_put_of_idle {s : State} (hp : s.phase = .idle) (c : BitVec 8) :
    exec (.put c) s = .next (refuse .eSeq s) := by
  simp only [exec, execPut, hp]

theorem exec_put_of_failed {s : State} (hp : s.phase = .failed) (c : BitVec 8) :
    exec (.put c) s = .next (refuse .eSink s) := by
  simp only [exec, execPut, hp]

theorem exec_put_answered {c : BitVec 8} {s : State} (hI : Inv s) (hs : sinkResponds s)
    (hc : callOpen s → symbolLegal s.depth c = true) : ∃ t, exec (.put c) s = .next t := by
  cases hp : s.phase with
  | idle => exact ⟨_, exec_put_of_idle hp c⟩
  | failed => exact ⟨_, exec_put_of_failed hp c⟩
  | empty => exact (put_empty_runs hp (hc (.inl hp))).answered rfl hs
  | active =>
    obtain ⟨hB, -, -⟩ := hI.2 (.inr hp)
    have hends := lookup_not_endless hB (memoryWf_iff.mp hI.1).1 s.prevCode c
    obtain ⟨p, hcalm⟩ := nextSymbol_calm hB.blk_count hends
    exact (put_active_runs hp (hc (.inr hp))).answered hcalm hs

theorem exec_finish_answered {s : State} (hI : Inv s) (hs : sinkResponds s) : ∃ t, exec .finish s = .next t := by
  have running : callOpen s → ∃ t, exec .finish s = .next t := by
    intro ho
    obtain ⟨hB, -, -⟩ := hI.2 ho
    obtain ⟨F, hR, -, hcalm⟩ := finish_runs ho
    obtain ⟨p, hp⟩ := hcalm hB.blk_count
    exact hR.answered hp hs
  cases hp : s.phase with
  | idle => exact ⟨_, exec_finish_of_idle hp⟩
  | empty => exact running (.inl hp)
  | active => exact running (.inr hp)
  | failed => exact ⟨_, exec_finish_of_failed hp⟩

end Sys2Proof.Machine

namespace Sys2Proof.Proofs

open Sys2Proof Sys2Proof.Machine

/-- Settles O28, command by command: what runs goes on before a sink that accepts everything, since searches end and
the sub-block buffer has room, so a sink that answers can only cut it short. -/
theorem everyCommandIsAnswered : Obligations.EveryCommandIsAnswered := by
  intro i s hI hs hput
  cases i with
  | start d => exact exec_start_answered d hs
  | put c => exact exec_put_answered hI hs (hput c rfl)
  | finish => exact exec_finish_answered hI hs
  | _ => exact ⟨_, exec_reserved rfl s⟩

/-- Settles O39: a hit shows the stored pair, and every stored pair is found (`findable`). -/
theorem lookupFindsExactlyTheDictionary : Obligations.LookupFindsExactlyTheDictionary := by
  intro s hI ho p b k
  obtain ⟨-, -, hfind⟩ := hI.2 ho
  constructor
  · rintro ⟨slot, hread, hcode⟩
    have hhit := hfind slot _ hread
    rw [keyPrefix_keyOf, keyByte_keyOf] at hhit
    exact ⟨slot, hhit, hcode⟩
  · rintro ⟨slot, hhit, hcode⟩
    exact ⟨slot, lookup_hit hhit, hcode⟩

/-- Settles O40: the slot written was empty, so no earlier search stopped there and no stored code stood there. -/
theorem insertThenLookup : Obligations.InsertThenLookup := by
  intro s p b slot hmiss hn
  obtain ⟨hempty, -⟩ := lookup_miss hmiss
  refine ⟨lookup_write_self hmiss, hcodeAt_insertEntry_self hn slot p b, insertEntry_nextCode_toNat hn slot p b,
    fun q c j hhit => ⟨lookup_write_other hempty hhit, hcodeAt_insertEntry_other s ?_ p b⟩⟩
  rintro rfl
  rw [lookup_hit hhit] at hempty
  cases hempty

/-- Settles O35: both parts of the pair can be read back from a key. -/
theorem keyIsInjective : Obligations.KeyIsInjective := by
  refine ⟨keyOf_toNat, fun p q b c h => ⟨?_, ?_⟩⟩
  · simpa only [keyPrefix_keyOf] using congrArg keyPrefix h
  · simpa only [keyByte_keyOf] using congrArg keyByte h

/-- Settles O36: the index is a 12-bit word. -/
theorem hashIndexIsFirstSlot : Obligations.HashIndexIsFirstSlot :=
  fun p b => ⟨hashIndex_eq p b, Nat.le_of_lt_succ (hashIndex_lt p b)⟩

/-- Settles O37: a step from 1 to 5002 is no multiple of 5003. -/
theorem probeStepIsNeverZero : Obligations.ProbeStepIsNeverZero := by
  intro h hh
  have hrange : 1 ≤ probeStep h ∧ probeStep h ≤ 5002 := by
    by_cases h0 : h = 0
    · rw [h0, probeStep_zero]
      omega
    · rw [probeStep_of_ne h0]
      omega
  refine ⟨?_, probeStep_of_ne, hrange.1, hrange.2, fun hdvd => ?_⟩
  · rintro rfl
    exact probeStep_zero
  · have := Nat.le_of_dvd hrange.1 hdvd
    omega

/-- Settles O41: in the empty table the first slot looked at is empty. -/
theorem clearTableEmptiesDictionary : Obligations.ClearTableEmptiesDictionary :=
  fun _ p b => ⟨lookup_nil p b, fun _ => rfl, rfl⟩

end Sys2Proof.Proofs
end

section
/-! SUPPORT. The family 42_code_output.md: the width schedule as bounds on `CODE_WIDTH`, and the settled statements. -/

namespace Sys2Proof.Machine

/-! ### The width schedule (rules R128 to R130) -/

/-- The clear code takes the width back to `INIT_WIDTH`, whatever `DEPTH` is (rule R128). -/
theorem widthStep_clearWord (s : State) :
    (widthStep (clearWord s.depth) s).codeWidth = BitVec.ofNat 4 (initWidth s.depth) := by
  rw [widthStep, if_pos rfl]

theorem le_grownWidth (s : State) : s.codeWidth.toNat ≤ grownWidth s := by
  unfold grownWidth
  split
  · exact Nat.le_succ _
  · exact Nat.le_refl _

/-- Only a clear code makes the width smaller (rules R128 to R130). -/
theorem emitCode_width_mono {c : Code} {s t : State} (hc : c ≠ clearWord s.depth) (h : emitCode c s = .go t) :
    s.codeWidth.toNat ≤ t.codeWidth.toNat := by
  rw [emitCode_width h, widthStep_grown hc]
  exact le_grownWidth s

end Sys2Proof.Machine

namespace Sys2Proof.Proofs

open Sys2Proof Sys2Proof.Machine

/-- Settles O43: only the width step writes `CODE_WIDTH` (`emitCode_width`), and it has a clause for either kind of
code. -/
theorem codeWidthSchedule : Obligations.CodeWidthSchedule := by
  intro c s t h
  rw [emitCode_width h]
  constructor
  · rintro rfl
    exact widthStep_clearWord s
  · exact widthStep_grown

/-- Settles O44: the pending prefix code is below `NEXT_CODE`, the control codes fit in `INIT_WIDTH` bits, and the
pending code is no clear code, so it leaves the width at least as large. -/
theorem everyCodeFits : Obligations.EveryCodeFits := by
  intro s hI ho
  obtain ⟨hB, -, -⟩ := hI.2 ho
  obtain ⟨hclear, heof⟩ := controls_fit hB.depth_legal hB.width_low
  refine ⟨fun hp => ?_, hclear, heof, fun t hp h => ?_⟩
  · obtain ⟨hprev, -, -⟩ := hB.prev_code hp
    exact Nat.lt_of_lt_of_le hprev hB.next_fits
  · obtain ⟨-, hne, -⟩ := hB.prev_code hp
    rw [(emitCode_next h).depth]
    exact Nat.lt_of_lt_of_le heof (Nat.pow_le_pow_right Nat.two_pos (emitCode_width_mono hne h))

/-- Settles O45: the data bytes of the sub-blocks are those that wait in `BLK_BUF` and then those that the waiting bits,
the end code and its padding fill (`emitEof_spec`). -/
theorem endCodeFlushesEverything : Obligations.EndCodeFlushesEverything := by
  intro s t hs h
  obtain ⟨hE, hd, hlow⟩ := packerReady_iff hs
  obtain ⟨-, hacc, hbits, hcount, bs, pad, hsink, hpad, -, hbs⟩ := emitEof_spec hE (controls_fit hd hlow).2 h
  refine ⟨hacc, hbits, hcount, blkBytes s ++ bs, pad, hsink, hpad, ?_⟩
  rw [bytesBits_append, hbs, waitingBits]
  simp only [List.append_assoc]

end Sys2Proof.Proofs
end

section
/-! SUPPORT. The family 43_subblock_framing.md: how far a list of sink writes gets before a byte the sink fails, that a
command ends in `FAILED` only by such a byte, and the settled statements. -/

namespace Sys2Proof.Machine

/-! ### Sink writes that fail (rules R140, R142) -/

theorem OnlySink.blkCount {s t : State} (h : OnlySink s t) : t.blkCount = s.blkCount := by
  unfold OnlySink at h
  rw [h]

theorem sinkWrite_sinkFail {b : Byte} {s t : State} (h : sinkWrite b s = .sinkFail t) : FailedAfter s t [] := by
  unfold sinkWrite at h
  split at h
  · cases h
  · cases h
  · next r hr =>
    obtain rfl := Flow.sinkFail.inj h
    exact ⟨(List.append_nil _).symm, hr⟩
  · cases h

theorem sinkWrite_wrote {b : Byte} {s t : State} (h : sinkWrite b s = .go t) : Wrote s t [b] := by
  obtain ⟨ha, rfl⟩ := sinkWrite_go.mp h
  exact ⟨rfl, ha, rfl⟩

/-- The sink has the bytes before the one it failed (rule R140). -/
theorem sinkWriteAll_sinkFail {bs : List Byte} {s t : State} (h : sinkWriteAll bs s = .sinkFail t) :
    ∃ n < bs.length, FailedAfter s t (bs.take n) := by
  induction bs generalizing s with
  | nil => cases h
  | cons b bs ih =>
    rcases Flow.andThen_sinkFail.mp h with h | ⟨u, hu, h⟩
    · exact ⟨0, Nat.succ_pos _, sinkWrite_sinkFail h⟩
    · obtain ⟨n, hn, hfail⟩ := ih h
      exact ⟨n + 1, Nat.succ_lt_succ hn, (sinkWrite_wrote hu).fail hfail⟩

/-- A flush that fails has failed at its sink writes, before `BLK_COUNT` is written (rule R142). -/
theorem flushBlock_sinkFail {s t : State} (h : flushBlock s = .sinkFail t) :
    sinkWriteAll (s.blkCount :: blkBytes s) s = .sinkFail t := by
  unfold flushBlock at h
  split at h
  · cases h
  · split at h
    · cases h
    · rcases Flow.andThen_sinkFail.mp h with h | ⟨u, -, h⟩
      · exact h
      · cases h

theorem sinkWriteAll_sinkFail_blkCount {bs : List Byte} {s t : State} (h : sinkWriteAll bs s = .sinkFail t) :
    t.blkCount = s.blkCount := by
  have hends := sinkWriteAll_ends bs s
  rw [h] at hends
  exact hends.1.blkCount

/-! ### Commands that end in `FAILED` (rule R154) -/

theorem endPhase_ne_failed (i : Instr) : endPhase i ≠ .failed := by
  cases i <;> exact Phase.noConfusion

/-- No command but one that runs goes to `FAILED`; START runs there too (rule R91). -/
theorem runs_of_exec_failed {i : Instr} {s t : State}
    (hi : s.phase ≠ .failed ∨ ∃ d, i = .start d ∧ legalDepth d = true) (h : exec i s = .next t)
    (ht : t.phase = .failed) : ∃ F, RunsAs i s F := by
  rcases hi with hp | ⟨d, rfl, hd⟩
  · rcases exec_shape i s with ⟨e, -, h1, -⟩ | ⟨-, hf, -⟩ | ⟨c, -, -, -, h1, -⟩ | hR
    · obtain rfl := Host.Outcome.next.inj (h1.symm.trans h)
      exact absurd ht hp
    · exact absurd hf hp
    · cases h1.symm.trans h
    · exact hR
  · exact ⟨_, start_runs hd s⟩

/-- A command that runs and ends in `FAILED` has met a sink failure. -/
theorem RunsAs.sinkFail_of_failed {i : Instr} {s t : State} {F : State → Flow} (h : RunsAs i s F)
    (ht : Machine.exec i s = .next t) (hp : t.phase = .failed) :
    ∃ u bs, t = takeSinkFail u ∧ RunFrame i s u ∧ FailedAfter s u bs := by
  rcases h.next ht with ⟨u, hu, rfl⟩ | ⟨u, hu, rfl⟩
  · exact absurd ((h.phase u hu).symm.trans hp) (endPhase_ne_failed i)
  · have hends := h.ends
    rw [hu] at hends
    obtain ⟨hframe, bs, hfail⟩ := hends
    exact ⟨u, bs, rfl, hframe, hfail⟩

end Sys2Proof.Machine

namespace Sys2Proof.Proofs

open Sys2Proof Sys2Proof.Machine

/-- Settles O26: a command that ends in `FAILED` has met a byte the sink failed (R154); what it leaves alone is the
frame of a command that runs. -/
theorem sinkFailureEndsCommand : Obligations.SinkFailureEndsCommand := by
  intro i s t hi h ht
  obtain ⟨F, hR⟩ := runs_of_exec_failed hi h ht
  obtain ⟨u, bs, rfl, hframe, hsink, hanswers⟩ := hR.sinkFail_of_failed h ht
  refine ⟨rfl, ?_, hframe.cmd, hframe.resetPin, bs, hsink, hanswers⟩
  rw [takeSinkFail_rsp, hframe.rsp]
  rfl

/-- Settles O47: `flushBlock_go` says when the flush goes on and with what, `sinkWriteAll_sinkFail` what a failure
leaves. -/
theorem flushBlockWritesWhatWaits : Obligations.FlushBlockWritesWhatWaits := by
  intro s hc
  refine ⟨fun h0 => (flushBlock_go hc).mpr (.inl ⟨h0, rfl⟩),
    fun h0 ha => (flushBlock_go hc).mpr (.inr ⟨h0, ha, rfl⟩), fun t h => ?_⟩
  have hwrites := flushBlock_sinkFail h
  obtain ⟨n, hn, hsink, hanswers⟩ := sinkWriteAll_sinkFail hwrites
  rw [List.length_take_of_le (Nat.le_of_lt hn)] at hanswers
  rw [List.length_cons, blkBytes_length] at hn
  exact ⟨sinkWriteAll_sinkFail_blkCount hwrites, n, Nat.le_of_lt_succ hn, hsink, hanswers⟩

/-- Settles O46: below 253 bytes the byte is only stored; the 254th is stored and the buffer is flushed. -/
theorem byteOutCutsAt254 : Obligations.ByteOutCutsAt254 := by
  intro b s hc
  refine ⟨fun hlow => ?_, fun hfull ha => ?_⟩
  · exact ⟨_, (byteOut_go hc).mpr (.inl ⟨hlow, rfl⟩), Memory.read_write_same .., storeByte_count hc, rfl⟩
  · have hlength : (storeByte b s).blkCount = 254#8 := by
      apply BitVec.eq_of_toNat_eq
      rw [storeByte_count hc, hfull]
      rfl
    refine ⟨_, (byteOut_go hc).mpr (.inr ⟨hfull, ha, rfl⟩), ?_, rfl, ?_⟩
    · rw [← hfull]
      exact Memory.read_write_same ..
    · rw [flushed_sink, storeByte_sink, hlength, blkBytes_storeByte hc]

end Sys2Proof.Proofs
end

section
/-! SUPPORT. The family 60_exceptions.md: how a command that runs is answered, and the settled statements. -/

namespace Sys2Proof.Machine

/-! ### Causes and responses (rules R90, R153) -/

/-- A command that runs is answered with success or with the sink failure. -/
theorem RunsAs.rsp_next {i : Instr} {s t : State} {F : State → Flow} (h : RunsAs i s F)
    (ht : Machine.exec i s = .next t) :
    t.rsp = s.rsp ++ [responseWord .eNone] ∨ t.rsp = s.rsp ++ [responseWord .eSink] := by
  have hends := h.ends
  rcases h.next ht with ⟨u, hu, rfl⟩ | ⟨u, hu, rfl⟩
  · rw [hu] at hends
    exact .inl (by rw [respond_rsp, hends.1.rsp])
  · rw [hu] at hends
    exact .inr (by rw [takeSinkFail_rsp, hends.1.rsp])

/-- START is never out of sequence: it opens a call from every phase (rule R91). -/
theorem exec_start_rsp {d : BitVec 4} {s t : State} (h : exec (.start d) s = .next t) :
    ∃ e : ErrCode, e ≠ .eSeq ∧ t.rsp = s.rsp ++ [responseWord e] := by
  cases hd : legalDepth d with
  | false =>
    obtain rfl := Host.Outcome.next.inj ((exec_start_illegal hd s).symm.trans h)
    exact ⟨.eReserved, by decide, rfl⟩
  | true =>
    rcases (start_runs hd s).rsp_next h with hrsp | hrsp
    · exact ⟨.eNone, by decide, hrsp⟩
    · exact ⟨.eSink, by decide, hrsp⟩

end Sys2Proof.Machine

namespace Sys2Proof.Proofs

open Sys2Proof Sys2Proof.Machine

/-- Settles O12: in `IDLE` both commands are refused with `E_SEQ`; the one response of START carries another code. -/
theorem outOfSequenceRefused : Obligations.OutOfSequenceRefused := by
  refine ⟨fun _ hp => ⟨exec_put_of_idle hp, exec_finish_of_idle hp⟩, fun d s t h hseq => ?_⟩
  obtain ⟨e, he, hrsp⟩ := exec_start_rsp h
  have hword : [responseWord e] = [responseWord .eSeq] := List.append_cancel_left (hrsp.symm.trans hseq)
  exact he (responseWord_inj (List.singleton_inj.mp hword))

/-- Settles O13: in `FAILED` PUT is refused with `E_SINK`, and FINISH closes the call with the same answer. -/
theorem failedCallRefused : Obligations.FailedCallRefused :=
  fun _ hp => ⟨exec_put_of_failed hp, exec_finish_of_failed hp⟩

end Sys2Proof.Proofs
end

section
/-! SUPPORT. The family 70_reset_and_hazards.md: what a command that `RESET` cuts short leaves, each command run from
two states that agree on what the call's rules read, and the settled statements. -/

namespace Sys2Proof.Machine

/-! ### A command cut short (rule R170, U12) -/

/-- What the sink got before the cut is at most `k` bytes, and the first bytes of the command before a sink that accepts
everything. -/
structure CutAfter (k : Nat) (i : Instr) (s : State) (bs : List Byte) : Prop where
  length_le : bs.length ≤ k
  isPrefix : ∀ u, exec i (calm s) = .next u → s.sink ++ bs <+: u.sink

/-- A command answered before the answers a cut leaves has met the cut, if not its own end before. -/
theorem cutAfter_of_exec {k : Nat} {i : Instr} {s t : State}
    (h : exec i { s with answers := cutAnswers k s.answers } = .next t) :
    ∃ bs, t.sink = s.sink ++ bs ∧ CutAfter k i s bs := by
  obtain ⟨bs, hsink, hlast⟩ := exec_wrote h
  obtain ⟨j, hj, hfail⟩ := cutAnswers_fail k s.answers
  refine ⟨bs, hsink, (hlast j hfail).trans hj, fun u hu => ?_⟩
  obtain ⟨hprefix, -⟩ := Proofs.sinkAnswersOnlyCutShort i _ t u h hu
  rwa [hsink] at hprefix

theorem cutAfter_nil (k : Nat) (i : Instr) (s : State) : CutAfter k i s [] := by
  refine ⟨Nat.zero_le k, fun u hu => ?_⟩
  rw [List.append_nil]
  exact (exec_append hu).1

/-- A cut command has a meaning unless the command itself has none, and it ends in a reset that keeps the bytes accepted
before the cut and uses up the answers to them. -/
theorem resetDuring_next {k : Nat} {i : Instr} {s : State} (h : ∀ q, resetDuring k i s ≠ .refused q) :
    ∃ bs, resetDuring k i s = .next (resetCore (afterCut s s.cmd s.resetPin bs (s.answers.drop bs.length))) ∧
      CutAfter k i s bs := by
  cases hx : exec i { s with answers := cutAnswers k s.answers } with
  | next t =>
    obtain ⟨bs, hsink, hcut⟩ := cutAfter_of_exec hx
    refine ⟨bs, ?_, hcut⟩
    simp only [resetDuring, hx, hsink, List.length_append, Nat.add_sub_cancel_left, afterCut]
  | fault r =>
    refine ⟨[], ?_, cutAfter_nil k i s⟩
    simp only [resetDuring, hx, afterCut, List.append_nil, List.length_nil, List.drop_zero]
  | refused q => exact absurd (by simp only [resetDuring, hx]) (h q)

theorem cutCommand_of_cmd_cons {k : Nat} {s : State} {w : CmdWord} {ws : List CmdWord} (h : s.cmd = w :: ws) :
    cutCommand k s = resetDuring k (decode w) { s with cmd := ws } := by
  simp only [cutCommand, h]

/-! ### Commands with no meaning, and commands that hang (rules R175, R180) -/

theorem symbolLegal_eq_false {d : BitVec 4} {c : BitVec 8} (h : 2 ^ max 2 d.toNat ≤ c.toNat) :
    symbolLegal d c = false :=
  decide_eq_false (Nat.not_lt.mpr h)

theorem exec_put_outOfRange {c : BitVec 8} {s : State} (ho : callOpen s) (hc : symbolLegal s.depth c = false) :
    exec (.put c) s = .refused .symbolNotBelowClearCode := by
  rcases ho with hp | hp <;> simp only [exec, execPut, hp, hc, Bool.false_eq_true, if_false]

theorem exec_start_silent {d : BitVec 4} {s : State} {r : List SinkAnswer} (hd : legalDepth d = true)
    (ha : s.answers = .silent :: r) : exec (.start d) s = .fault .sinkNeverAnswers := by
  have hstuck : sinkWrite (BitVec.ofNat 8 (initSize d)) (openCall d s) = .stuck .sinkNeverAnswers := by
    simp only [sinkWrite, openCall_answers, ha]
  rw [(start_runs hd s).exec, hstuck]
  rfl

/-! ### Commands from two states that agree on what the rules read (rule R173) -/

theorem SameCall.phase {s u : State} (h : SameCall s u) : s.phase = u.phase := h.1

theorem SameCall.lastErr {s u : State} (h : SameCall s u) : s.lastErr = u.lastErr := h.2.1

theorem SameCall.answers {s u : State} (h : SameCall s u) : s.answers = u.answers := h.2.2.1

theorem SameCall.callOpen {s u : State} (h : SameCall s u) (ho : callOpen s) : callOpen u := by
  rwa [Machine.callOpen, ← h.phase]

/-- With no call open nothing but `LAST_ERR` and the sink's answers is left to agree on. -/
theorem SameCall.closed {s u : State} (h : SameCall s u) :
    SameCall { s with phase := .idle } { u with phase := .idle } := by
  refine ⟨rfl, h.lastErr, h.answers, ?_⟩
  rintro (hp | hp) <;> cases hp

theorem closeFailed_sameEffect {s u : State} (h : SameCall s u) :
    sameEffect s u (.next (closeFailed s)) (.next (closeFailed u)) :=
  refuse_sameEffect h.closed

theorem firstSymbol_twin (c : BitVec 8) {s u : State} (h : Twin s u) : Twin (firstSymbol c s) (firstSymbol c u) :=
  { h with phase := rfl, prevCode := fun _ => rfl }

/-- FINISH in `ACTIVE`: both states hold the pending code to emit. -/
theorem finishActive_alike {s u : State} (h : Twin s u) (hp : s.phase = .active) :
    Alike s u ((emitCode s.prevCode s).andThen closeStream) ((emitCode u.prevCode u).andThen closeStream) := by
  rw [← h.prevCode hp]
  exact (emitCode_alike _ h).andThen fun _ _ ht _ _ => closeStream_alike ht

theorem exec_start_sameEffect (d : BitVec 4) {s u : State} (h : SameCall s u) :
    sameEffect s u (exec (.start d) s) (exec (.start d) u) := by
  cases hd : legalDepth d with
  | true => exact Proofs.startErasesHistory d s u hd h.answers
  | false =>
    rw [exec_start_illegal hd, exec_start_illegal hd]
    exact refuse_sameEffect h

/-- PUT in an open call: both states have the same `DEPTH`, so the symbol is legal in both or in neither. -/
theorem exec_put_open_sameEffect (c : BitVec 8) {s u : State} (h : SameCall s u) (ho : callOpen s) :
    sameEffect s u (exec (.put c) s) (exec (.put c) u) := by
  have htwin := h.twin ho
  cases hc : symbolLegal s.depth c with
  | false =>
    rw [exec_put_outOfRange ho hc, exec_put_outOfRange (h.callOpen ho) (by rw [← htwin.depth, hc])]
    rfl
  | true =>
    have hcu : symbolLegal u.depth c = true := by rw [← htwin.depth, hc]
    rcases ho with hp | hp
    · exact (put_empty_runs hp hc).sameEffect (put_empty_runs (h.phase ▸ hp) hcu) (.inl h.lastErr)
        (Alike.pure (firstSymbol_twin c htwin) rfl rfl)
    · exact (put_active_runs hp hc).sameEffect (put_active_runs (h.phase ▸ hp) hcu) (.inl h.lastErr)
        (nextSymbol_alike c htwin hp)

theorem exec_put_sameEffect (c : BitVec 8) {s u : State} (h : SameCall s u) :
    sameEffect s u (exec (.put c) s) (exec (.put c) u) := by
  cases hp : s.phase with
  | idle =>
    rw [exec_put_of_idle hp, exec_put_of_idle (h.phase ▸ hp)]
    exact refuse_sameEffect h
  | empty => exact exec_put_open_sameEffect c h (.inl hp)
  | active => exact exec_put_open_sameEffect c h (.inr hp)
  | failed =>
    rw [exec_put_of_failed hp, exec_put_of_failed (h.phase ▸ hp)]
    exact refuse_sameEffect h

theorem exec_finish_sameEffect {s u : State} (h : SameCall s u) :
    sameEffect s u (exec .finish s) (exec .finish u) := by
  cases hp : s.phase with
  | idle =>
    rw [exec_finish_of_idle hp, exec_finish_of_idle (h.phase ▸ hp)]
    exact refuse_sameEffect h
  | empty =>
    exact (finish_empty_runs hp).sameEffect (finish_empty_runs (h.phase ▸ hp)) (.inl h.lastErr)
      (closeStream_alike (h.twin (.inl hp)))
  | active =>
    exact (finish_active_runs hp).sameEffect (finish_active_runs (h.phase ▸ hp)) (.inl h.lastErr)
      (finishActive_alike (h.twin (.inr hp)) hp)
  | failed =>
    rw [exec_finish_of_failed hp, exec_finish_of_failed (h.phase ▸ hp)]
    exact closeFailed_sameEffect h

end Sys2Proof.Machine

namespace Sys2Proof.Proofs

open Sys2Proof Sys2Proof.Machine

/-- Settles O53, command by command: in an open call the two states are twins, from which every procedure runs alike;
elsewhere the command is turned away by `PHASE` alone. -/
theorem callSeesNoHistory : Obligations.CallSeesNoHistory := by
  intro i s u h
  cases i with
  | start d => exact exec_start_sameEffect d h
  | put c => exact exec_put_sameEffect c h
  | finish => exact exec_finish_sameEffect h
  | _ => exact refuse_sameEffect h

/-- Settles O10: the cut is a sink failure at the byte after the `k`-th at the latest, so the bytes are those of a
command cut short by its sink (O27), and the reset that follows keeps them. -/
theorem resetDuringCommand : Obligations.ResetDuringCommand := by
  intro s w ws k r hcmd hpin hmeaning
  have hstep : step s = resetDuring k (decode w) { s with cmd := ws, resetPin := r } :=
    (step_of_pin_during hpin).trans (cutCommand_of_cmd_cons (s := { s with resetPin := r }) hcmd)
  rw [hstep] at hmeaning ⊢
  obtain ⟨bs, hnext, hcut⟩ := resetDuring_next hmeaning
  exact ⟨_, bs, hnext, rfl, rfl, rfl, rfl, rfl, rfl, hcut.length_le, rfl, hcut.isPrefix⟩

/-- Settles O9: the step is the reset and nothing else. -/
theorem resetBetweenCommands : Obligations.ResetBetweenCommands :=
  fun _ _ hpin => ⟨_, step_of_pin_between hpin, rfl, rfl, rfl, rfl, rfl, rfl, rfl⟩

/-- Settles O15: the bound on the symbol is `CLEAR_CODE`. -/
theorem symbolOutOfRangeRefused : Obligations.SymbolOutOfRangeRefused :=
  fun _ _ ho hc => exec_put_outOfRange ho (symbolLegal_eq_false hc)

/-- Settles O18: START's first byte is the one the sink never answers. -/
theorem silentSinkHangsStart : Obligations.SilentSinkHangsStart :=
  fun _ _ _ h1 h8 ha => exec_start_silent (legalDepth_of_bounds h1 h8) ha

end Sys2Proof.Proofs
end
